-- ==== Sys2Proof/Word.lean ====
section
/-! DEFINITION. The machine's word types (00_scope.md R8, R9). -/

namespace Sys2Proof

/-- A 32-bit word: every command word, macro instruction, register value and argument (00_scope.md R8). -/
abbrev Word := BitVec 32

/-- One byte of GPU memory (20_memory.md R61). -/
abbrev Byte := BitVec 8

/-- Index of an interpreter register, 0 to 7 (10_state.md R32). -/
abbrev Reg := BitVec 3

/-- Number of a sub-channel, 0 to 7 (10_state.md R26). -/
abbrev SubCh := BitVec 3

/-- Index of a macro slot, 0 to 127 (10_state.md R30). -/
abbrev SlotIx := BitVec 7

end Sys2Proof
end

