-- ==== Sys2Proof/Config.lean ====
section
/-! DEFINITION. The implementation parameters of 00_scope.md R8 that are fixed numbers, and the model's one free value. -/

namespace Sys2Proof.Config

/-- Words of macro code memory (00_scope.md R8, 90_conflicts.md C6). -/
def macroMemWords : Nat := 262144

/-- Words of a sub-channel register file and of its shadow RAM (00_scope.md R8, 92_eei_decisions.md D9). -/
def regFileWords : Nat := 0xE00

/-- Words of the FIFO-channel register file (00_scope.md R8, 92_eei_decisions.md D14). -/
def fifoRegWords : Nat := 0x60

/-- Methods below it, other than method 0, go to the FIFO channel (00_scope.md R8). -/
def fifoMethodCeiling : Nat := 0x60

/-- Methods from it up are macro methods (00_scope.md R8). -/
def genericRegCeiling : Nat := 0xE00

/-- Number of macro slots (00_scope.md R8). -/
def numMacroSlots : Nat := 128

/-- The `n`-th draw of a byte that the memory accessor cannot supply: an unconstrained value
(20_memory.md R66, 40_command_buffer.md R136). It has no body, so no proof can see what it is. Log 8. -/
opaque unmappedByte : Nat → Byte

end Sys2Proof.Config
end

