-- ==== Sys2Proof/Syntax.lean ====
section
/-! DEFINITION. The instruction syntax: one constructor of `Instr` per row of spec/opcode_table.json. -/

namespace Sys2Proof

/-- The assignment operation of a non-branch macro word, bits 6:4 (30_encoding.md R106). -/
inductive Asg where
  /-- 0: the destination takes the next argument. -/
  | load
  /-- 1: the destination takes the ALU result. -/
  | move
  /-- 2: as 1, and the result sets the method address. -/
  | movsm
  /-- 3: the destination takes the next argument, the result is sent. -/
  | ldsend
  /-- 4: the destination takes the result, which is also sent. -/
  | mvsend
  /-- 5: the destination takes the next argument, the result sets the method address. -/
  | ldsm
  /-- 6: as 2, and then the next argument is sent. -/
  | mvsmldsend
  /-- 7: as 2, and then bits 17:12 of the result are sent. -/
  | mvsmsendhi
deriving DecidableEq, Repr

/-- The register-register operations, bits 21:17 of a word with selector 0 (30_encoding.md R101). -/
inductive RegOp where
  | add | addc | sub | subb | xor | or | and | andn | nand
deriving DecidableEq, Repr

/-- The ALU stage of a non-branch macro word that is not reserved (42_mme_alu.md R210), as an operand of the eight
assignment-suffix rows, which stand for every such word. -/
inductive AluOp where
  | reg (k : RegOp) (a b : Reg)
  | addi (a : Reg) (imm : BitVec 18)
  | bfi (a b : Reg) (srcBit size dstBit : BitVec 5)
  | bfeli (a b : Reg) (size dstBit : BitVec 5)
  | bfelr (a b : Reg) (srcBit size : BitVec 5)
  | read (a : Reg) (imm : BitVec 18)
deriving DecidableEq, Repr

/-- A method call, the value the submission state machine passes to the dispatcher (10_state.md R23). -/
structure MethodCall where
  method : Word
  argument : Word
  subChannel : SubCh
  remainingCount : Word
deriving DecidableEq, Repr

/-- The instructions: every row of the opcode table, in the table's order.
`x` is the exit flag, `d` the destination register, `a` and `b` the source registers. -/
inductive Instr where
  -- register-register operations (42_mme_alu.md R212 to R220)
  | add (asg : Asg) (x : Bool) (d a b : Reg)
  | addc (asg : Asg) (x : Bool) (d a b : Reg)
  | sub (asg : Asg) (x : Bool) (d a b : Reg)
  | subb (asg : Asg) (x : Bool) (d a b : Reg)
  | xor (asg : Asg) (x : Bool) (d a b : Reg)
  | or (asg : Asg) (x : Bool) (d a b : Reg)
  | and (asg : Asg) (x : Bool) (d a b : Reg)
  | andn (asg : Asg) (x : Bool) (d a b : Reg)
  | nand (asg : Asg) (x : Bool) (d a b : Reg)
  -- reserved register-register operations, with the whole word (42_mme_alu.md R221)
  | reservedAluop4To7 (w : Word)
  | reservedAluop13 (w : Word)
  | reservedAluop14To15 (w : Word)
  | reservedAluop16To31 (w : Word)
  -- immediate and bitfield operations (42_mme_alu.md R222 to R226)
  | addi (asg : Asg) (x : Bool) (d a : Reg) (imm : BitVec 18)
  | bfi (asg : Asg) (x : Bool) (d a b : Reg) (srcBit size dstBit : BitVec 5)
  | bfeli (asg : Asg) (x : Bool) (d a b : Reg) (size dstBit : BitVec 5)
  | bfelr (asg : Asg) (x : Bool) (d a b : Reg) (srcBit size : BitVec 5)
  | read (asg : Asg) (x : Bool) (d a : Reg) (imm : BitVec 18)
  -- reserved selector, with the whole word (42_mme_alu.md R227)
  | reservedOp6 (w : Word)
  -- branches (44_mme_sequencer.md R284 to R287)
  | bz (x : Bool) (a : Reg) (imm : BitVec 18)
  | bnz (x : Bool) (a : Reg) (imm : BitVec 18)
  | bzNd (x : Bool) (a : Reg) (imm : BitVec 18)
  | bnzNd (x : Bool) (a : Reg) (imm : BitVec 18)
  -- assignment-suffix rows: every non-branch word with that suffix (43_mme_assign.md R255 to R262)
  | load (op : AluOp) (x : Bool) (d : Reg)
  | move (op : AluOp) (x : Bool) (d : Reg)
  | movsm (op : AluOp) (x : Bool) (d : Reg)
  | ldsend (op : AluOp) (x : Bool) (d : Reg)
  | mvsend (op : AluOp) (x : Bool) (d : Reg)
  | ldsm (op : AluOp) (x : Bool) (d : Reg)
  | mvsmldsend (op : AluOp) (x : Bool) (d : Reg)
  | mvsmsendhi (op : AluOp) (x : Bool) (d : Reg)
  -- pseudo-instructions (30_encoding.md R113)
  | nop
  | exit
  | mov (d a : Reg)
  | li (d : Reg) (imm : BitVec 18)
  | parm (d : Reg)
  | maddr (imm : BitVec 18)
  | send (a : Reg)
  | j (imm : BitVec 18)
  | jNd (imm : BitVec 18)
  -- submission headers (40_command_buffer.md R140 to R145)
  | inc (method : BitVec 13) (sc : SubCh) (count : BitVec 13)
  | noninc (method : BitVec 13) (sc : SubCh) (count : BitVec 13)
  | imm (method : BitVec 13) (sc : SubCh) (arg : BitVec 13)
  | oneinc (method : BitVec 13) (sc : SubCh) (count : BitVec 13)
  | reservedMode0
  | reservedMode2
  | reservedMode6
  | reservedMode7
  -- data and length words (40_command_buffer.md R141, R146)
  | data (w : Word)
  | length (count : BitVec 24)
  -- methods (41_dispatch.md R172 to R190)
  | bindChannel (sc : SubCh) (cls : Word)
  | waitForIdle (v : Word)
  | setMacroUploadAddress (v : Word)
  | sendMacroCodeData (v : Word)
  | setMacroBindingIndex (v : Word)
  | bindMacro (v : Word)
  | setMmeShadowRamControl (v : Word)
  | fifoOther (method v : Word)
  | registerMethod (sc : SubCh) (method v : Word)
  | macroStart (sc : SubCh) (method v remaining : Word)
  | macroArgument (sc : SubCh) (method v remaining : Word)
  -- GPFIFO entry (40_command_buffer.md R131): bits 39:2 of the address
  | queueEntry (noPrefetch : Bool) (count : BitVec 21) (address : BitVec 38)
deriving DecidableEq, Repr

end Sys2Proof
end

