-- ==== Sys2Proof/Machine/State.lean ====
section
/-! DEFINITION. The machine's state as plain data (10_state.md), the reasons a step stops, and the state after reset.
INVENTORY.md, under State, lists every field with its rule. -/

namespace Sys2Proof.Machine

/-! ### Sparse memories -/

/-- A word memory as its (index, word) pairs: indices strictly rising, an unlisted index reads as 0, and no entry
holds 0 (`Memory.wordsWf`). -/
abbrev WordMap := List (Nat × Word)

/-- GPU memory as the accessor answers it: (byte address, byte) pairs, addresses strictly rising; an unlisted address
is unmapped and reads as an unconstrained draw (20_memory.md R60, R66; log 8). -/
abbrev GpuMem := List Host.Cell

/-! ### Pusher -/

/-- The kind of a command buffer (10_state.md R21). -/
inductive BufferKind where
  | prefetchable
  | noPrefetch
deriving DecidableEq, Repr

/-- A queued command buffer (10_state.md R21). The sentinel address of a host-submitted buffer is all-ones (log 10). -/
structure CommandBuffer where
  kind : BufferKind
  address : BitVec 64
  count : Nat
  words : Option (List Word)
deriving DecidableEq, Repr

/-- What the processing agent has still to do for the command word whose call is being dispatched. -/
inductive After where
  /-- the rest of a data word (40_command_buffer.md R141): advance `method`, count down `methodCount` -/
  | dataWord
  /-- nothing: the call was an immediate header's (40_command_buffer.md R143) -/
  | immediate
deriving DecidableEq, Repr

/-- Where the processing agent stands inside a pusher step (the model's own field, log 1). -/
inductive Phase where
  /-- between pusher steps: the next command word or buffer (40_command_buffer.md R137) -/
  | pusher
  /-- a method call waits to be routed (41_dispatch.md R170) -/
  | call (c : MethodCall) (k : After)
  /-- a macro is running (44_mme_sequencer.md R281) -/
  | run (k : After)
  /-- a macro has signalled its exit; one more step is executed (44_mme_sequencer.md R288) -/
  | last (k : After)
deriving DecidableEq, Repr

/-! ### Dispatcher -/

/-- A sub-channel (10_state.md R26). `cls` is the spec's `class`. -/
structure SubChannel where
  cls : Word
  regs : WordMap
  shadow : WordMap
deriving DecidableEq, Repr

/-- A macro slot (10_state.md R30, R31). -/
structure Slot where
  bound : Bool
  startPosition : Word
  pendingArgument : Word
  executionPending : Bool
  argFifo : List Word
deriving DecidableEq, Repr

/-- The slot at reset (10_state.md R52). -/
def Slot.empty : Slot :=
  { bound := false, startPosition := 0, pendingArgument := 0, executionPending := false, argFifo := [] }

/-! ### Output trace and fault record -/

/-- Who made a register write (10_state.md R50): the submission state machine, or a macro. -/
inductive Origin where
  | pusher
  | mme
deriving DecidableEq, Repr

/-- The one diagnostic, code 1 (60_exceptions.md R303). -/
inductive DiagKind where
  | argUnderflow
deriving DecidableEq, Repr

/-- The code of a diagnostic (60_exceptions.md R303). -/
def DiagKind.code : DiagKind → Nat
  | .argUnderflow => 1

/-- The events of the output trace (10_state.md R50). -/
inductive Event where
  | memRead (address : BitVec 64) (nbytes : Nat)
  | bind (sc : SubCh) (cls : Word)
  | fifoWrite (method value : Word)
  | regWrite (sc : SubCh) (index value : Word) (origin : Origin)
  | deferredDraws
  | diag (kind : DiagKind) (slot : SlotIx)
deriving DecidableEq, Repr

/-- The fault kinds of 60_exceptions.md R302, in the order of their codes 1 to 8. Each is raised where its rule says
and is recorded in the state; recording one is the spec's effect, so no kind is an unsafe stop of the model. -/
inductive FaultKind where
  /-- 1: a macro word with a reserved selector or sub-operation (42_mme_alu.md R221, R227) -/
  | aluReserved
  /-- 2: a macro fetch outside macro code memory (44_mme_sequencer.md R291) -/
  | macroFetchRange
  /-- 3: READ of an index outside the register file (41_dispatch.md R180) -/
  | regReadRange
  /-- 4: a send to an index outside the register file (41_dispatch.md R181) -/
  | regWriteRange
  /-- 5: a register write under a shadow mode above 3 (41_dispatch.md R181) -/
  | shadowModeReserved
  /-- 6: a code upload outside macro code memory (41_dispatch.md R175) -/
  | uploadRange
  /-- 7: a bind with an index above 127 (41_dispatch.md R177) -/
  | bindIndexRange
  /-- 8: a macro method to a slot never bound (41_dispatch.md R187) -/
  | slotUnbound
deriving DecidableEq, Repr

/-- The code of a fault kind (60_exceptions.md R302). -/
def FaultKind.code : FaultKind → Nat
  | .aluReserved => 1
  | .macroFetchRange => 2
  | .regReadRange => 3
  | .regWriteRange => 4
  | .shadowModeReserved => 5
  | .uploadRange => 6
  | .bindIndexRange => 7
  | .slotUnbound => 8

/-- The fault record (10_state.md R51). `info` is an integer, since a fetch address may be negative. -/
structure FaultRecord where
  kind : FaultKind
  info : Int
deriving DecidableEq, Repr

/-! ### Host producers -/

/-- What a host agent does: the two submissions of 60_exceptions.md R310, and a change of what the memory accessor
answers for one byte address (`none`: unmapped). -/
inductive HostCall where
  | pushEntries (es : List (BitVec 64))
  | pushHostCommandBuffer (ws : List Word)
  | setMemory (address : Nat) (byte : Option Byte)
deriving DecidableEq, Repr

/-- A host producer: the rest of the `pushEntries` call it is in, that call's `beforeBarrier` (40_command_buffer.md
R130), and the calls it will make next. -/
structure Producer where
  entries : List (BitVec 64)
  beforeBarrier : Bool
  calls : List HostCall
deriving DecidableEq, Repr

/-- Which agent moves next (log 11). -/
inductive Turn where
  | agent
  | producer (n : Nat)
deriving DecidableEq, Repr

/-! ### The state -/

/-- The machine's state. -/
structure State where
  /-- pending queue (10_state.md R20) -/
  queue : List CommandBuffer
  /-- active buffer and the index of its next word (10_state.md R22) -/
  cur : Option CommandBuffer
  pos : Nat
  /-- DmaState (10_state.md R24, R25) -/
  method : Word
  subChannel : SubCh
  methodCount : Word
  nonIncrementing : Bool
  incrementOnce : Bool
  lengthPending : Bool
  /-- sub-channels (10_state.md R26) -/
  subs : Vector SubChannel 8
  /-- FIFO-channel register file (10_state.md R27) -/
  fifoRegs : WordMap
  /-- control registers (10_state.md R28) -/
  uploadAddr : Word
  bindIndex : Word
  shadowMode : Word
  /-- macro code memory (10_state.md R29) -/
  macroMem : WordMap
  /-- macro slots (10_state.md R30) -/
  slots : Vector Slot 128
  /-- interpreter registers (10_state.md R32) -/
  gprs : Vector Word 8
  /-- carry flag (10_state.md R33) -/
  carry : Bool
  /-- fetch pointer, a mathematical integer (10_state.md R34) -/
  pc : Int
  /-- pipeline register (10_state.md R35) -/
  pipeOp : Word
  /-- method address and increment (10_state.md R36) -/
  methAddr : Word
  methIncr : Word
  /-- execution context (10_state.md R37) -/
  sinkSc : SubCh
  mode : Word
  slotId : SlotIx
  /-- output trace, oldest event first (10_state.md R50) -/
  trace : List Event
  /-- fault record (10_state.md R51) -/
  fault : Option FaultRecord
  /-- the parameter BIND_INDEX_AUTOINC, never written (00_scope.md R8; log 7) -/
  bindIndexAutoinc : Bool
  /-- GPU memory behind the accessor (20_memory.md R60; log 8) -/
  gpuMem : GpuMem
  /-- the model's own: position inside a pusher step (log 1) -/
  phase : Phase
  /-- the model's own: how many free bytes have been drawn (log 8) -/
  draws : Nat
  /-- the model's own: the host producers, the one whose entry is being pushed, and who moves next (log 11) -/
  producers : List Producer
  pushing : Nat
  turns : List Turn
deriving DecidableEq, Repr

/-- Why a step stops with a fault. -/
inductive Fault where
  /-- Raised by `step` for the processing agent of a state with a fault record: it takes no further step
  (60_exceptions.md R301). Safe: this is the spec's own stop. -/
  | stopped (kind : FaultKind) (info : Int)
  /-- Raised by `step` where the active buffer has no word at `pos` although `pos < count`, which no run from reset
  reaches (`Safety.StateInv`; log 20). Safe: the model stops where the spec says nothing. -/
  | wordNotResident
deriving DecidableEq, Repr

/-- Why a step is refused. -/
inductive Refusal where
  /-- Raised by `exec` for an instruction without a meaning yet; no arm does. Safe. -/
  | notModelled (mnemonic : String)
deriving DecidableEq, Repr

/-! ### Reset -/

/-- The open parameters of 00_scope.md R8 that fix the state after reset. -/
structure Params where
  bindIndexAutoinc : Bool
  initRegs : Vector WordMap 8
  initShadow : Vector WordMap 8
  initMacroMem : WordMap
deriving DecidableEq, Repr

/-- The parameters of `State.reset`: the spec's default for BIND_INDEX_AUTOINC, and zeros where the spec gives no value
(DESIGN CHOICE, unsafe: log 5, log 6, log 7). -/
def Params.standard : Params :=
  { bindIndexAutoinc := true
    initRegs := Vector.replicate 8 []
    initShadow := Vector.replicate 8 []
    initMacroMem := [] }

/-- The state after reset under any parameters (10_state.md R52). -/
def State.resetWith (p : Params) : State :=
  { queue := []
    cur := none
    pos := 0
    method := 0
    subChannel := 0
    methodCount := 0
    nonIncrementing := false
    incrementOnce := false
    lengthPending := false
    subs := Vector.ofFn fun i => { cls := 0, regs := p.initRegs[i], shadow := p.initShadow[i] }
    fifoRegs := []
    uploadAddr := 0
    bindIndex := 0
    shadowMode := 0
    macroMem := p.initMacroMem
    slots := Vector.replicate 128 Slot.empty
    gprs := Vector.replicate 8 0
    carry := false
    pc := 0
    pipeOp := 0
    methAddr := 0
    methIncr := 0
    sinkSc := 0
    mode := 0
    slotId := 0
    trace := []
    fault := none
    bindIndexAutoinc := p.bindIndexAutoinc
    gpuMem := []
    phase := .pusher
    draws := 0
    producers := []
    pushing := 0
    turns := [] }

/-- The machine right after reset (10_state.md R52, 70_reset_and_hazards.md R330). -/
def State.reset : State := State.resetWith Params.standard

end Sys2Proof.Machine
end

