-- ==== Sys2Proof/Machine/Memory.lean ====
section
/-! DEFINITION. Sparse memories in canonical form: the block's word memories and GPU memory (20_memory.md). -/

namespace Sys2Proof.Machine.Memory

/-- The value listed at index `k`. -/
def lookup {α : Type} : List (Nat × α) → Nat → Option α
  | [], _ => none
  | (j, v) :: m, k => if j = k then some v else lookup m k

/-- `m` with `v` listed at index `k`, in rising order of indices. -/
def insert {α : Type} : List (Nat × α) → Nat → α → List (Nat × α)
  | [], k, v => [(k, v)]
  | (j, u) :: m, k, v =>
    if k < j then (k, v) :: (j, u) :: m
    else if k = j then (k, v) :: m
    else (j, u) :: insert m k v

/-- `m` without an entry at index `k`. -/
def erase {α : Type} : List (Nat × α) → Nat → List (Nat × α)
  | [], _ => []
  | (j, u) :: m, k => if k = j then m else (j, u) :: erase m k

/-- Indices strictly rising. -/
abbrev rising {α : Type} (m : List (Nat × α)) : Prop := m.Pairwise (fun e f => e.1 < f.1)

/-- The canonical form of GPU memory. No byte is what an unmapped address reads as, which is a fresh draw (log 8). -/
abbrev wf (m : GpuMem) : Prop := rising m

/-- The canonical form of a word memory of `size` words: rising indices below `size`, no entry 0. -/
abbrev wordsWf (size : Nat) (m : WordMap) : Prop := rising m ∧ ∀ e ∈ m, e.1 < size ∧ e.2 ≠ 0

/-- What an index that a word memory does not list reads as. -/
def unlistedWord : Word := 0

/-- Reads one word of a word memory. -/
def wordAt (m : WordMap) (k : Nat) : Word := (lookup m k).getD unlistedWord

/-- Writes one word of a word memory, keeping the canonical form. -/
def setWord (m : WordMap) (k : Nat) (v : Word) : WordMap :=
  if v = unlistedWord then erase m k else insert m k v

/-- The accessor's answer for one byte, with the number of draws made: a mapped byte, or the next unconstrained draw
(20_memory.md R60, R66). -/
def readByte (m : GpuMem) (draws : Nat) (a : Nat) : Byte × Nat :=
  match lookup m a with
  | some b => (b, draws)
  | none => (Config.unmappedByte draws, draws + 1)

/-- Little-endian assembly of a word (20_memory.md R62). -/
def leWord (b0 b1 b2 b3 : Byte) : Word := b3 ++ b2 ++ b1 ++ b0

/-- One little-endian word at byte address `a`. -/
def readWord (m : GpuMem) (draws : Nat) (a : Nat) : Word × Nat :=
  let r0 := readByte m draws a
  let r1 := readByte m r0.2 (a + 1)
  let r2 := readByte m r1.2 (a + 2)
  let r3 := readByte m r2.2 (a + 3)
  (leWord r0.1 r1.1 r2.1 r3.1, r3.2)

/-- `n` consecutive words from byte address `a` (40_command_buffer.md R135). Addresses do not wrap (log 9). -/
def readWords (m : GpuMem) (draws : Nat) (a : Nat) : Nat → List Word × Nat
  | 0 => ([], draws)
  | n + 1 =>
    let r := readWord m draws a
    let rest := readWords m r.2 (a + 4) n
    (r.1 :: rest.1, rest.2)

/-- Changes what the accessor answers for one byte address. -/
def setByte (m : GpuMem) (a : Nat) (b : Option Byte) : GpuMem :=
  match b with
  | some v => insert m a v
  | none => erase m a

end Sys2Proof.Machine.Memory
end

