-- ==== Sys2Proof/Machine/Ops.lean ====
section
/-! DEFINITION. The named operations over registers, register files, queues and the trace; raising a fault as the one
shared operation of 60_exceptions.md R301 (there is no return from one, R308); the fetch of a command buffer and of a
macro word; what follows a finished method call. -/

namespace Sys2Proof.Machine

/-! ### Trace and faults -/

/-- `Emit` (00_scope.md R10): appends an event to the output trace. -/
def State.emit (s : State) (e : Event) : State := { s with trace := s.trace ++ [e] }

/-- `raise Fault(kind, info)` (60_exceptions.md R301): records the fault; every earlier effect of the step stays
(R306), and whoever raises it does nothing more. -/
def State.raise (s : State) (k : FaultKind) (info : Int) : State := { s with fault := some { kind := k, info := info } }

/-! ### Interpreter registers -/

/-- Reads register `r`; register 0 reads as 0 (10_state.md R32). -/
def State.gpr (s : State) (r : Reg) : Word := if r = 0 then 0 else s.gprs[r.toNat]'(r.isLt)

/-- Writes register `r`; a write to register 0 is discarded (10_state.md R32, 43_mme_assign.md R251). -/
def State.setGpr (s : State) (r : Reg) (v : Word) : State :=
  if r = 0 then s else { s with gprs := s.gprs.set r.toNat v r.isLt }

/-! ### Sub-channels and slots -/

/-- Sub-channel `sc`. -/
def State.sub (s : State) (sc : SubCh) : SubChannel := s.subs[sc.toNat]'(sc.isLt)

/-- Replaces sub-channel `sc`. -/
def State.setSub (s : State) (sc : SubCh) (c : SubChannel) : State := { s with subs := s.subs.set sc.toNat c sc.isLt }

/-- Macro slot `i`. -/
def State.slot (s : State) (i : SlotIx) : Slot := s.slots[i.toNat]'(i.isLt)

/-- Replaces macro slot `i`. -/
def State.setSlot (s : State) (i : SlotIx) (c : Slot) : State := { s with slots := s.slots.set i.toNat c i.isLt }

/-- Word `m` of sub-channel `sc`'s register file. -/
def State.reg (s : State) (sc : SubCh) (m : Nat) : Word := Memory.wordAt (s.sub sc).regs m

/-- Word `m` of sub-channel `sc`'s shadow RAM. -/
def State.shadow (s : State) (sc : SubCh) (m : Nat) : Word := Memory.wordAt (s.sub sc).shadow m

/-- Word `a` of macro code memory (10_state.md R29). -/
def State.code (s : State) (a : Nat) : Word := Memory.wordAt s.macroMem a

/-- Word `m` of the FIFO-channel register file (10_state.md R27). -/
def State.fifoReg (s : State) (m : Nat) : Word := Memory.wordAt s.fifoRegs m

/-! ### The sub-channel register file and shadow RAM -/

/-- `RegRead` (41_dispatch.md R180): the stored word, or the state in which REG_READ_RANGE is recorded. -/
def regRead (sc : SubCh) (m : Word) (s : State) : Except State Word :=
  if m.toNat < Config.regFileWords then .ok (s.reg sc m.toNat) else .error (s.raise .regReadRange m.toNat)

/-- A sub-channel with `v` stored in register `m`. -/
def SubChannel.store (c : SubChannel) (m : Nat) (v : Word) : SubChannel := { c with regs := Memory.setWord c.regs m v }

/-- A sub-channel with `v` recorded in word `m` of the shadow RAM. -/
def SubChannel.record (c : SubChannel) (m : Nat) (v : Word) : SubChannel :=
  { c with shadow := Memory.setWord c.shadow m v }

/-- Shadow mode 0, Track (41_dispatch.md R182): the stored value and the sub-channel after the write. -/
def writeTrack (c : SubChannel) (m : Nat) (v : Word) : Word × SubChannel := (v, (c.record m v).store m v)

/-- Shadow mode 1, TrackWithFilter, read as Track (41_dispatch.md R183; log 17). -/
def writeTrackWithFilter (c : SubChannel) (m : Nat) (v : Word) : Word × SubChannel := (v, (c.record m v).store m v)

/-- Shadow mode 2, Passthrough (41_dispatch.md R184). -/
def writePassthrough (c : SubChannel) (m : Nat) (v : Word) : Word × SubChannel := (v, c.store m v)

/-- Shadow mode 3, Replay (41_dispatch.md R185): the written value is replaced by the shadow copy. -/
def writeReplay (c : SubChannel) (m : Nat) (_v : Word) : Word × SubChannel :=
  (Memory.wordAt c.shadow m, c.store m (Memory.wordAt c.shadow m))

/-- The write of a sub-channel under a shadow mode; none where the mode is reserved (41_dispatch.md R181). -/
def shadowWrite (mode : Word) (c : SubChannel) (m : Nat) (v : Word) : Option (Word × SubChannel) :=
  match mode.toNat with
  | 0 => some (writeTrack c m v)
  | 1 => some (writeTrackWithFilter c m v)
  | 2 => some (writePassthrough c m v)
  | 3 => some (writeReplay c m v)
  | _ => none

/-- `RegWrite` (41_dispatch.md R181): the range check, then the mode check, then the store and its event. -/
def regWrite (sc : SubCh) (m v : Word) (origin : Origin) (s : State) : Except State State :=
  if m.toNat < Config.regFileWords then
    match shadowWrite s.shadowMode (s.sub sc) m.toNat v with
    | some (stored, c) => .ok ((s.setSub sc c).emit (.regWrite sc m stored origin))
    | none => .error (s.raise .shadowModeReserved s.shadowMode.toNat)
  else .error (s.raise .regWriteRange m.toNat)

/-! ### Command buffers -/

/-- `fetch(b)` (40_command_buffer.md R134, R135): nothing for a resident buffer, else one accessor read of 4 * count
bytes with its event. Never faults (R136). -/
def fetchBuffer (b : CommandBuffer) (s : State) : CommandBuffer × State :=
  match b.words with
  | some _ => (b, s)
  | none =>
    let r := Memory.readWords s.gpuMem s.draws b.address.toNat b.count
    ({ b with words := some r.1 }, { s.emit (.memRead b.address (4 * b.count)) with draws := r.2 })

/-- Appends a buffer to the pending queue (10_state.md R20). -/
def State.enqueue (s : State) (b : CommandBuffer) : State := { s with queue := s.queue ++ [b] }

/-- The record of a host-submitted buffer (30_encoding.md R91, 40_command_buffer.md R133). -/
def hostBuffer (ws : List Word) : CommandBuffer :=
  { kind := .prefetchable, address := BitVec.allOnes 64, count := ws.length, words := some ws }

/-- `decodeEntry` (40_command_buffer.md R131) of the fields of a GPFIFO entry. -/
def entryBuffer (noPrefetch : Bool) (count : BitVec 21) (address : BitVec 38) : CommandBuffer :=
  { kind := if noPrefetch then .noPrefetch else .prefetchable
    address := (address ++ 0#2).setWidth 64
    count := count.toNat
    words := none }

/-! ### Macro fetch -/

/-- `fetch(a)` of macro code memory (44_mme_sequencer.md R280, R291). -/
def fetchMacro (a : Int) (s : State) : Except State Word :=
  if 0 ≤ a ∧ a.toNat < Config.macroMemWords then .ok (s.code a.toNat) else .error (s.raise .macroFetchRange a)

/-! ### The end of a method call -/

/-- What the word that made the finished call still asks for. -/
def Phase.after : Phase → After
  | .pusher => .immediate
  | .call _ k => k
  | .run k => k
  | .last k => k

/-- The rest of a data word after its call (40_command_buffer.md R141). -/
def advanceDma (s : State) : State :=
  { s with
    method := if s.nonIncrementing then s.method else s.method + 1
    nonIncrementing := s.nonIncrementing || s.incrementOnce
    methodCount := s.methodCount - 1 }

/-- The rest of the pusher step once the call of its word is done. -/
def finishWord (k : After) (s : State) : State :=
  match k with
  | .dataWord => { advanceDma s with phase := .pusher }
  | .immediate => { s with phase := .pusher }

/-- Ends the method call being dispatched: the pusher step is completed. -/
def endCall (s : State) : State := finishWord s.phase.after s

end Sys2Proof.Machine
end

