-- ==== Sys2Proof/Machine/Headers.lean ====
section
/-! DEFINITION. The command words: submission headers, the data word, the length word (40_command_buffer.md R139 to
R146). A word that makes a method call leaves it in `phase` for the dispatcher (log 1). -/

namespace Sys2Proof.Machine

/-- Loads the DmaState from a header with a count (40_command_buffer.md R140, R142, R144). -/
def loadHeader (m : BitVec 13) (sc : SubCh) (n : BitVec 13) (nonInc once : Bool) (s : State) : State :=
  { s with
    method := m.setWidth 32
    subChannel := sc
    methodCount := n.setWidth 32
    nonIncrementing := nonInc
    incrementOnce := once }

/-- `callMethod` of the current method and sub-channel, with `remainingCount = methodCount` (40_command_buffer.md R141,
R143). -/
def makeCall (argument : Word) (k : After) (s : State) : State :=
  { s with
    phase := .call
      { method := s.method, argument := argument, subChannel := s.subChannel, remainingCount := s.methodCount } k }

/-- INC (40_command_buffer.md R140). -/
def execInc (m : BitVec 13) (sc : SubCh) (n : BitVec 13) (s : State) : Host.Outcome State Fault Refusal :=
  .next (loadHeader m sc n false false s)

/-- NONINC (40_command_buffer.md R142). -/
def execNoninc (m : BitVec 13) (sc : SubCh) (n : BitVec 13) (s : State) : Host.Outcome State Fault Refusal :=
  .next (loadHeader m sc n true false s)

/-- IMM (40_command_buffer.md R143); `methodCount` is not changed. -/
def execImm (m : BitVec 13) (sc : SubCh) (v : BitVec 13) (s : State) : Host.Outcome State Fault Refusal :=
  .next (makeCall (v.setWidth 32) .immediate
    { s with method := m.setWidth 32, subChannel := sc, nonIncrementing := true, incrementOnce := false })

/-- ONEINC (40_command_buffer.md R144). -/
def execOneinc (m : BitVec 13) (sc : SubCh) (n : BitVec 13) (s : State) : Host.Outcome State Fault Refusal :=
  .next (loadHeader m sc n false true s)

/-- Reserved mode 0: consumed, no call (40_command_buffer.md R145). -/
def execReservedMode0 (s : State) : Host.Outcome State Fault Refusal := .next s

/-- Reserved mode 2: consumed, no call (40_command_buffer.md R145). -/
def execReservedMode2 (s : State) : Host.Outcome State Fault Refusal := .next s

/-- Reserved mode 6: consumed, no call (40_command_buffer.md R145). -/
def execReservedMode6 (s : State) : Host.Outcome State Fault Refusal := .next s

/-- Reserved mode 7: consumed, no call (40_command_buffer.md R145). -/
def execReservedMode7 (s : State) : Host.Outcome State Fault Refusal := .next s

/-- A data word (40_command_buffer.md R141): its call is made now; the rest of the word follows the call
(`finishWord`). -/
def execData (w : Word) (s : State) : Host.Outcome State Fault Refusal := .next (makeCall w .dataWord s)

/-- A length word (40_command_buffer.md R146), which no run reaches (log 19). -/
def execLength (n : BitVec 24) (s : State) : Host.Outcome State Fault Refusal :=
  .next { s with lengthPending := false, methodCount := n.setWidth 32 }

end Sys2Proof.Machine
end

