-- ==== Sys2Proof/Machine/Flags.lean ====
section
/-! DEFINITION. The carry flag's computations and the sums and differences they come with (42_mme_alu.md R212 to R215),
over 64-bit intermediates. No other operation reads or writes the carry (10_state.md R33). -/

namespace Sys2Proof.Machine.Flags

/-- The 64-bit value of a carry. -/
def carryWord (c : Bool) : BitVec 64 := if c then 1 else 0

/-- ADD's 64-bit sum (42_mme_alu.md R212). -/
def addWide (a b : Word) : BitVec 64 := a.zeroExtend 64 + b.zeroExtend 64

/-- ADDC's 64-bit sum (42_mme_alu.md R213). -/
def addcWide (a b : Word) (c : Bool) : BitVec 64 := a.zeroExtend 64 + b.zeroExtend 64 + carryWord c

/-- SUB's 64-bit difference (42_mme_alu.md R214). -/
def subWide (a b : Word) : BitVec 64 := a.zeroExtend 64 - b.zeroExtend 64

/-- SUBB's 64-bit difference: a clear carry is a borrow in (42_mme_alu.md R215). -/
def subbWide (a b : Word) (c : Bool) : BitVec 64 := a.zeroExtend 64 - b.zeroExtend 64 - carryWord (!c)

/-- The low word of a 64-bit intermediate. -/
def low (v : BitVec 64) : Word := v.extractLsb' 0 32

/-- The carry of a sum: it does not fit 32 bits (42_mme_alu.md R212, R213). -/
def carryOfSum (v : BitVec 64) : Bool := decide (0xFFFFFFFF < v.toNat)

/-- The carry of a difference: no borrow, so the difference fits 32 bits (42_mme_alu.md R214, R215). -/
def carryOfDifference (v : BitVec 64) : Bool := decide (v.toNat < 0x100000000)

end Sys2Proof.Machine.Flags
end

