-- ==== Sys2Proof/Machine/Operands.lean ====
section
/-! DEFINITION. The operand forms of macro instructions (30_encoding.md R107, R108), the bitwise and bitfield results
(42_mme_alu.md R216 to R225), and the fields of a method address and of a macro method number. -/

namespace Sys2Proof.Machine.Operands

/-- The 18-bit immediate, sign-extended (30_encoding.md R107). -/
def immWord (imm : BitVec 18) : Word := imm.signExtend 32

/-- The immediate as a signed word offset (30_encoding.md R107). -/
def immOffset (imm : BitVec 18) : Int := imm.toInt

/-- Register plus immediate, modulo 2^32: ADDI's result and READ's index (42_mme_alu.md R222, R226). -/
def sumImm (a : Word) (imm : BitVec 18) : Word := a + immWord imm

/-- AND-NOT (42_mme_alu.md R219). -/
def andnWord (a b : Word) : Word := a &&& ~~~b

/-- NAND (42_mme_alu.md R220). -/
def nandWord (a b : Word) : Word := ~~~(a &&& b)

/-- `size` low ones (42_mme_alu.md R223). -/
def fieldMask (size : BitVec 5) : Word := (1#32 <<< size.toNat) - 1

/-- The shift amount a register gives: its five low bits (42_mme_alu.md R224, R225; 92_eei_decisions.md D29). -/
def shiftOf (a : Word) : Nat := a.toNat % 32

/-- BFI: the field of `b` replaces the field of `a` (42_mme_alu.md R223). -/
def bfiWord (a b : Word) (srcBit size dstBit : BitVec 5) : Word :=
  (a &&& ~~~(fieldMask size <<< dstBit.toNat)) ||| (((b >>> srcBit.toNat) &&& fieldMask size) <<< dstBit.toNat)

/-- BFELI: right shift by register, left shift by immediate (42_mme_alu.md R224). -/
def bfeliWord (a b : Word) (size dstBit : BitVec 5) : Word :=
  ((b >>> shiftOf a) &&& fieldMask size) <<< dstBit.toNat

/-- BFELR: right shift by immediate, left shift by register (42_mme_alu.md R225). -/
def bfelrWord (a b : Word) (srcBit size : BitVec 5) : Word :=
  ((b >>> srcBit.toNat) &&& fieldMask size) <<< shiftOf a

/-- The address of a packed method address: bits 11:0 (43_mme_assign.md R253). -/
def packedAddr (v : Word) : Word := v &&& 0xFFF

/-- The increment of a packed method address: bits 17:12 (43_mme_assign.md R253), also the payload of MVSMSENDHI
(43_mme_assign.md R262). -/
def packedIncr (v : Word) : Word := (v >>> 12) &&& 0x3F

/-- The slot of a macro method: bits 7:1 of the method number (30_encoding.md R97). -/
def slotOf (method : Word) : SlotIx := method.extractLsb' 1 7

/-- Last call of its group (10_state.md R23). -/
def isLastCall (remaining : Word) : Bool := decide (remaining.toNat ≤ 1)

end Sys2Proof.Machine.Operands
end

