-- ==== Sys2Proof/Machine/Assign.lean ====
section
/-! DEFINITION. The assignment stage (43_mme_assign.md): its three primitives, the eight operations, and what ends a
macro step (44_mme_sequencer.md R281, R283, R288). A primitive that faults answers the state in which the fault is
recorded, as `.error`. -/

namespace Sys2Proof.Machine

/-! ### Primitives -/

/-- `FetchParam` (43_mme_assign.md R252): the head of the running slot's argument FIFO, or 0 and a diagnostic. -/
def fetchParam (s : State) : Word × State :=
  match (s.slot s.slotId).argFifo with
  | [] => (0, s.emit (.diag .argUnderflow s.slotId))
  | v :: rest => (v, s.setSlot s.slotId { s.slot s.slotId with argFifo := rest })

/-- `SetMethAddr` (43_mme_assign.md R253). -/
def setMethAddr (v : Word) (s : State) : State :=
  { s with methAddr := Operands.packedAddr v, methIncr := Operands.packedIncr v }

/-- Advances the method address by the increment; not masked to 12 bits (43_mme_assign.md R254,
92_eei_decisions.md D10). -/
def advanceMethAddr (s : State) : State := { s with methAddr := s.methAddr + s.methIncr }

/-- `Send` (43_mme_assign.md R254): writes the sink's register file, not the router (41_dispatch.md R192). -/
def sendValue (v : Word) (s : State) : Except State State :=
  match regWrite s.sinkSc s.methAddr v .mme s with
  | .ok s' => .ok (advanceMethAddr s')
  | .error s' => .error s'

/-! ### The eight operations, on the ALU result `r` and the destination `d` -/

/-- LOAD (43_mme_assign.md R255). -/
def assignLoad (d : Reg) (_r : Word) (s : State) : Except State State :=
  .ok ((fetchParam s).2.setGpr d (fetchParam s).1)

/-- MOVE (43_mme_assign.md R256). -/
def assignMove (d : Reg) (r : Word) (s : State) : Except State State := .ok (s.setGpr d r)

/-- MOVSM (43_mme_assign.md R257). -/
def assignMovsm (d : Reg) (r : Word) (s : State) : Except State State := .ok (setMethAddr r (s.setGpr d r))

/-- LDSEND (43_mme_assign.md R258). -/
def assignLdsend (d : Reg) (r : Word) (s : State) : Except State State :=
  sendValue r ((fetchParam s).2.setGpr d (fetchParam s).1)

/-- MVSEND (43_mme_assign.md R259). -/
def assignMvsend (d : Reg) (r : Word) (s : State) : Except State State := sendValue r (s.setGpr d r)

/-- LDSM (43_mme_assign.md R260). -/
def assignLdsm (d : Reg) (r : Word) (s : State) : Except State State :=
  .ok (setMethAddr r ((fetchParam s).2.setGpr d (fetchParam s).1))

/-- MVSMLDSEND (43_mme_assign.md R261). -/
def assignMvsmldsend (d : Reg) (r : Word) (s : State) : Except State State :=
  sendValue (fetchParam (setMethAddr r (s.setGpr d r))).1 (fetchParam (setMethAddr r (s.setGpr d r))).2

/-- MVSMSENDHI (43_mme_assign.md R262). -/
def assignMvsmsendhi (d : Reg) (r : Word) (s : State) : Except State State :=
  sendValue (Operands.packedIncr r) (setMethAddr r (s.setGpr d r))

/-- The assignment stage (43_mme_assign.md R250). -/
def assignStage (asg : Asg) (d : Reg) (r : Word) (s : State) : Except State State :=
  match asg with
  | .load => assignLoad d r s
  | .move => assignMove d r s
  | .movsm => assignMovsm d r s
  | .ldsend => assignLdsend d r s
  | .mvsend => assignMvsend d r s
  | .ldsm => assignLdsm d r s
  | .mvsmldsend => assignMvsmldsend d r s
  | .mvsmsendhi => assignMvsmsendhi d r s

/-! ### The end of a macro step -/

/-- The trigger's end once the macro has run (41_dispatch.md R190): the deferred draws, then the pusher step ends. -/
def endMacro (s : State) : State := endCall (s.emit .deferredDraws)

/-- The run loop after one executed instruction (44_mme_sequencer.md R281): Stop (`true`) makes the next step the last
one; after the last step, whatever it returned, the execution is over (R288). -/
def endStep (stop : Bool) (s : State) : State :=
  match s.phase with
  | .run k => if stop then { s with phase := .last k } else s
  | .last _ => endMacro s
  | .pusher => s
  | .call _ _ => s

/-- Ends a macro step that may have faulted: a fault ends the step at once (60_exceptions.md R301). -/
def concludeStep (x : Bool) (r : Except State State) : State :=
  match r with
  | .ok s => endStep x s
  | .error s => s

/-- The assignment stage of an instruction and the end of its step (44_mme_sequencer.md R282, R283). -/
def assignAndEnd (asg : Asg) (x : Bool) (d : Reg) (r : Word) (s : State) : State :=
  concludeStep x (assignStage asg d r s)

end Sys2Proof.Machine
end

