-- ==== Sys2Proof/Machine/MacroAlu.lean ====
section
/-! DEFINITION. The operation rows of non-branch macro words: the ALU stage (42_mme_alu.md) followed by the assignment
stage. Operands are read before anything is written (R211). -/

namespace Sys2Proof.Machine

/-! ### ALU stages that write the carry, and READ, as operations -/

/-- ADD's ALU stage (42_mme_alu.md R212). -/
def aluAdd (a b : Reg) (s : State) : Word × State :=
  (Flags.low (Flags.addWide (s.gpr a) (s.gpr b)),
    { s with carry := Flags.carryOfSum (Flags.addWide (s.gpr a) (s.gpr b)) })

/-- ADDC's ALU stage (42_mme_alu.md R213). -/
def aluAddc (a b : Reg) (s : State) : Word × State :=
  (Flags.low (Flags.addcWide (s.gpr a) (s.gpr b) s.carry),
    { s with carry := Flags.carryOfSum (Flags.addcWide (s.gpr a) (s.gpr b) s.carry) })

/-- SUB's ALU stage (42_mme_alu.md R214). -/
def aluSub (a b : Reg) (s : State) : Word × State :=
  (Flags.low (Flags.subWide (s.gpr a) (s.gpr b)),
    { s with carry := Flags.carryOfDifference (Flags.subWide (s.gpr a) (s.gpr b)) })

/-- SUBB's ALU stage (42_mme_alu.md R215). -/
def aluSubb (a b : Reg) (s : State) : Word × State :=
  (Flags.low (Flags.subbWide (s.gpr a) (s.gpr b) s.carry),
    { s with carry := Flags.carryOfDifference (Flags.subbWide (s.gpr a) (s.gpr b) s.carry) })

/-- READ's ALU stage (42_mme_alu.md R226). -/
def aluRead (a : Reg) (imm : BitVec 18) (s : State) : Except State Word :=
  regRead s.sinkSc (Operands.sumImm (s.gpr a) imm) s

/-! ### Meanings -/

/-- ADD (42_mme_alu.md R212). -/
def execAdd (asg : Asg) (x : Bool) (d a b : Reg) (s : State) : Host.Outcome State Fault Refusal :=
  .next (assignAndEnd asg x d (aluAdd a b s).1 (aluAdd a b s).2)

/-- ADDC (42_mme_alu.md R213). -/
def execAddc (asg : Asg) (x : Bool) (d a b : Reg) (s : State) : Host.Outcome State Fault Refusal :=
  .next (assignAndEnd asg x d (aluAddc a b s).1 (aluAddc a b s).2)

/-- SUB (42_mme_alu.md R214). -/
def execSub (asg : Asg) (x : Bool) (d a b : Reg) (s : State) : Host.Outcome State Fault Refusal :=
  .next (assignAndEnd asg x d (aluSub a b s).1 (aluSub a b s).2)

/-- SUBB (42_mme_alu.md R215). -/
def execSubb (asg : Asg) (x : Bool) (d a b : Reg) (s : State) : Host.Outcome State Fault Refusal :=
  .next (assignAndEnd asg x d (aluSubb a b s).1 (aluSubb a b s).2)

/-- XOR (42_mme_alu.md R216). -/
def execXor (asg : Asg) (x : Bool) (d a b : Reg) (s : State) : Host.Outcome State Fault Refusal :=
  .next (assignAndEnd asg x d (s.gpr a ^^^ s.gpr b) s)

/-- OR (42_mme_alu.md R217). -/
def execOr (asg : Asg) (x : Bool) (d a b : Reg) (s : State) : Host.Outcome State Fault Refusal :=
  .next (assignAndEnd asg x d (s.gpr a ||| s.gpr b) s)

/-- AND (42_mme_alu.md R218). -/
def execAnd (asg : Asg) (x : Bool) (d a b : Reg) (s : State) : Host.Outcome State Fault Refusal :=
  .next (assignAndEnd asg x d (s.gpr a &&& s.gpr b) s)

/-- ANDN (42_mme_alu.md R219). -/
def execAndn (asg : Asg) (x : Bool) (d a b : Reg) (s : State) : Host.Outcome State Fault Refusal :=
  .next (assignAndEnd asg x d (Operands.andnWord (s.gpr a) (s.gpr b)) s)

/-- NAND (42_mme_alu.md R220). -/
def execNand (asg : Asg) (x : Bool) (d a b : Reg) (s : State) : Host.Outcome State Fault Refusal :=
  .next (assignAndEnd asg x d (Operands.nandWord (s.gpr a) (s.gpr b)) s)

/-- Sub-operations 4 to 7 fault with the word, before any other effect (42_mme_alu.md R221). -/
def execReservedAluop4To7 (w : Word) (s : State) : Host.Outcome State Fault Refusal :=
  .next (s.raise .aluReserved w.toNat)

/-- Sub-operation 13 faults with the word (42_mme_alu.md R221). -/
def execReservedAluop13 (w : Word) (s : State) : Host.Outcome State Fault Refusal :=
  .next (s.raise .aluReserved w.toNat)

/-- Sub-operations 14 and 15 fault with the word (42_mme_alu.md R221). -/
def execReservedAluop14To15 (w : Word) (s : State) : Host.Outcome State Fault Refusal :=
  .next (s.raise .aluReserved w.toNat)

/-- Sub-operations 16 to 31 fault with the word (42_mme_alu.md R221). -/
def execReservedAluop16To31 (w : Word) (s : State) : Host.Outcome State Fault Refusal :=
  .next (s.raise .aluReserved w.toNat)

/-- ADDI (42_mme_alu.md R222). -/
def execAddi (asg : Asg) (x : Bool) (d a : Reg) (imm : BitVec 18) (s : State) : Host.Outcome State Fault Refusal :=
  .next (assignAndEnd asg x d (Operands.sumImm (s.gpr a) imm) s)

/-- BFI (42_mme_alu.md R223). -/
def execBfi (asg : Asg) (x : Bool) (d a b : Reg) (srcBit size dstBit : BitVec 5) (s : State) :
    Host.Outcome State Fault Refusal :=
  .next (assignAndEnd asg x d (Operands.bfiWord (s.gpr a) (s.gpr b) srcBit size dstBit) s)

/-- BFELI (42_mme_alu.md R224). -/
def execBfeli (asg : Asg) (x : Bool) (d a b : Reg) (size dstBit : BitVec 5) (s : State) :
    Host.Outcome State Fault Refusal :=
  .next (assignAndEnd asg x d (Operands.bfeliWord (s.gpr a) (s.gpr b) size dstBit) s)

/-- BFELR (42_mme_alu.md R225). -/
def execBfelr (asg : Asg) (x : Bool) (d a b : Reg) (srcBit size : BitVec 5) (s : State) :
    Host.Outcome State Fault Refusal :=
  .next (assignAndEnd asg x d (Operands.bfelrWord (s.gpr a) (s.gpr b) srcBit size) s)

/-- READ (42_mme_alu.md R226). -/
def execRead (asg : Asg) (x : Bool) (d a : Reg) (imm : BitVec 18) (s : State) : Host.Outcome State Fault Refusal :=
  match aluRead a imm s with
  | .ok r => .next (assignAndEnd asg x d r s)
  | .error s' => .next s'

/-- Selector 6 faults with the word (42_mme_alu.md R227). -/
def execReservedOp6 (w : Word) (s : State) : Host.Outcome State Fault Refusal :=
  .next (s.raise .aluReserved w.toNat)

end Sys2Proof.Machine
end

