-- ==== Sys2Proof/Machine/MacroAssign.lean ====
section
/-! DEFINITION. The assignment-suffix rows (43_mme_assign.md R255 to R262): each stands for every non-branch word with
that suffix, so its meaning is the ALU stage of its operand followed by its own assignment operation. -/

namespace Sys2Proof.Machine

/-- The ALU stage of a non-branch word that is not reserved (42_mme_alu.md R210): the result and the state with the
carry it wrote, or the state in which READ's fault is recorded. -/
def aluStage (op : AluOp) (s : State) : Except State (Word × State) :=
  match op with
  | .reg .add a b => .ok (aluAdd a b s)
  | .reg .addc a b => .ok (aluAddc a b s)
  | .reg .sub a b => .ok (aluSub a b s)
  | .reg .subb a b => .ok (aluSubb a b s)
  | .reg .xor a b => .ok (s.gpr a ^^^ s.gpr b, s)
  | .reg .or a b => .ok (s.gpr a ||| s.gpr b, s)
  | .reg .and a b => .ok (s.gpr a &&& s.gpr b, s)
  | .reg .andn a b => .ok (Operands.andnWord (s.gpr a) (s.gpr b), s)
  | .reg .nand a b => .ok (Operands.nandWord (s.gpr a) (s.gpr b), s)
  | .addi a imm => .ok (Operands.sumImm (s.gpr a) imm, s)
  | .bfi a b srcBit size dstBit => .ok (Operands.bfiWord (s.gpr a) (s.gpr b) srcBit size dstBit, s)
  | .bfeli a b size dstBit => .ok (Operands.bfeliWord (s.gpr a) (s.gpr b) size dstBit, s)
  | .bfelr a b srcBit size => .ok (Operands.bfelrWord (s.gpr a) (s.gpr b) srcBit size, s)
  | .read a imm =>
    match aluRead a imm s with
    | .ok r => .ok (r, s)
    | .error s' => .error s'

/-- A macro step whose ALU stage is `r`: an ALU fault ends it, else the assignment operation `f` and the step's end. -/
def afterAlu (r : Except State (Word × State)) (x : Bool) (f : Word → State → Except State State) : State :=
  match r with
  | .ok p => concludeStep x (f p.1 p.2)
  | .error s => s

/-- LOAD (43_mme_assign.md R255). -/
def execLoad (op : AluOp) (x : Bool) (d : Reg) (s : State) : Host.Outcome State Fault Refusal :=
  .next (afterAlu (aluStage op s) x (assignLoad d))

/-- MOVE (43_mme_assign.md R256). -/
def execMove (op : AluOp) (x : Bool) (d : Reg) (s : State) : Host.Outcome State Fault Refusal :=
  .next (afterAlu (aluStage op s) x (assignMove d))

/-- MOVSM (43_mme_assign.md R257). -/
def execMovsm (op : AluOp) (x : Bool) (d : Reg) (s : State) : Host.Outcome State Fault Refusal :=
  .next (afterAlu (aluStage op s) x (assignMovsm d))

/-- LDSEND (43_mme_assign.md R258). -/
def execLdsend (op : AluOp) (x : Bool) (d : Reg) (s : State) : Host.Outcome State Fault Refusal :=
  .next (afterAlu (aluStage op s) x (assignLdsend d))

/-- MVSEND (43_mme_assign.md R259). -/
def execMvsend (op : AluOp) (x : Bool) (d : Reg) (s : State) : Host.Outcome State Fault Refusal :=
  .next (afterAlu (aluStage op s) x (assignMvsend d))

/-- LDSM (43_mme_assign.md R260). -/
def execLdsm (op : AluOp) (x : Bool) (d : Reg) (s : State) : Host.Outcome State Fault Refusal :=
  .next (afterAlu (aluStage op s) x (assignLdsm d))

/-- MVSMLDSEND (43_mme_assign.md R261). -/
def execMvsmldsend (op : AluOp) (x : Bool) (d : Reg) (s : State) : Host.Outcome State Fault Refusal :=
  .next (afterAlu (aluStage op s) x (assignMvsmldsend d))

/-- MVSMSENDHI (43_mme_assign.md R262). -/
def execMvsmsendhi (op : AluOp) (x : Bool) (d : Reg) (s : State) : Host.Outcome State Fault Refusal :=
  .next (afterAlu (aluStage op s) x (assignMvsmsendhi d))

end Sys2Proof.Machine
end

