-- ==== Sys2Proof/Machine/MacroBranch.lean ====
section
/-! DEFINITION. The branch rows (44_mme_sequencer.md R284 to R290). -/

namespace Sys2Proof.Machine

/-- The branch base: `pc - 1` at the start of the step (44_mme_sequencer.md R282). The look-ahead fetch has advanced
`pc` once more by the time the branch executes. -/
def branchBase (s : State) : Int := s.pc - 2

/-- The target of a taken branch (44_mme_sequencer.md R286). -/
def branchTarget (imm : BitVec 18) (s : State) : Int := branchBase s + Operands.immOffset imm

/-- A taken branch with a delay slot: `pipeOp` keeps the word after it; never a Stop (44_mme_sequencer.md R286, R289). -/
def takeDelayed (imm : BitVec 18) (s : State) : State := endStep false { s with pc := branchTarget imm s }

/-- A taken branch without a delay slot: the target is fetched at once; never a Stop (44_mme_sequencer.md R287, R289). -/
def takeNoDelay (imm : BitVec 18) (s : State) : State :=
  match fetchMacro (branchTarget imm s) { s with pc := branchTarget imm s } with
  | .ok w => endStep false { s with pc := branchTarget imm s + 1, pipeOp := w }
  | .error s' => s'

/-- A branch that is not taken honours its exit flag (44_mme_sequencer.md R285). -/
def notTaken (x : Bool) (s : State) : State := endStep x s

/-- BZ: branch if zero, with a delay slot. -/
def execBz (x : Bool) (a : Reg) (imm : BitVec 18) (s : State) : Host.Outcome State Fault Refusal :=
  .next (if s.gpr a = 0 then takeDelayed imm s else notTaken x s)

/-- BNZ: branch if not zero, with a delay slot. -/
def execBnz (x : Bool) (a : Reg) (imm : BitVec 18) (s : State) : Host.Outcome State Fault Refusal :=
  .next (if s.gpr a = 0 then notTaken x s else takeDelayed imm s)

/-- BZ.ND: branch if zero, without a delay slot. -/
def execBzNd (x : Bool) (a : Reg) (imm : BitVec 18) (s : State) : Host.Outcome State Fault Refusal :=
  .next (if s.gpr a = 0 then takeNoDelay imm s else notTaken x s)

/-- BNZ.ND: branch if not zero, without a delay slot. -/
def execBnzNd (x : Bool) (a : Reg) (imm : BitVec 18) (s : State) : Host.Outcome State Fault Refusal :=
  .next (if s.gpr a = 0 then notTaken x s else takeNoDelay imm s)

end Sys2Proof.Machine
end

