-- ==== Sys2Proof/Machine/MacroPseudo.lean ====
section
/-! DEFINITION. The pseudo-instruction rows (30_encoding.md R113): each has the effect of the word it expands to. -/

namespace Sys2Proof.Machine

/-- NOP, `ADDI.MOVE r0, r0, 0`: the result is discarded. -/
def execNop (s : State) : Host.Outcome State Fault Refusal := .next (endStep false s)

/-- EXIT, `NOP !X`. -/
def execExit (s : State) : Host.Outcome State Fault Refusal := .next (endStep true s)

/-- MOV, `ADDI.MOVE rD, rA, 0`. -/
def execMov (d a : Reg) (s : State) : Host.Outcome State Fault Refusal := .next (endStep false (s.setGpr d (s.gpr a)))

/-- LI, `ADDI.MOVE rD, r0, imm`. -/
def execLi (d : Reg) (imm : BitVec 18) (s : State) : Host.Outcome State Fault Refusal :=
  .next (endStep false (s.setGpr d (Operands.immWord imm)))

/-- PARM, `ADDI.LOAD rD, r0, 0`. -/
def execParm (d : Reg) (s : State) : Host.Outcome State Fault Refusal :=
  .next (endStep false ((fetchParam s).2.setGpr d (fetchParam s).1))

/-- MADDR, `ADDI.MOVSM r0, r0, imm`. -/
def execMaddr (imm : BitVec 18) (s : State) : Host.Outcome State Fault Refusal :=
  .next (endStep false (setMethAddr (Operands.immWord imm) s))

/-- SEND, `ADDI.MVSEND r0, rA, 0`. -/
def execSend (a : Reg) (s : State) : Host.Outcome State Fault Refusal :=
  .next (concludeStep false (sendValue (s.gpr a) s))

/-- J, `BZ r0, off`: always taken, one delay slot. -/
def execJ (imm : BitVec 18) (s : State) : Host.Outcome State Fault Refusal := .next (takeDelayed imm s)

/-- J.ND, `BZ.ND r0, off`: always taken, no delay slot. -/
def execJNd (imm : BitVec 18) (s : State) : Host.Outcome State Fault Refusal := .next (takeNoDelay imm s)

end Sys2Proof.Machine
end

