-- ==== Sys2Proof/Machine/Methods.lean ====
section
/-! DEFINITION. The method rows: bind channel, the FIFO channel, register methods, macro methods (41_dispatch.md R172 to
R191). -/

namespace Sys2Proof.Machine

/-! ### Bind channel and the FIFO channel -/

/-- Bind channel (41_dispatch.md R172). -/
def execBindChannel (sc : SubCh) (cls : Word) (s : State) : Host.Outcome State Fault Refusal :=
  .next (endCall ((s.setSub sc { s.sub sc with cls := cls }).emit (.bind sc cls)))

/-- The store and event of every FIFO-channel write (41_dispatch.md R173). -/
def fifoWrite (m v : Word) (s : State) : State :=
  { s with fifoRegs := Memory.setWord s.fifoRegs m.toNat v }.emit (.fifoWrite m v)

/-- Method 0x44: no effect in this block beyond the write (41_dispatch.md R179). -/
def execWaitForIdle (v : Word) (s : State) : Host.Outcome State Fault Refusal := .next (endCall (fifoWrite 0x44 v s))

/-- Method 0x45 (41_dispatch.md R174). -/
def execSetMacroUploadAddress (v : Word) (s : State) : Host.Outcome State Fault Refusal :=
  .next (endCall { fifoWrite 0x45 v s with uploadAddr := v })

/-- The upload of one code word (41_dispatch.md R175). -/
def upload (v : Word) (s : State) : State :=
  { s with macroMem := Memory.setWord s.macroMem s.uploadAddr.toNat v, uploadAddr := s.uploadAddr + 1 }

/-- Method 0x46 (41_dispatch.md R175). -/
def execSendMacroCodeData (v : Word) (s : State) : Host.Outcome State Fault Refusal :=
  .next (if s.uploadAddr.toNat < Config.macroMemWords then endCall (upload v (fifoWrite 0x46 v s))
    else (fifoWrite 0x46 v s).raise .uploadRange s.uploadAddr.toNat)

/-- Method 0x47 (41_dispatch.md R176). -/
def execSetMacroBindingIndex (v : Word) (s : State) : Host.Outcome State Fault Refusal :=
  .next (endCall { fifoWrite 0x47 v s with bindIndex := v })

/-- A freshly bound slot (41_dispatch.md R177). -/
def boundSlot (start : Word) : Slot :=
  { bound := true, startPosition := start, pendingArgument := 0, executionPending := false, argFifo := [] }

/-- The (re)creation of the slot `bindIndex` (41_dispatch.md R177). -/
def bindSlot (v : Word) (s : State) : State :=
  { s.setSlot (s.bindIndex.setWidth 7) (boundSlot v) with
    bindIndex := if s.bindIndexAutoinc then s.bindIndex + 1 else s.bindIndex }

/-- Method 0x48 (41_dispatch.md R177). -/
def execBindMacro (v : Word) (s : State) : Host.Outcome State Fault Refusal :=
  .next (if s.bindIndex.toNat < Config.numMacroSlots then endCall (bindSlot v (fifoWrite 0x48 v s))
    else (fifoWrite 0x48 v s).raise .bindIndexRange s.bindIndex.toNat)

/-- Method 0x49 (41_dispatch.md R178): any value is stored. -/
def execSetMmeShadowRamControl (v : Word) (s : State) : Host.Outcome State Fault Refusal :=
  .next (endCall { fifoWrite 0x49 v s with shadowMode := v })

/-- The other FIFO-channel methods (41_dispatch.md R179). -/
def execFifoOther (m v : Word) (s : State) : Host.Outcome State Fault Refusal := .next (endCall (fifoWrite m v s))

/-! ### Register methods -/

/-- A sub-channel register method (41_dispatch.md R186). -/
def execRegisterMethod (sc : SubCh) (m v : Word) (s : State) : Host.Outcome State Fault Refusal :=
  match regWrite sc m v .pusher s with
  | .ok s' => .next (endCall s')
  | .error s' => .next s'

/-! ### Macro methods -/

/-- The interpreter as an execution finds it before its first fetch (44_mme_sequencer.md R280, 70_reset_and_hazards.md
R331). -/
def enterMacro (start arg : Word) (i : SlotIx) (sc : SubCh) (s : State) : State :=
  { s with
    gprs := (Vector.replicate 8 0).set 1 arg
    carry := false
    methAddr := 0
    methIncr := 0
    slotId := i
    sinkSc := sc
    mode := s.shadowMode
    pc := start.toNat }

/-- `execute` up to the run loop (44_mme_sequencer.md R280): the first word is fetched and the macro runs from the next
step on (log 1). -/
def startMacro (start arg : Word) (i : SlotIx) (sc : SubCh) (s : State) : State :=
  match fetchMacro start.toNat (enterMacro start arg i sc s) with
  | .ok w => { enterMacro start arg i sc s with pipeOp := w, pc := start.toNat + 1, phase := .run s.phase.after }
  | .error s' => s'

/-- `trigger` (41_dispatch.md R190): runs the slot's pending start, if any. A macro's own end emits the deferred draws
(`endMacro`). -/
def trigger (i : SlotIx) (sc : SubCh) (s : State) : State :=
  if (s.slot i).executionPending then
    startMacro (s.slot i).startPosition (s.slot i).pendingArgument i sc
      (s.setSlot i { s.slot i with executionPending := false })
  else endCall (s.emit .deferredDraws)

/-- The end of a macro method: the last call of its group triggers (41_dispatch.md R187). -/
def endMacroMethod (i : SlotIx) (sc : SubCh) (remaining : Word) (s : State) : State :=
  if Operands.isLastCall remaining then trigger i sc s else endCall s

/-- An even macro method: start (41_dispatch.md R187, R189). -/
def execMacroStart (sc : SubCh) (m v remaining : Word) (s : State) : Host.Outcome State Fault Refusal :=
  .next (if (s.slot (Operands.slotOf m)).bound then
      endMacroMethod (Operands.slotOf m) sc remaining
        (s.setSlot (Operands.slotOf m)
          { s.slot (Operands.slotOf m) with pendingArgument := v, executionPending := true })
    else s.raise .slotUnbound (Operands.slotOf m).toNat)

/-- An odd macro method: argument push (41_dispatch.md R187, R188). -/
def execMacroArgument (sc : SubCh) (m v remaining : Word) (s : State) : Host.Outcome State Fault Refusal :=
  .next (if (s.slot (Operands.slotOf m)).bound then
      endMacroMethod (Operands.slotOf m) sc remaining
        (s.setSlot (Operands.slotOf m)
          { s.slot (Operands.slotOf m) with argFifo := (s.slot (Operands.slotOf m)).argFifo ++ [v] })
    else s.raise .slotUnbound (Operands.slotOf m).toNat)

end Sys2Proof.Machine
end

