-- ==== Sys2Proof/Machine/QueueEntry.lean ====
section
/-! DEFINITION. The push of one GPFIFO entry by a host producer (40_command_buffer.md R130 to R132). -/

namespace Sys2Proof.Machine

/-- `beforeBarrier` of the call the pushing producer is in (40_command_buffer.md R130). -/
def beforeBarrier (s : State) : Bool :=
  match s.producers[s.pushing]? with
  | some p => p.beforeBarrier
  | none => true

/-- A no-prefetch entry clears `beforeBarrier` for the rest of its call (40_command_buffer.md R130). -/
def clearBarrier (s : State) : State :=
  { s with producers := s.producers.modify s.pushing fun p => { p with beforeBarrier := false } }

/-- The entry's prefetch (40_command_buffer.md R132): fetched at push time if and only if it is prefetchable and no
earlier entry of the call is no-prefetch. A push after a fault changes nothing observable, so it makes no memory
request (60_exceptions.md R301; log 13). -/
def prefetch (noPrefetch : Bool) (b : CommandBuffer) (s : State) : CommandBuffer × State :=
  if beforeBarrier s && !noPrefetch && s.fault.isNone then fetchBuffer b s else (b, s)

/-- The push of one entry (40_command_buffer.md R130). -/
def execQueueEntry (noPrefetch : Bool) (count : BitVec 21) (address : BitVec 38) (s : State) :
    Host.Outcome State Fault Refusal :=
  let r := prefetch noPrefetch (entryBuffer noPrefetch count address) s
  .next ((if noPrefetch then clearBarrier r.2 else r.2).enqueue r.1)

end Sys2Proof.Machine
end

