-- ==== Sys2Proof/Machine/Dispatch.lean ====
section
/-! DEFINITION. The dispatch of every instruction to its meaning, one arm per row of spec/opcode_table.json. -/

namespace Sys2Proof.Machine

/-- The meaning of an instruction. -/
def exec (i : Instr) (s : State) : Host.Outcome State Fault Refusal :=
  match i with
  | .add asg x d a b => Sys2Proof.Machine.execAdd asg x d a b s
  | .addc asg x d a b => Sys2Proof.Machine.execAddc asg x d a b s
  | .sub asg x d a b => Sys2Proof.Machine.execSub asg x d a b s
  | .subb asg x d a b => Sys2Proof.Machine.execSubb asg x d a b s
  | .xor asg x d a b => Sys2Proof.Machine.execXor asg x d a b s
  | .or asg x d a b => Sys2Proof.Machine.execOr asg x d a b s
  | .and asg x d a b => Sys2Proof.Machine.execAnd asg x d a b s
  | .andn asg x d a b => Sys2Proof.Machine.execAndn asg x d a b s
  | .nand asg x d a b => Sys2Proof.Machine.execNand asg x d a b s
  | .reservedAluop4To7 w => Sys2Proof.Machine.execReservedAluop4To7 w s
  | .reservedAluop13 w => Sys2Proof.Machine.execReservedAluop13 w s
  | .reservedAluop14To15 w => Sys2Proof.Machine.execReservedAluop14To15 w s
  | .reservedAluop16To31 w => Sys2Proof.Machine.execReservedAluop16To31 w s
  | .addi asg x d a imm => Sys2Proof.Machine.execAddi asg x d a imm s
  | .bfi asg x d a b srcBit size dstBit => Sys2Proof.Machine.execBfi asg x d a b srcBit size dstBit s
  | .bfeli asg x d a b size dstBit => Sys2Proof.Machine.execBfeli asg x d a b size dstBit s
  | .bfelr asg x d a b srcBit size => Sys2Proof.Machine.execBfelr asg x d a b srcBit size s
  | .read asg x d a imm => Sys2Proof.Machine.execRead asg x d a imm s
  | .reservedOp6 w => Sys2Proof.Machine.execReservedOp6 w s
  | .bz x a imm => Sys2Proof.Machine.execBz x a imm s
  | .bnz x a imm => Sys2Proof.Machine.execBnz x a imm s
  | .bzNd x a imm => Sys2Proof.Machine.execBzNd x a imm s
  | .bnzNd x a imm => Sys2Proof.Machine.execBnzNd x a imm s
  | .load op x d => Sys2Proof.Machine.execLoad op x d s
  | .move op x d => Sys2Proof.Machine.execMove op x d s
  | .movsm op x d => Sys2Proof.Machine.execMovsm op x d s
  | .ldsend op x d => Sys2Proof.Machine.execLdsend op x d s
  | .mvsend op x d => Sys2Proof.Machine.execMvsend op x d s
  | .ldsm op x d => Sys2Proof.Machine.execLdsm op x d s
  | .mvsmldsend op x d => Sys2Proof.Machine.execMvsmldsend op x d s
  | .mvsmsendhi op x d => Sys2Proof.Machine.execMvsmsendhi op x d s
  | .nop => Sys2Proof.Machine.execNop s
  | .exit => Sys2Proof.Machine.execExit s
  | .mov d a => Sys2Proof.Machine.execMov d a s
  | .li d imm => Sys2Proof.Machine.execLi d imm s
  | .parm d => Sys2Proof.Machine.execParm d s
  | .maddr imm => Sys2Proof.Machine.execMaddr imm s
  | .send a => Sys2Proof.Machine.execSend a s
  | .j imm => Sys2Proof.Machine.execJ imm s
  | .jNd imm => Sys2Proof.Machine.execJNd imm s
  | .inc method sc count => Sys2Proof.Machine.execInc method sc count s
  | .noninc method sc count => Sys2Proof.Machine.execNoninc method sc count s
  | .imm method sc arg => Sys2Proof.Machine.execImm method sc arg s
  | .oneinc method sc count => Sys2Proof.Machine.execOneinc method sc count s
  | .reservedMode0 => Sys2Proof.Machine.execReservedMode0 s
  | .reservedMode2 => Sys2Proof.Machine.execReservedMode2 s
  | .reservedMode6 => Sys2Proof.Machine.execReservedMode6 s
  | .reservedMode7 => Sys2Proof.Machine.execReservedMode7 s
  | .data w => Sys2Proof.Machine.execData w s
  | .length count => Sys2Proof.Machine.execLength count s
  | .bindChannel sc cls => Sys2Proof.Machine.execBindChannel sc cls s
  | .waitForIdle v => Sys2Proof.Machine.execWaitForIdle v s
  | .setMacroUploadAddress v => Sys2Proof.Machine.execSetMacroUploadAddress v s
  | .sendMacroCodeData v => Sys2Proof.Machine.execSendMacroCodeData v s
  | .setMacroBindingIndex v => Sys2Proof.Machine.execSetMacroBindingIndex v s
  | .bindMacro v => Sys2Proof.Machine.execBindMacro v s
  | .setMmeShadowRamControl v => Sys2Proof.Machine.execSetMmeShadowRamControl v s
  | .fifoOther method v => Sys2Proof.Machine.execFifoOther method v s
  | .registerMethod sc method v => Sys2Proof.Machine.execRegisterMethod sc method v s
  | .macroStart sc method v remaining => Sys2Proof.Machine.execMacroStart sc method v remaining s
  | .macroArgument sc method v remaining => Sys2Proof.Machine.execMacroArgument sc method v remaining s
  | .queueEntry noPrefetch count address => Sys2Proof.Machine.execQueueEntry noPrefetch count address s

end Sys2Proof.Machine
end

