-- ==== Sys2Proof/WellFormed.lean ====
section
/-! DEFINITION. Which terms of `Instr` are instructions of the machine: the operands lie in the row's range, and a
macro word that several rows of the table describe is written under the one row that the decoder names (log 16). -/

namespace Sys2Proof.Instr

/-- The bits of `w` that the mask selects are those of `m` (a row's mask and match of spec/opcode_table.json). -/
def rowMatches (mask m w : Word) : Bool := w &&& mask == m

/-- The one ALU stage under which an assignment-suffix row names its word: ADD of r0 and r0, the word whose only
non-zero fields are those of the suffix. Any other ALU stage is named by its own row (log 16). -/
def bareSuffix (op : AluOp) : Bool := op == .reg .add 0 0

/-- An ADDI word that a pseudo-instruction of 30_encoding.md R113 names (log 16). -/
def addiIsPseudo (asg : Asg) (x : Bool) (d a : Reg) (im : BitVec 18) : Bool :=
  match asg, x with
  | .move, true => d == 0 && a == 0 && im == 0
  | .move, false => a == 0 || im == 0
  | .load, false => a == 0 && im == 0 && d != 0
  | .movsm, false => d == 0 && a == 0
  | .mvsend, false => d == 0 && im == 0
  | _, _ => false

/-- Well-formed instructions. -/
def wf : Instr → Bool
  | .add asg x d a b => !(a == 0 && b == 0) || (asg == .load && !x && d == 0)
  | .addc _ _ _ _ _ => true
  | .sub _ _ _ _ _ => true
  | .subb _ _ _ _ _ => true
  | .xor _ _ _ _ _ => true
  | .or _ _ _ _ _ => true
  | .and _ _ _ _ _ => true
  | .andn _ _ _ _ _ => true
  | .nand _ _ _ _ _ => true
  | .reservedAluop4To7 w => rowMatches 0x00380007 0x00080000 w
  | .reservedAluop13 w => rowMatches 0x003E0007 0x001A0000 w
  | .reservedAluop14To15 w => rowMatches 0x003C0007 0x001C0000 w
  | .reservedAluop16To31 w => rowMatches 0x00200007 0x00200000 w
  | .addi asg x d a im => !addiIsPseudo asg x d a im
  | .bfi _ _ _ _ _ _ _ _ => true
  | .bfeli _ _ _ _ _ _ _ => true
  | .bfelr _ _ _ _ _ _ _ => true
  | .read _ _ _ _ _ => true
  | .reservedOp6 w => rowMatches 0x00000007 0x00000006 w
  | .bz x a im => x || a != 0 || im == 0
  | .bnz _ _ _ => true
  | .bzNd x a im => x || a != 0 || im == 0
  | .bnzNd _ _ _ => true
  | .load op x d => bareSuffix op && (x || d != 0)
  | .move op _ _ => bareSuffix op
  | .movsm op _ _ => bareSuffix op
  | .ldsend op _ _ => bareSuffix op
  | .mvsend op _ _ => bareSuffix op
  | .ldsm op _ _ => bareSuffix op
  | .mvsmldsend op _ _ => bareSuffix op
  | .mvsmsendhi op _ _ => bareSuffix op
  | .nop => true
  | .exit => true
  | .mov _ a => a != 0
  | .li d im => d != 0 || im != 0
  | .parm d => d != 0
  | .maddr _ => true
  | .send _ => true
  | .j im => im != 0
  | .jNd im => im != 0
  | .inc _ _ _ => true
  | .noninc _ _ _ => true
  | .imm _ _ _ => true
  | .oneinc _ _ _ => true
  | .reservedMode0 => true
  | .reservedMode2 => true
  | .reservedMode6 => true
  | .reservedMode7 => true
  | .data _ => true
  | .length _ => true
  | .bindChannel _ _ => true
  | .waitForIdle _ => true
  | .setMacroUploadAddress _ => true
  | .sendMacroCodeData _ => true
  | .setMacroBindingIndex _ => true
  | .bindMacro _ => true
  | .setMmeShadowRamControl _ => true
  | .fifoOther m _ => decide (0 < m.toNat ∧ m.toNat < Config.fifoMethodCeiling ∧ (m.toNat < 0x44 ∨ 0x49 < m.toNat))
  | .registerMethod _ m _ => decide (Config.fifoMethodCeiling ≤ m.toNat ∧ m.toNat < Config.genericRegCeiling)
  | .macroStart _ m _ _ => decide (Config.genericRegCeiling ≤ m.toNat) && !m.getLsbD 0
  | .macroArgument _ m _ _ => decide (Config.genericRegCeiling ≤ m.toNat) && m.getLsbD 0
  | .queueEntry _ _ _ => true

end Sys2Proof.Instr
end

