-- ==== Sys2Proof/Decode.lean ====
section
/-! DEFINITION. The decoder of the four kinds of binary object (30_encoding.md) and the encoder beside it.
Decoding is total and rejects no word: every word of every kind has a row (60_exceptions.md R300). -/

namespace Sys2Proof

/-- What the block fetches, tagged with the place it is fetched from: the class of an object is decided by the
state before it, not by its bits (30_encoding.md R92). -/
inductive Code where
  /-- a macro instruction word (30_encoding.md R100) -/
  | mme (w : Word)
  /-- a submission header (30_encoding.md R93) -/
  | header (w : Word)
  /-- a data word (30_encoding.md R95) -/
  | data (w : Word)
  /-- a length word (40_command_buffer.md R146) -/
  | length (w : Word)
  /-- a method call, routed by its method number (30_encoding.md R96) -/
  | call (c : MethodCall)
  /-- a GPFIFO entry (30_encoding.md R90) -/
  | entry (e : BitVec 64)
deriving DecidableEq, Repr

namespace Decode

/-! ### Fields -/

/-- The assignment selector (30_encoding.md R106). -/
def asgOf (v : BitVec 3) : Asg :=
  match v.toNat with
  | 0 => .load
  | 1 => .move
  | 2 => .movsm
  | 3 => .ldsend
  | 4 => .mvsend
  | 5 => .ldsm
  | 6 => .mvsmldsend
  | _ => .mvsmsendhi

/-- The value of an assignment selector (30_encoding.md R106). -/
def asgCode : Asg → BitVec 3
  | .load => 0
  | .move => 1
  | .movsm => 2
  | .ldsend => 3
  | .mvsend => 4
  | .ldsm => 5
  | .mvsmldsend => 6
  | .mvsmsendhi => 7

/-- The value of a register-register operation (30_encoding.md R101). -/
def regOpCode : RegOp → BitVec 5
  | .add => 0
  | .addc => 1
  | .sub => 2
  | .subb => 3
  | .xor => 8
  | .or => 9
  | .and => 10
  | .andn => 11
  | .nand => 12

/-- The fields of a macro word (30_encoding.md R100, R103, R104). -/
def opF (w : Word) : BitVec 3 := w.extractLsb' 0 3
def asgF (w : Word) : Asg := asgOf (w.extractLsb' 4 3)
def exitF (w : Word) : Bool := w.getLsbD 7
def dstF (w : Word) : Reg := w.extractLsb' 8 3
def srcAF (w : Word) : Reg := w.extractLsb' 11 3
def srcBF (w : Word) : Reg := w.extractLsb' 14 3
def aluOpF (w : Word) : BitVec 5 := w.extractLsb' 17 5
def srcBitF (w : Word) : BitVec 5 := w.extractLsb' 17 5
def sizeF (w : Word) : BitVec 5 := w.extractLsb' 22 5
def dstBitF (w : Word) : BitVec 5 := w.extractLsb' 27 5
def immF (w : Word) : BitVec 18 := w.extractLsb' 14 18
def nzF (w : Word) : Bool := w.getLsbD 4
def noDelayF (w : Word) : Bool := w.getLsbD 5

/-! ### Names of words that several rows describe -/

/-- The row of a register-register operation. -/
def regInstr (k : RegOp) (asg : Asg) (x : Bool) (d a b : Reg) : Instr :=
  match k with
  | .add => .add asg x d a b
  | .addc => .addc asg x d a b
  | .sub => .sub asg x d a b
  | .subb => .subb asg x d a b
  | .xor => .xor asg x d a b
  | .or => .or asg x d a b
  | .and => .and asg x d a b
  | .andn => .andn asg x d a b
  | .nand => .nand asg x d a b

/-- The operation row of an ALU stage with its assignment. -/
def aluInstr (op : AluOp) (asg : Asg) (x : Bool) (d : Reg) : Instr :=
  match op with
  | .reg k a b => regInstr k asg x d a b
  | .addi a imm => .addi asg x d a imm
  | .bfi a b srcBit size dstBit => .bfi asg x d a b srcBit size dstBit
  | .bfeli a b size dstBit => .bfeli asg x d a b size dstBit
  | .bfelr a b srcBit size => .bfelr asg x d a b srcBit size
  | .read a imm => .read asg x d a imm

/-- The assignment-suffix row of an ALU stage with its assignment. -/
def suffixInstr (op : AluOp) (asg : Asg) (x : Bool) (d : Reg) : Instr :=
  match asg with
  | .load => .load op x d
  | .move => .move op x d
  | .movsm => .movsm op x d
  | .ldsend => .ldsend op x d
  | .mvsend => .mvsend op x d
  | .ldsm => .ldsm op x d
  | .mvsmldsend => .mvsmldsend op x d
  | .mvsmsendhi => .mvsmsendhi op x d

/-- The instruction a row's term stands for, written with the rows of 30_encoding.md R111: a pseudo-instruction's
expansion (R113), a suffix row's operation row, and every other term itself. -/
def core : Instr → Instr
  | .load op x d => aluInstr op .load x d
  | .move op x d => aluInstr op .move x d
  | .movsm op x d => aluInstr op .movsm x d
  | .ldsend op x d => aluInstr op .ldsend x d
  | .mvsend op x d => aluInstr op .mvsend x d
  | .ldsm op x d => aluInstr op .ldsm x d
  | .mvsmldsend op x d => aluInstr op .mvsmldsend x d
  | .mvsmsendhi op x d => aluInstr op .mvsmsendhi x d
  | .nop => .addi .move false 0 0 0
  | .exit => .addi .move true 0 0 0
  | .mov d a => .addi .move false d a 0
  | .li d imm => .addi .move false d 0 imm
  | .parm d => .addi .load false d 0 0
  | .maddr imm => .addi .movsm false 0 0 imm
  | .send a => .addi .mvsend false 0 a 0
  | .j imm => .bz false 0 imm
  | .jNd imm => .bzNd false 0 imm
  | i => i

/-- The pseudo-instruction that names an ADDI word, where 30_encoding.md R113 gives one (log 16). -/
def addiName (asg : Asg) (x : Bool) (d a : Reg) (imm : BitVec 18) : Instr :=
  match asg, x with
  | .move, true => if d = 0 ∧ a = 0 ∧ imm = 0 then .exit else .addi asg x d a imm
  | .move, false =>
    if a = 0 then (if d = 0 ∧ imm = 0 then .nop else .li d imm)
    else if imm = 0 then .mov d a else .addi asg x d a imm
  | .load, false => if a = 0 ∧ imm = 0 ∧ d ≠ 0 then .parm d else .addi asg x d a imm
  | .movsm, false => if d = 0 ∧ a = 0 then .maddr imm else .addi asg x d a imm
  | .mvsend, false => if d = 0 ∧ imm = 0 then .send a else .addi asg x d a imm
  | _, _ => .addi asg x d a imm

/-- The row that names an instruction of 30_encoding.md R111 (log 16): the pseudo-instruction whose word it is, else,
for ADD of r0 and r0, the assignment-suffix row, else its own row. A word whose operand fields are all zero keeps
its own row. -/
def rowName : Instr → Instr
  | .add asg x d a b =>
    if a = 0 ∧ b = 0 ∧ ¬(asg = .load ∧ x = false ∧ d = 0) then suffixInstr (.reg .add 0 0) asg x d
    else .add asg x d a b
  | .addi asg x d a imm => addiName asg x d a imm
  | .bz x a imm => if x = false ∧ a = 0 ∧ imm ≠ 0 then .j imm else .bz x a imm
  | .bzNd x a imm => if x = false ∧ a = 0 ∧ imm ≠ 0 then .jNd imm else .bzNd x a imm
  | i => i

/-! ### Decoding -/

/-- The register-register form, selector 0 (30_encoding.md R101, R111). -/
def decodeReg (w : Word) : Instr :=
  match (aluOpF w).toNat with
  | 0 => .add (asgF w) (exitF w) (dstF w) (srcAF w) (srcBF w)
  | 1 => .addc (asgF w) (exitF w) (dstF w) (srcAF w) (srcBF w)
  | 2 => .sub (asgF w) (exitF w) (dstF w) (srcAF w) (srcBF w)
  | 3 => .subb (asgF w) (exitF w) (dstF w) (srcAF w) (srcBF w)
  | 4 => .reservedAluop4To7 w
  | 5 => .reservedAluop4To7 w
  | 6 => .reservedAluop4To7 w
  | 7 => .reservedAluop4To7 w
  | 8 => .xor (asgF w) (exitF w) (dstF w) (srcAF w) (srcBF w)
  | 9 => .or (asgF w) (exitF w) (dstF w) (srcAF w) (srcBF w)
  | 10 => .and (asgF w) (exitF w) (dstF w) (srcAF w) (srcBF w)
  | 11 => .andn (asgF w) (exitF w) (dstF w) (srcAF w) (srcBF w)
  | 12 => .nand (asgF w) (exitF w) (dstF w) (srcAF w) (srcBF w)
  | 13 => .reservedAluop13 w
  | 14 => .reservedAluop14To15 w
  | 15 => .reservedAluop14To15 w
  | _ => .reservedAluop16To31 w

/-- The branch form, selector 7 (30_encoding.md R104, 92_eei_decisions.md D37). -/
def decodeBranch (w : Word) : Instr :=
  match noDelayF w, nzF w with
  | false, false => .bz (exitF w) (srcAF w) (immF w)
  | false, true => .bnz (exitF w) (srcAF w) (immF w)
  | true, false => .bzNd (exitF w) (srcAF w) (immF w)
  | true, true => .bnzNd (exitF w) (srcAF w) (immF w)

/-- The macro decode procedure of 30_encoding.md R111, total on every word. -/
def decodeMacroCore (w : Word) : Instr :=
  match (opF w).toNat with
  | 0 => decodeReg w
  | 1 => .addi (asgF w) (exitF w) (dstF w) (srcAF w) (immF w)
  | 2 => .bfi (asgF w) (exitF w) (dstF w) (srcAF w) (srcBF w) (srcBitF w) (sizeF w) (dstBitF w)
  | 3 => .bfeli (asgF w) (exitF w) (dstF w) (srcAF w) (srcBF w) (sizeF w) (dstBitF w)
  | 4 => .bfelr (asgF w) (exitF w) (dstF w) (srcAF w) (srcBF w) (srcBitF w) (sizeF w)
  | 5 => .read (asgF w) (exitF w) (dstF w) (srcAF w) (immF w)
  | 6 => .reservedOp6 w
  | _ => decodeBranch w

/-- The macro decoder: 30_encoding.md R111 under the row that names the word. -/
def decodeMacro (w : Word) : Instr := rowName (decodeMacroCore w)

/-- The submission header (30_encoding.md R93, R94). -/
def decodeHeader (w : Word) : Instr :=
  match (w.extractLsb' 29 3).toNat with
  | 0 => .reservedMode0
  | 1 => .inc (w.extractLsb' 0 13) (w.extractLsb' 13 3) (w.extractLsb' 16 13)
  | 2 => .reservedMode2
  | 3 => .noninc (w.extractLsb' 0 13) (w.extractLsb' 13 3) (w.extractLsb' 16 13)
  | 4 => .imm (w.extractLsb' 0 13) (w.extractLsb' 13 3) (w.extractLsb' 16 13)
  | 5 => .oneinc (w.extractLsb' 0 13) (w.extractLsb' 13 3) (w.extractLsb' 16 13)
  | 6 => .reservedMode6
  | _ => .reservedMode7

/-- The FIFO-channel methods (30_encoding.md R98). -/
def decodeFifoMethod (m v : Word) : Instr :=
  match m.toNat with
  | 0x44 => .waitForIdle v
  | 0x45 => .setMacroUploadAddress v
  | 0x46 => .sendMacroCodeData v
  | 0x47 => .setMacroBindingIndex v
  | 0x48 => .bindMacro v
  | 0x49 => .setMmeShadowRamControl v
  | _ => .fifoOther m v

/-- The method classes, in the order of 30_encoding.md R96, with R97 for the macro methods. -/
def decodeCall (c : MethodCall) : Instr :=
  if c.method = 0 then .bindChannel c.subChannel c.argument
  else if c.method.toNat < Config.fifoMethodCeiling then decodeFifoMethod c.method c.argument
  else if c.method.toNat < Config.genericRegCeiling then .registerMethod c.subChannel c.method c.argument
  else if c.method.getLsbD 0 then .macroArgument c.subChannel c.method c.argument c.remainingCount
  else .macroStart c.subChannel c.method c.argument c.remainingCount

/-- The GPFIFO entry (30_encoding.md R90): bits 41:40 and 1:0 are ignored. -/
def decodeEntry (e : BitVec 64) : Instr :=
  .queueEntry (e.getLsbD 63) (e.extractLsb' 42 21) (e.extractLsb' 2 38)

/-- The decoder of every fetched object. -/
def decode : Code → Instr
  | .mme w => decodeMacro w
  | .header w => decodeHeader w
  | .data w => .data w
  | .length w => .length (w.extractLsb' 0 24)
  | .call c => decodeCall c
  | .entry e => decodeEntry e

/-! ### Encoding -/

/-- A register-register word; the bits the encoding ignores are 0 (30_encoding.md R101). -/
def regWord (k : BitVec 5) (asg : Asg) (x : Bool) (d a b : Reg) : Word :=
  0#10 ++ k ++ b ++ a ++ d ++ BitVec.ofBool x ++ asgCode asg ++ 0#1 ++ 0#3

/-- A word of the immediate forms (30_encoding.md R102). -/
def immWord (op : BitVec 3) (asg : Asg) (x : Bool) (d a : Reg) (imm : BitVec 18) : Word :=
  imm ++ a ++ d ++ BitVec.ofBool x ++ asgCode asg ++ 0#1 ++ op

/-- A word of the bitfield forms (30_encoding.md R103). -/
def bitfieldWord (op : BitVec 3) (asg : Asg) (x : Bool) (d a b : Reg) (srcBit size dstBit : BitVec 5) : Word :=
  dstBit ++ size ++ srcBit ++ b ++ a ++ d ++ BitVec.ofBool x ++ asgCode asg ++ 0#1 ++ op

/-- A branch word (30_encoding.md R104). -/
def branchWord (noDelay nz x : Bool) (a : Reg) (imm : BitVec 18) : Word :=
  imm ++ a ++ 0#3 ++ BitVec.ofBool x ++ 0#1 ++ BitVec.ofBool noDelay ++ BitVec.ofBool nz ++ 0#1 ++ 7#3

/-- A submission header (30_encoding.md R93). -/
def headerWord (mode : BitVec 3) (count : BitVec 13) (sc : SubCh) (method : BitVec 13) : Word :=
  mode ++ count ++ sc ++ method

/-- A GPFIFO entry (30_encoding.md R90). -/
def entryWord (noPrefetch : Bool) (count : BitVec 21) (address : BitVec 38) : BitVec 64 :=
  BitVec.ofBool noPrefetch ++ count ++ 0#2 ++ address ++ 0#2

/-- The macro word of an instruction of 30_encoding.md R111; 0 for a term of another class. -/
def encodeMacro : Instr → Word
  | .add asg x d a b => regWord 0 asg x d a b
  | .addc asg x d a b => regWord 1 asg x d a b
  | .sub asg x d a b => regWord 2 asg x d a b
  | .subb asg x d a b => regWord 3 asg x d a b
  | .xor asg x d a b => regWord 8 asg x d a b
  | .or asg x d a b => regWord 9 asg x d a b
  | .and asg x d a b => regWord 10 asg x d a b
  | .andn asg x d a b => regWord 11 asg x d a b
  | .nand asg x d a b => regWord 12 asg x d a b
  | .reservedAluop4To7 w => w
  | .reservedAluop13 w => w
  | .reservedAluop14To15 w => w
  | .reservedAluop16To31 w => w
  | .addi asg x d a imm => immWord 1 asg x d a imm
  | .bfi asg x d a b srcBit size dstBit => bitfieldWord 2 asg x d a b srcBit size dstBit
  | .bfeli asg x d a b size dstBit => bitfieldWord 3 asg x d a b 0 size dstBit
  | .bfelr asg x d a b srcBit size => bitfieldWord 4 asg x d a b srcBit size 0
  | .read asg x d a imm => immWord 5 asg x d a imm
  | .reservedOp6 w => w
  | .bz x a imm => branchWord false false x a imm
  | .bnz x a imm => branchWord false true x a imm
  | .bzNd x a imm => branchWord true false x a imm
  | .bnzNd x a imm => branchWord true true x a imm
  | _ => 0

/-- A method call with the given method number; operands the row ignores are 0. -/
def callOf (method argument : Word) : Code :=
  .call { method := method, argument := argument, subChannel := 0, remainingCount := 0 }

/-- The object a well-formed instruction is written as. -/
def encode : Instr → Code
  | .inc m sc n => .header (headerWord 1 n sc m)
  | .noninc m sc n => .header (headerWord 3 n sc m)
  | .imm m sc v => .header (headerWord 4 v sc m)
  | .oneinc m sc n => .header (headerWord 5 n sc m)
  | .reservedMode0 => .header (headerWord 0 0 0 0)
  | .reservedMode2 => .header (headerWord 2 0 0 0)
  | .reservedMode6 => .header (headerWord 6 0 0 0)
  | .reservedMode7 => .header (headerWord 7 0 0 0)
  | .data w => .data w
  | .length n => .length (0#8 ++ n)
  | .bindChannel sc cls => .call { method := 0, argument := cls, subChannel := sc, remainingCount := 0 }
  | .waitForIdle v => callOf 0x44 v
  | .setMacroUploadAddress v => callOf 0x45 v
  | .sendMacroCodeData v => callOf 0x46 v
  | .setMacroBindingIndex v => callOf 0x47 v
  | .bindMacro v => callOf 0x48 v
  | .setMmeShadowRamControl v => callOf 0x49 v
  | .fifoOther m v => callOf m v
  | .registerMethod sc m v => .call { method := m, argument := v, subChannel := sc, remainingCount := 0 }
  | .macroStart sc m v n => .call { method := m, argument := v, subChannel := sc, remainingCount := n }
  | .macroArgument sc m v n => .call { method := m, argument := v, subChannel := sc, remainingCount := n }
  | .queueEntry np n a => .entry (entryWord np n a)
  | i => .mme (encodeMacro (core i))

/-! ### The opcode table's numbering -/

/-- The full method numbers that have a row of their own with a whole-word match. -/
def isNamedMethod (w : Nat) : Bool := w == 0 || (0x44 ≤ w && w ≤ 0x49)

/-- The class in which an object of the opcode table is read (log 15): 64 bits are a GPFIFO entry; a whole 32-bit
number that is a named method's is a method number; else a word is a macro word where every bit the macro
encoding ignores is 0, and a submission header where not. -/
def tableCode (nbits w : Nat) : Option Code :=
  if nbits = 0 ∨ 64 < nbits ∨ 2 ^ nbits ≤ w then none
  else if 32 < nbits then some (.entry (BitVec.ofNat 64 w))
  else if 24 < nbits ∧ isNamedMethod w then some (callOf (BitVec.ofNat 32 w) 0)
  else if encode (decodeMacro (BitVec.ofNat 32 w)) = .mme (BitVec.ofNat 32 w) then some (.mme (BitVec.ofNat 32 w))
  else some (.header (BitVec.ofNat 32 w))

end Decode

/-- The instruction the decoder reads from an instruction of the opcode table whose bits are `w`. -/
def decodeTableWord (nbits w : Nat) : Option Instr := (Decode.tableCode nbits w).map Decode.decode

end Sys2Proof
end

