-- ==== Sys2Proof/Machine/Fetch.lean ====
section
/-! DEFINITION. Which agent moves next, and the object it fetches: the pusher's word (40_command_buffer.md R137, R139),
the call to route, the macro word with its look-ahead fetch (44_mme_sequencer.md R282), the producer's entry. -/

namespace Sys2Proof.Machine

/-- What a move finds to do. -/
inductive Fetched where
  /-- an object to decode and execute in the given state -/
  | run (c : Code) (s : State)
  /-- a move that executes nothing: its next state -/
  | moved (s : State)
  /-- the processing agent has nothing to do (40_command_buffer.md R148) -/
  | idle
  /-- the processing agent has a recorded fault (60_exceptions.md R301) -/
  | stopped (kind : FaultKind) (info : Int)
  /-- the active buffer has no word at `pos` although `pos < count` (log 20) -/
  | noWord
deriving DecidableEq, Repr

/-! ### The processing agent -/

/-- The class of a command word, decided by the state before it (30_encoding.md R92, 40_command_buffer.md R139). -/
def classify (w : Word) (s : State) : Code :=
  if s.lengthPending then .length w else if s.methodCount ≠ 0 then .data w else .header w

/-- Makes the next queued buffer active, reading it now unless it is resident (40_command_buffer.md R137). -/
def nextBuffer (s : State) : Fetched :=
  match s.queue with
  | [] => .idle
  | b :: q =>
    let r := fetchBuffer b { s with queue := q, pos := 0 }
    .moved { r.2 with cur := some r.1 }

/-- The pusher's move (40_command_buffer.md R137). -/
def pusherFetch (s : State) : Fetched :=
  match s.cur with
  | none => nextBuffer s
  | some b =>
    if s.pos < b.count then
      match b.words.bind (·[s.pos]?) with
      | some w => .run (classify w s) { s with pos := s.pos + 1 }
      | none => .noWord
    else nextBuffer s

/-- The look-ahead fetch of a macro step: it comes first and may fault, leaving `pc` and `pipeOp` as they were
(44_mme_sequencer.md R282, 60_exceptions.md R306). -/
def macroFetch (s : State) : Fetched :=
  match fetchMacro s.pc s with
  | .ok w => .run (.mme s.pipeOp) { s with pipeOp := w, pc := s.pc + 1 }
  | .error s' => .moved s'

/-- The processing agent's move. -/
def agentFetch (s : State) : Fetched :=
  match s.fault with
  | some f => .stopped f.kind f.info
  | none =>
    match s.phase with
    | .pusher => pusherFetch s
    | .call c _ => .run (.call c) s
    | .run _ => macroFetch s
    | .last _ => macroFetch s

/-! ### The host producers -/

/-- Whether a producer has anything left to do. -/
def Producer.busy (p : Producer) : Bool := !(p.entries.isEmpty && p.calls.isEmpty)

/-- The next call of producer `n`, whose record is `p` with no entry left (log 28). -/
def hostCall (n : Nat) (p : Producer) (s : State) : State :=
  match p.calls with
  | [] => s
  | .pushEntries es :: cs =>
    { s with producers := s.producers.set n { entries := es, beforeBarrier := true, calls := cs } }
  | .pushHostCommandBuffer ws :: cs =>
    { s with producers := s.producers.set n { p with calls := cs } }.enqueue (hostBuffer ws)
  | .setMemory a b :: cs =>
    { s with producers := s.producers.set n { p with calls := cs }, gpuMem := Memory.setByte s.gpuMem a b }

/-- Producer `n`'s move: the next entry of the call it is in, or its next call (40_command_buffer.md R130, R133;
each append is atomic, 20_memory.md R71). -/
def hostFetch (n : Nat) (s : State) : Fetched :=
  match s.producers[n]? with
  | none => .moved s
  | some p =>
    match p.entries with
    | e :: es => .run (.entry e) { s with producers := s.producers.set n { p with entries := es }, pushing := n }
    | [] => .moved (hostCall n p s)

/-- The first producer that is not done. -/
def firstBusy : List Producer → Nat → Option Nat
  | [], _ => none
  | p :: ps, n => if p.busy then some n else firstBusy ps (n + 1)

/-! ### Whose move it is -/

/-- With no turn prescribed the processing agent moves while it can, and the producers when it is idle (log 11). -/
def freeFetch (s : State) : Fetched :=
  match agentFetch s with
  | .idle =>
    match firstBusy s.producers 0 with
    | some n => hostFetch n s
    | none => .idle
  | f => f

/-- A prescribed turn is used up, also by an agent that is idle. -/
def turnFetch (s : State) : Fetched :=
  match s.turns with
  | [] => freeFetch s
  | .agent :: ts =>
    match agentFetch { s with turns := ts } with
    | .idle => .moved { s with turns := ts }
    | f => f
  | .producer n :: ts => hostFetch n { s with turns := ts }

/-- Whether the processing agent is inside a pusher step: a call or a macro is not finished and no fault has ended it. -/
def insideStep (s : State) : Bool := s.fault.isNone && s.phase != .pusher

/-- The next move. A pusher step, with its call and the macro inside it, is one transition, so producers move at its
boundaries only (70_reset_and_hazards.md R346, 92_eei_decisions.md D38; log 12). -/
def nextFetch (s : State) : Fetched := if insideStep s then agentFetch s else turnFetch s

/-! ### Placing one object where the next step fetches it -/

/-- A buffer of one resident word. -/
def oneWordBuffer (w : Word) : CommandBuffer := hostBuffer [w]

/-- The state whose next step fetches the object `c` and runs it: no fault recorded, the processing agent (or, for an
entry, a new producer) to move, and the object in its place: the pipeline register of a running macro whose
look-ahead lies in macro code memory, the active buffer of the pusher, the call being dispatched, or the rest of
a producer's call. -/
def placeCode (c : Code) (s : State) : State :=
  match c with
  | .mme w =>
    { s with
      fault := none, phase := .run .immediate, pipeOp := w
      pc := if 0 < s.pc ∧ s.pc.toNat < Config.macroMemWords then s.pc else 1 }
  | .header w =>
    { s with
      fault := none, turns := [], phase := .pusher, cur := some (oneWordBuffer w), pos := 0
      methodCount := 0, lengthPending := false }
  | .data w =>
    { s with
      fault := none, turns := [], phase := .pusher, cur := some (oneWordBuffer w), pos := 0
      methodCount := 1, lengthPending := false }
  | .length w =>
    { s with
      fault := none, turns := [], phase := .pusher, cur := some (oneWordBuffer w), pos := 0, lengthPending := true }
  | .call c => { s with fault := none, phase := .call c .immediate }
  | .entry e =>
    { s with
      fault := none, phase := .pusher
      turns := .producer s.producers.length :: s.turns
      producers := s.producers ++ [{ entries := [e], beforeBarrier := true, calls := [] }] }

end Sys2Proof.Machine
end

