-- ==== Sys2Proof/Machine/Step.lean ====
section
/-! DEFINITION. One step: the next move's object is fetched, decoded and executed. -/

namespace Sys2Proof.Machine

/-- The outcome of a move. An idle step changes nothing (log 2). -/
def runFetched (s : State) : Fetched → Host.Outcome State Fault Refusal
  | .run c s' => exec (Decode.decode c) s'
  | .moved s' => .next s'
  | .idle => .next s
  | .stopped kind info => .fault (.stopped kind info)
  | .noWord => .fault .wordNotResident

/-- One step of the machine. -/
def step (s : State) : Host.Outcome State Fault Refusal := runFetched s (nextFetch s)

/-- `s` with the opcode-table object `w` placed where `step` fetches next, in the class `Decode.tableCode` gives it
(log 15); `s` itself where it gives none. -/
def State.withFetchWord (s : State) (nbits w : Nat) : State :=
  match Decode.tableCode nbits w with
  | some c => placeCode c s
  | none => s

end Sys2Proof.Machine
end

