-- ==== Sys2Proof/Safety.lean ====
section
/-! DEFINITION. The invariant of the machine's runs, and the terms that claims use. -/

namespace Sys2Proof.Safety

open Sys2Proof.Machine

/-! ### The invariant -/

/-- A fetched buffer holds exactly `count` words (10_state.md R21). -/
def BufferWf (b : CommandBuffer) : Prop := ∀ ws, b.words = some ws → ws.length = b.count

/-- A command word whose call is not finished. -/
def dataWordPending (p : Phase) : Prop := p ≠ .pusher ∧ p.after = .dataWord

/-- A macro is running or in its last step. -/
def macroActive (p : Phase) : Prop := ∃ k, p = .run k ∨ p = .last k

/-- What every step keeps. -/
structure StateInv (s : State) : Prop where
  /-- register files and shadow RAMs hold 0xE00 words in canonical form (20_memory.md R61) -/
  regs : ∀ sc, Memory.wordsWf Config.regFileWords (s.sub sc).regs
  shadow : ∀ sc, Memory.wordsWf Config.regFileWords (s.sub sc).shadow
  /-- the FIFO-channel register file holds 0x60 words (10_state.md R27) -/
  fifo : Memory.wordsWf Config.fifoRegWords s.fifoRegs
  /-- macro code memory holds 262144 words (10_state.md R29) -/
  code : Memory.wordsWf Config.macroMemWords s.macroMem
  gpu : Memory.wf s.gpuMem
  /-- x[0] is hard-wired to 0 (10_state.md R32) -/
  zero : s.gprs[0] = 0
  /-- the length-pending flag stays 0 for ever (10_state.md R25) -/
  noLength : s.lengthPending = false
  /-- the method increment is at most 0x3F (10_state.md R36) -/
  incr : s.methIncr.toNat ≤ 0x3F
  /-- a slot that no bind has created is as at reset (10_state.md R30) -/
  unbound : ∀ i, (s.slot i).bound = false → s.slot i = Slot.empty
  /-- buffers hold their count of words, and the active one is resident with `pos` in range (10_state.md R21, R22) -/
  queued : ∀ b ∈ s.queue, BufferWf b
  active : ∀ b, s.cur = some b → BufferWf b ∧ b.words.isSome ∧ s.pos ≤ b.count
  /-- `method` never exceeds 0x3FFE and never wraps (10_state.md R24) -/
  dma : s.method.toNat + s.methodCount.toNat ≤ 0x3FFE
  /-- a data word is counted until its call is finished (40_command_buffer.md R141) -/
  counted : dataWordPending s.phase → s.methodCount ≠ 0
  /-- no step of a macro changes the shadow mode of its start (10_state.md R37) -/
  mode : macroActive s.phase → s.mode = s.shadowMode

/-- Parameters in canonical form. -/
structure ParamsWf (p : Params) : Prop where
  regs : ∀ i : Fin 8, Memory.wordsWf Config.regFileWords p.initRegs[i]
  shadow : ∀ i : Fin 8, Memory.wordsWf Config.regFileWords p.initShadow[i]
  code : Memory.wordsWf Config.macroMemWords p.initMacroMem

/-! ### Terms of the claims -/

/-- A register write would be stored: the index is in the register file and the shadow mode is not reserved
(41_dispatch.md R181). -/
abbrev Writable (s : State) (m : Word) : Prop := m.toNat < Config.regFileWords ∧ s.shadowMode.toNat ≤ 3

/-- The value a register write stores: under Replay the shadow copy (41_dispatch.md R182 to R185). -/
def storedValue (s : State) (sc : SubCh) (m v : Word) : Word :=
  if s.shadowMode.toNat = 3 then s.shadow sc m.toNat else v

/-- The state after a register write that is stored: the register takes the stored value, the shadow RAM takes the
written value in modes 0 and 1, and the write is one event (41_dispatch.md R181 to R185). -/
def written (s : State) (sc : SubCh) (m v : Word) (o : Origin) : State :=
  { s with
    subs := s.subs.set sc.toNat
      { cls := (s.sub sc).cls
        regs := Memory.setWord (s.sub sc).regs m.toNat (storedValue s sc m v)
        shadow := if s.shadowMode.toNat ≤ 1 then Memory.setWord (s.sub sc).shadow m.toNat v else (s.sub sc).shadow }
      sc.isLt
    trace := s.trace ++ [.regWrite sc m (storedValue s sc m v) o] }

/-- The state after a send that is stored: a register write of the sink at the method address, which then advances by
the increment (43_mme_assign.md R254). -/
def sent (s : State) (v : Word) : State :=
  { written s s.sinkSc s.methAddr v .mme with methAddr := s.methAddr + s.methIncr }

/-- The next argument of the running slot and the state without it; 0 and a diagnostic where there is none
(43_mme_assign.md R252). -/
def argument (s : State) : Word := (s.slot s.slotId).argFifo.headD 0

def argumentTaken (s : State) : State :=
  if (s.slot s.slotId).argFifo = [] then { s with trace := s.trace ++ [.diag .argUnderflow s.slotId] }
  else
    { s with
      slots := s.slots.set s.slotId.toNat
        { s.slot s.slotId with argFifo := (s.slot s.slotId).argFifo.tail } s.slotId.isLt }

/-- The state with a method address packed in `v` (43_mme_assign.md R253): bits 11:0 and 17:12. -/
def addressed (s : State) (v : Word) : State :=
  { s with methAddr := BitVec.ofNat 32 (v.toNat % 4096), methIncr := BitVec.ofNat 32 (v.toNat / 4096 % 64) }

/-- What is left of the pusher step of a command word whose call is done (40_command_buffer.md R141, R143). -/
def wordDone (s : State) : State :=
  match s.phase.after with
  | .immediate => { s with phase := .pusher }
  | .dataWord =>
    { s with
      phase := .pusher
      method := if s.nonIncrementing then s.method else s.method + 1
      nonIncrementing := s.nonIncrementing || s.incrementOnce
      methodCount := s.methodCount - 1 }

/-- The state after one executed macro instruction that returned Stop (`true`) or Continue (`false`)
(44_mme_sequencer.md R281, R288; 41_dispatch.md R190). -/
def stepped (stop : Bool) (s : State) : State :=
  match s.phase with
  | .run k => { s with phase := if stop then .last k else .run k }
  | .last _ => wordDone { s with trace := s.trace ++ [.deferredDraws] }
  | _ => s

/-- The state after the trigger of slot `i` with sub-channel `sc` as its sink, where the start position is in macro code
memory: the pending start is consumed, the interpreter is reset and the first word fetched (41_dispatch.md R190,
44_mme_sequencer.md R280). -/
def started (s : State) (i : SlotIx) (sc : SubCh) : State :=
  { s with
    slots := s.slots.set i.toNat { s.slot i with executionPending := false } i.isLt
    gprs := #v[0, (s.slot i).pendingArgument, 0, 0, 0, 0, 0, 0]
    carry := false
    methAddr := 0
    methIncr := 0
    slotId := i
    sinkSc := sc
    mode := s.shadowMode
    pipeOp := s.code (s.slot i).startPosition.toNat
    pc := (s.slot i).startPosition.toNat + 1
    phase := .run s.phase.after }

/-- The same where the start position lies outside macro code memory: the first fetch faults (44_mme_sequencer.md
R291); `pipeOp` and the phase are as before. -/
def startFaulted (s : State) (i : SlotIx) (sc : SubCh) : State :=
  { started s i sc with
    pipeOp := s.pipeOp
    pc := (s.slot i).startPosition.toNat
    phase := s.phase
    fault := some { kind := .macroFetchRange, info := (s.slot i).startPosition.toNat } }

/-- What the last call of a macro-method group does to slot `i` (41_dispatch.md R190). -/
def triggered (s : State) (i : SlotIx) (sc : SubCh) : State :=
  if (s.slot i).executionPending then
    if (s.slot i).startPosition.toNat < 262144 then started s i sc else startFaulted s i sc
  else wordDone { s with trace := s.trace ++ [.deferredDraws] }

/-- The fault a send or register write to index `m` records where it is not `Writable`: the range check comes first
(60_exceptions.md R305). -/
def writeFault (s : State) (m : Word) : FaultRecord :=
  if m.toNat < Config.regFileWords then { kind := .shadowModeReserved, info := s.shadowMode.toNat }
  else { kind := .regWriteRange, info := m.toNat }

/-- The end of a step that sends `v`: the send and the step's end, or the send's fault and nothing after
(43_mme_assign.md R254, 60_exceptions.md R306). -/
def sendEnd (x : Bool) (v : Word) (s : State) : State :=
  if Writable s s.methAddr then stepped x (sent s v) else { s with fault := some (writeFault s s.methAddr) }

/-- The state after the assignment stage of the ALU result `r` into register `d` and the end of the step, from the state
after the ALU stage (43_mme_assign.md R255 to R262). -/
def assigned (asg : Asg) (x : Bool) (d : Reg) (r : Word) (s : State) : State :=
  match asg with
  | .load => stepped x ((argumentTaken s).setGpr d (argument s))
  | .move => stepped x (s.setGpr d r)
  | .movsm => stepped x (addressed (s.setGpr d r) r)
  | .ldsend => sendEnd x r ((argumentTaken s).setGpr d (argument s))
  | .mvsend => sendEnd x r (s.setGpr d r)
  | .ldsm => stepped x (addressed ((argumentTaken s).setGpr d (argument s)) r)
  | .mvsmldsend => sendEnd x (argument s) (argumentTaken (addressed (s.setGpr d r) r))
  | .mvsmsendhi => sendEnd x (BitVec.ofNat 32 (r.toNat / 4096 % 64)) (addressed (s.setGpr d r) r)

/-- At a boundary of pusher steps the processing agent moves next: no fault, and the next turn, if one is prescribed, is
its own, which the move uses up (log 11). -/
abbrev AgentMoves (s : State) : Prop := s.fault = none ∧ (s.turns.head? = none ∨ s.turns.head? = some .agent)

/-- No fault and no turn prescribed: the processing agent moves as long as it has something to do (log 11). -/
abbrev Undisturbed (s : State) : Prop := s.fault = none ∧ s.turns = []

/-- A fetch address in macro code memory (44_mme_sequencer.md R291). -/
abbrev InCode (a : Int) : Prop := 0 ≤ a ∧ a < 262144

/-- The exit flag of the macro word `w` counts: it is set, and `w` is no branch or a branch that is not taken
(44_mme_sequencer.md R283, R284, R285, R289). -/
abbrev ExitCounts (s : State) (w : Word) : Prop :=
  w.getLsbD 7 = true ∧ (w.toNat % 8 = 7 → (s.gpr (w.extractLsb' 11 3) = 0 ↔ w.getLsbD 4 = true))

/-- The rows of macro words: operations, branches, assignment suffixes, pseudo-instructions. -/
def isMacroRow : Instr → Bool
  | .inc _ _ _ | .noninc _ _ _ | .imm _ _ _ | .oneinc _ _ _ => false
  | .reservedMode0 | .reservedMode2 | .reservedMode6 | .reservedMode7 => false
  | .data _ | .length _ => false
  | .bindChannel _ _ | .waitForIdle _ | .setMacroUploadAddress _ | .sendMacroCodeData _ => false
  | .setMacroBindingIndex _ | .bindMacro _ | .setMmeShadowRamControl _ | .fifoOther _ _ => false
  | .registerMethod _ _ _ | .macroStart _ _ _ _ | .macroArgument _ _ _ _ => false
  | .queueEntry _ _ _ => false
  | _ => true

/-- The ALU stage writes the carry: ADD, ADDC, SUB, SUBB (10_state.md R33). -/
def aluWritesCarry : AluOp → Bool
  | .reg .add _ _ | .reg .addc _ _ | .reg .sub _ _ | .reg .subb _ _ => true
  | _ => false

/-- The rows that may change the carry: the four operations, suffix rows over one of them, and a macro method that
starts an execution (10_state.md R33, 44_mme_sequencer.md R280). -/
def mayChangeCarry : Instr → Bool
  | .add _ _ _ _ _ | .addc _ _ _ _ _ | .sub _ _ _ _ _ | .subb _ _ _ _ _ => true
  | .load op _ _ | .move op _ _ | .movsm op _ _ | .ldsend op _ _ => aluWritesCarry op
  | .mvsend op _ _ | .ldsm op _ _ | .mvsmldsend op _ _ | .mvsmsendhi op _ _ => aluWritesCarry op
  | .macroStart _ _ _ _ | .macroArgument _ _ _ _ => true
  | _ => false

end Sys2Proof.Safety
end

