-- ==== Sys2Proof/Certificates/Slice0/Obligations.lean ====
section
/-! DEFINITION. The statements for the provers. Each docstring names the rule of spec/ it formalises, or says that it
rests on a choice of the model and names its log entry. -/

open Sys2Proof Sys2Proof.Machine Sys2Proof.Safety

/-! ### Decoding and encoding -/

/-- Decoding an encoded well-formed instruction of any row gives it back, with every operand at every value
(30_encoding.md). Which row names a word that several rows describe is the model's choice (log 16). -/
def Obligations.DecodingAnEncodedInstructionGivesItBack : Prop :=
  ∀ i : Instr, i.wf = true → Decode.decode (Decode.encode i) = i

/-- The decoder is total and gives only well-formed instructions: reserved words keep to the reserved rows and method
numbers to the range of their row (30_encoding.md R94, R96, R109, R111). -/
def Obligations.DecoderGivesOnlyWellFormedInstructions : Prop :=
  ∀ c : Code, (Decode.decode c).wf = true

/-- A few words written out in 95_test_vectors.md and 70_reset_and_hazards.md R334 decode to what they stand for. -/
def Obligations.WrittenOutWordsDecode : Prop :=
  Decode.decode (.mme 0x00028B10) = .addc .move false 3 1 2 ∧
  Decode.decode (.mme 0x000008B1) = .addi .ldsend true 0 1 0 ∧
  Decode.decode (.mme 0x41088B12) = .bfi .move false 3 1 2 4 4 8 ∧
  Decode.decode (.mme 0xFFFFD017) = .bnz false 2 (-1) ∧
  Decode.decode (.mme 0x00004311) = .li 3 1 ∧
  Decode.decode (.mme 0x00088B10) = .reservedAluop4To7 0x00088B10 ∧
  Decode.decode (.header 0xA0036100) = .oneinc 0x100 3 3 ∧
  Decode.decode (.call ⟨0xE05, 5, 0, 2⟩) = .macroArgument 0 0xE05 5 2 ∧
  Decode.decode (.entry 0x8000080000001000) = .queueEntry true 2 0x400

/-! ### Rows that name the same words -/

/-- Every pseudo-instruction has the effect of the word it expands to (30_encoding.md R113), every assignment-suffix row
the effect of its operation's row with that assignment (42_mme_alu.md R210, 43_mme_assign.md R250), and the row under
which the decoder names a macro word the effect of the instruction that the decode procedure of 30_encoding.md R111
gives. -/
def Obligations.NamedRowsRunAsTheirExpansion : Prop :=
  ∀ s : State, (∀ i : Instr, exec i s = exec (Decode.core i) s) ∧
    (∀ w : Word, exec (Decode.decodeMacro w) s = exec (Decode.decodeMacroCore w) s)

/-! ### A step runs the decoded instruction -/

/-- A macro step executes the word in the pipeline register after fetching the next one, whatever turns are prescribed
(44_mme_sequencer.md R282; log 12). The division of a pusher step into such steps is the model's choice (log 1). -/
def Obligations.MacroStepRunsThePipelineWord : Prop :=
  ∀ (s : State) (k : After) (i : Instr), s.fault = none → (s.phase = .run k ∨ s.phase = .last k) → InCode s.pc →
    Decode.decode (.mme s.pipeOp) = i → i.wf = true →
    step s = exec i { s with pipeOp := s.code s.pc.toNat, pc := s.pc + 1 }

/-- A look-ahead fetch outside macro code memory records MACRO_FETCH_RANGE with the address and changes nothing else,
whatever turns are prescribed (44_mme_sequencer.md R291, 60_exceptions.md R306; log 1, log 12). -/
def Obligations.LookAheadOutsideCodeMemoryFaults : Prop :=
  ∀ (s : State) (k : After), s.fault = none → (s.phase = .run k ∨ s.phase = .last k) → ¬InCode s.pc →
    step s = .next { s with fault := some { kind := .macroFetchRange, info := s.pc } }

/-- A pusher step with a word left consumes exactly that word, in the class the state gives it (40_command_buffer.md
R137, R139). -/
def Obligations.PusherStepConsumesOneWord : Prop :=
  ∀ (s : State) (b : CommandBuffer) (ws : List Word) (w : Word) (i : Instr), AgentMoves s → s.phase = .pusher →
    s.cur = some b → b.words = some ws → s.pos < b.count → ws[s.pos]? = some w →
    Decode.decode (if s.lengthPending then .length w else if s.methodCount = 0 then .header w else .data w) = i →
    i.wf = true →
    step s = exec i { s with pos := s.pos + 1, turns := s.turns.tail }

/-- With the active buffer exhausted the next queued buffer becomes active and is read now unless it is resident
(40_command_buffer.md R134, R135, R137). -/
def Obligations.PusherStepActivatesTheNextBuffer : Prop :=
  ∀ (s : State) (b : CommandBuffer) (q : List CommandBuffer), AgentMoves s → s.phase = .pusher →
    (∀ c, s.cur = some c → c.count ≤ s.pos) → s.queue = b :: q →
    (b.words ≠ none → step s = .next { s with queue := q, cur := some b, pos := 0, turns := s.turns.tail }) ∧
    (b.words = none →
      step s = .next
        { s with
          queue := q
          cur := some { b with words := some (Memory.readWords s.gpuMem s.draws b.address.toNat b.count).1 }
          pos := 0
          turns := s.turns.tail
          trace := s.trace ++ [.memRead b.address (4 * b.count)]
          draws := (Memory.readWords s.gpuMem s.draws b.address.toNat b.count).2 })

/-- A method call that waits to be dispatched is routed to the row of its method number (41_dispatch.md R170), whatever
the prescribed turns are (log 12). -/
def Obligations.CallStepRunsTheRoutedMethod : Prop :=
  ∀ (s : State) (c : MethodCall) (k : After) (i : Instr), s.fault = none → s.phase = .call c k →
    Decode.decode (.call c) = i → i.wf = true → step s = exec i s

/-- A producer's turn pushes the next entry of the call it is in (40_command_buffer.md R130), at a boundary of pusher
steps (70_reset_and_hazards.md R346; log 12), also while the processing agent is stopped (60_exceptions.md R301; log
13). Turns are the model's (log 11). -/
def Obligations.ProducerStepPushesItsNextEntry : Prop :=
  ∀ (s : State) (n : Nat) (p : Producer) (e : BitVec 64) (es : List (BitVec 64)) (ts : List Turn) (i : Instr),
    (s.phase = .pusher ∨ s.fault ≠ none) → s.turns = .producer n :: ts → s.producers[n]? = some p →
    p.entries = e :: es →
    Decode.decode (.entry e) = i → i.wf = true →
    step s = exec i
      { s with turns := ts, producers := s.producers.set n { p with entries := es }, pushing := n }

/-- A producer's turn with no entry left makes its next call: a call of entries starts with prefetching on, a
host-submitted buffer is appended resident with the sentinel address (40_command_buffer.md R130, R133), at a boundary of
pusher steps or after a fault (log 12, log 13). Turns, that each call takes one, the sentinel's value and the change of
memory are the model's choice (log 8, log 10, log 11, log 28). -/
def Obligations.ProducerStepMakesItsNextCall : Prop :=
  ∀ (s t : State) (n : Nat) (p : Producer) (c : HostCall) (cs : List HostCall) (ts : List Turn),
    (s.phase = .pusher ∨ s.fault ≠ none) → s.turns = .producer n :: ts → s.producers[n]? = some p →
    p.entries = [] → p.calls = c :: cs →
    t = { s with turns := ts, producers := s.producers.set n { p with calls := cs } } →
    step s = .next (match c with
      | .pushEntries es =>
        { s with turns := ts, producers := s.producers.set n { entries := es, beforeBarrier := true, calls := cs } }
      | .pushHostCommandBuffer ws =>
        { t with
          queue := s.queue ++
            [{ kind := .prefetchable, address := BitVec.allOnes 64, count := ws.length, words := some ws }] }
      | .setMemory a b => { t with gpuMem := Memory.setByte s.gpuMem a b })

/-- With nothing for the processing agent to do (40_command_buffer.md R148), the first producer with something left
moves; with none, the step changes nothing; a turn prescribed for the agent is used up. All three are the model's
choice (log 2, log 11). -/
def Obligations.IdleAgentLeavesTheStepToTheProducers : Prop :=
  ∀ s : State, s.fault = none → s.phase = .pusher → (∀ c, s.cur = some c → c.count ≤ s.pos) → s.queue = [] →
    (s.turns = [] → (∀ p ∈ s.producers, p.entries = [] ∧ p.calls = []) → step s = .next s) ∧
    (∀ (n : Nat) (p : Producer), s.turns = [] → s.producers[n]? = some p → (p.entries ≠ [] ∨ p.calls ≠ []) →
      (∀ m q, m < n → s.producers[m]? = some q → q.entries = [] ∧ q.calls = []) →
      step s = step { s with turns := [.producer n] }) ∧
    (∀ ts, s.turns = .agent :: ts → step s = .next { s with turns := ts })

/-! ### Operations -/

/-- Register 0 reads 0 and discards writes; a write to another register changes that register only (10_state.md R32). -/
def Obligations.RegisterZeroReadsZeroAndDiscardsWrites : Prop :=
  ∀ (s : State) (d r : Reg) (v : Word),
    s.gpr 0 = 0 ∧ s.setGpr 0 v = s ∧
    (s.setGpr d v).gpr r = (if r = 0 then 0 else if r = d then v else s.gpr r) ∧
    s.setGpr d v = { s with gprs := (s.setGpr d v).gprs }

/-- ADD and ADDC with any assignment: the result is the sum modulo 2^32, the carry is the unsigned carry out
(42_mme_alu.md R212, R213; 43_mme_assign.md R250). -/
def Obligations.AddAndAddcGiveSumAndCarry : Prop :=
  ∀ (s : State) (asg : Asg) (x : Bool) (d a b : Reg),
    exec (.add asg x d a b) s = .next (assigned asg x d (BitVec.ofNat 32 ((s.gpr a).toNat + (s.gpr b).toNat))
      { s with carry := decide (2 ^ 32 ≤ (s.gpr a).toNat + (s.gpr b).toNat) }) ∧
    exec (.addc asg x d a b) s = .next (assigned asg x d
      (BitVec.ofNat 32 ((s.gpr a).toNat + (s.gpr b).toNat + s.carry.toNat))
      { s with carry := decide (2 ^ 32 ≤ (s.gpr a).toNat + (s.gpr b).toNat + s.carry.toNat) })

/-- SUB and SUBB with any assignment: the result is the difference modulo 2^32, the carry is 1 exactly when there is no
borrow; a clear carry is a borrow in (42_mme_alu.md R214, R215; 43_mme_assign.md R250). -/
def Obligations.SubAndSubbGiveDifferenceAndCarry : Prop :=
  ∀ (s : State) (asg : Asg) (x : Bool) (d a b : Reg),
    exec (.sub asg x d a b) s = .next (assigned asg x d (BitVec.ofInt 32 ((s.gpr a).toNat - (s.gpr b).toNat))
      { s with carry := decide ((s.gpr b).toNat ≤ (s.gpr a).toNat) }) ∧
    exec (.subb asg x d a b) s = .next (assigned asg x d
      (BitVec.ofInt 32 ((s.gpr a).toNat - (s.gpr b).toNat - (1 - s.carry.toNat)))
      { s with carry := decide ((s.gpr b).toNat + (1 - s.carry.toNat) ≤ (s.gpr a).toNat) })

/-- ADD of the low words and then ADDC of the high words is 64-bit addition, where the first result is kept in a
register that the second does not read, and ADDC's carry is the 64-bit carry out (42_mme_alu.md R212, R213). -/
def Obligations.AddThenAddcIsSixtyFourBitAddition : Prop :=
  ∀ (s t u : State) (k : After) (d e al ah bl bh : Reg), d ≠ 0 → e ≠ 0 → d ≠ e → d ≠ ah → d ≠ bh →
    s.phase = .run k →
    exec (.add .move false d al bl) s = .next t → exec (.addc .move false e ah bh) t = .next u →
    ((u.gpr e).toNat * 2 ^ 32 + (u.gpr d).toNat) + u.carry.toNat * 2 ^ 64 =
      ((s.gpr ah).toNat * 2 ^ 32 + (s.gpr al).toNat) + ((s.gpr bh).toNat * 2 ^ 32 + (s.gpr bl).toNat)

/-- A 64-bit subtraction is SUB on the low words then SUBB on the high words (42_mme_alu.md R215); the last carry is 1
exactly when the 64-bit difference needs no borrow. -/
def Obligations.SubThenSubbIsSixtyFourBitSubtraction : Prop :=
  ∀ (s t u : State) (k : After) (d e al ah bl bh : Reg), d ≠ 0 → e ≠ 0 → d ≠ e → d ≠ ah → d ≠ bh →
    s.phase = .run k →
    exec (.sub .move false d al bl) s = .next t → exec (.subb .move false e ah bh) t = .next u →
    (((u.gpr e).toNat * 2 ^ 32 + (u.gpr d).toNat : Nat) : Int) =
      ((s.gpr ah).toNat * 2 ^ 32 + (s.gpr al).toNat : Nat) - ((s.gpr bh).toNat * 2 ^ 32 + (s.gpr bl).toNat : Nat) +
        (1 - u.carry.toNat : Int) * 2 ^ 64

/-- XOR, OR, AND, ANDN, NAND with any assignment: the bitwise result, the carry unchanged (42_mme_alu.md R216 to
R220). -/
def Obligations.BitwiseOperationsGiveTheirResult : Prop :=
  ∀ (s : State) (asg : Asg) (x : Bool) (d a b : Reg),
    exec (.xor asg x d a b) s = .next (assigned asg x d (s.gpr a ^^^ s.gpr b) s) ∧
    exec (.or asg x d a b) s = .next (assigned asg x d (s.gpr a ||| s.gpr b) s) ∧
    exec (.and asg x d a b) s = .next (assigned asg x d (s.gpr a &&& s.gpr b) s) ∧
    exec (.andn asg x d a b) s = .next (assigned asg x d (s.gpr a &&& ~~~(s.gpr b)) s) ∧
    exec (.nand asg x d a b) s = .next (assigned asg x d (~~~(s.gpr a &&& s.gpr b)) s)

/-- ADDI with any assignment: the register plus the signed immediate modulo 2^32, no flag (42_mme_alu.md R222). -/
def Obligations.AddiAddsTheSignedImmediate : Prop :=
  ∀ (s : State) (asg : Asg) (x : Bool) (d a : Reg) (v : BitVec 18),
    exec (.addi asg x d a v) s = .next (assigned asg x d (BitVec.ofInt 32 ((s.gpr a).toNat + v.toInt)) s)

/-- BFI with any assignment, bit by bit: bits dstBit to dstBit+size-1 come from the source field, cut at bit 31, the
others stay (42_mme_alu.md R223). -/
def Obligations.BfiReplacesExactlyItsField : Prop :=
  ∀ (s : State) (asg : Asg) (x : Bool) (d a b : Reg) (srcBit size dstBit : BitVec 5),
    ∃ r : Word,
      (∀ n, n < 32 → r.getLsbD n =
        if dstBit.toNat ≤ n ∧ n < dstBit.toNat + size.toNat then (s.gpr b).getLsbD (n - dstBit.toNat + srcBit.toNat)
        else (s.gpr a).getLsbD n) ∧
      exec (.bfi asg x d a b srcBit size dstBit) s = .next (assigned asg x d r s)

/-- BFELI and BFELR with any assignment, bit by bit: the field of b, shifted right and left by the amounts of the form,
of which the register's counts modulo 32, zeros elsewhere (42_mme_alu.md R224, R225). -/
def Obligations.BfeliAndBfelrExtractTheirField : Prop :=
  ∀ (s : State) (asg : Asg) (x : Bool) (d a b : Reg) (srcBit size dstBit : BitVec 5),
    (∃ r : Word,
      (∀ n, n < 32 → r.getLsbD n =
        (decide (dstBit.toNat ≤ n ∧ n < dstBit.toNat + size.toNat) &&
          (s.gpr b).getLsbD (n - dstBit.toNat + (s.gpr a).toNat % 32))) ∧
      exec (.bfeli asg x d a b size dstBit) s = .next (assigned asg x d r s)) ∧
    (∃ r : Word,
      (∀ n, n < 32 → r.getLsbD n =
        (decide ((s.gpr a).toNat % 32 ≤ n ∧ n < (s.gpr a).toNat % 32 + size.toNat) &&
          (s.gpr b).getLsbD (n - (s.gpr a).toNat % 32 + srcBit.toNat))) ∧
      exec (.bfelr asg x d a b srcBit size) s = .next (assigned asg x d r s))

/-- READ with any assignment takes the sink's register at index a + imm modulo 2^32; an index outside the register file
records REG_READ_RANGE and changes nothing else (42_mme_alu.md R226, 41_dispatch.md R180). -/
def Obligations.ReadTakesTheSinkRegisterOrFaults : Prop :=
  ∀ (s : State) (asg : Asg) (x : Bool) (d a : Reg) (v : BitVec 18) (m : Word),
    m = BitVec.ofInt 32 ((s.gpr a).toNat + v.toInt) →
    (m.toNat < 0xE00 → exec (.read asg x d a v) s = .next (assigned asg x d (s.reg s.sinkSc m.toNat) s)) ∧
    (0xE00 ≤ m.toNat → exec (.read asg x d a v) s =
      .next { s with fault := some { kind := .regReadRange, info := m.toNat } })

/-- The reserved selector and the reserved sub-operations record ALU_RESERVED with the word and change nothing else; so
does every word that has one (42_mme_alu.md R221, R227). -/
def Obligations.ReservedOperationsFaultWithTheirWord : Prop :=
  ∀ (s : State) (w : Word) (k : Nat) (t : State), k = w.toNat / 2 ^ 17 % 32 →
    t = { s with fault := some { kind := .aluReserved, info := w.toNat } } →
    (exec (.reservedAluop4To7 w) s = .next t ∧ exec (.reservedAluop13 w) s = .next t ∧
      exec (.reservedAluop14To15 w) s = .next t ∧ exec (.reservedAluop16To31 w) s = .next t ∧
      exec (.reservedOp6 w) s = .next t) ∧
    (w.toNat % 8 = 6 ∨ w.toNat % 8 = 0 ∧ (4 ≤ k ∧ k ≤ 7 ∨ 13 ≤ k) → exec (Decode.decode (.mme w)) s = .next t)

/-! ### Assignment suffixes, over any ALU stage that answers a result -/

/-- LOAD and LDSM take the next argument into the destination, or 0 with a diagnostic from an empty FIFO; LDSM then sets
the method address from the result (43_mme_assign.md R252, R253, R255, R260). -/
def Obligations.LoadAndLdsmTakeTheNextArgument : Prop :=
  ∀ (op : AluOp) (x : Bool) (d : Reg) (s s' : State) (r : Word), aluStage op s = .ok (r, s') →
    exec (.load op x d) s = .next (stepped x ((argumentTaken s').setGpr d (argument s'))) ∧
    exec (.ldsm op x d) s = .next (stepped x (addressed ((argumentTaken s').setGpr d (argument s')) r))

/-- MOVE and MOVSM put the result into the destination; MOVSM then sets the method address from it (43_mme_assign.md
R253, R256, R257). -/
def Obligations.MoveAndMovsmKeepTheResult : Prop :=
  ∀ (op : AluOp) (x : Bool) (d : Reg) (s s' : State) (r : Word), aluStage op s = .ok (r, s') →
    exec (.move op x d) s = .next (stepped x (s'.setGpr d r)) ∧
    exec (.movsm op x d) s = .next (stepped x (addressed (s'.setGpr d r) r))

/-- MVSEND and LDSEND send the result to the method address (43_mme_assign.md R254, R258, R259). -/
def Obligations.MvsendAndLdsendSendTheResult : Prop :=
  ∀ (op : AluOp) (x : Bool) (d : Reg) (s s' : State) (r : Word), aluStage op s = .ok (r, s') → Writable s' s'.methAddr →
    exec (.mvsend op x d) s = .next (stepped x (sent (s'.setGpr d r) r)) ∧
    exec (.ldsend op x d) s = .next (stepped x (sent ((argumentTaken s').setGpr d (argument s')) r))

/-- MVSMLDSEND and MVSMSENDHI set the method address from the result and send there the next argument, or bits 17:12 of
the result (43_mme_assign.md R254, R261, R262). -/
def Obligations.MvsmldsendAndMvsmsendhiSendToTheNewAddress : Prop :=
  ∀ (op : AluOp) (x : Bool) (d : Reg) (s s' : State) (r : Word), aluStage op s = .ok (r, s') →
    Writable s' (BitVec.ofNat 32 (r.toNat % 4096)) →
    exec (.mvsmldsend op x d) s =
      .next (stepped x (sent (argumentTaken (addressed (s'.setGpr d r) r)) (argument s'))) ∧
    exec (.mvsmsendhi op x d) s =
      .next (stepped x (sent (addressed (s'.setGpr d r) r) (BitVec.ofNat 32 (r.toNat / 4096 % 64))))

/-- A send outside the register file or under a reserved shadow mode records its fault, with the destination, the
method address and the argument already changed as their rules say, and nothing after (43_mme_assign.md R254,
60_exceptions.md R305, R306). -/
def Obligations.SendFaultsKeepEarlierEffects : Prop :=
  ∀ (op : AluOp) (x : Bool) (d : Reg) (s s' : State) (r : Word), aluStage op s = .ok (r, s') →
    (¬Writable s' s'.methAddr →
      exec (.mvsend op x d) s = .next { s'.setGpr d r with fault := some (writeFault s' s'.methAddr) } ∧
      exec (.ldsend op x d) s =
        .next { (argumentTaken s').setGpr d (argument s') with fault := some (writeFault s' s'.methAddr) }) ∧
    (¬Writable s' (BitVec.ofNat 32 (r.toNat % 4096)) →
      exec (.mvsmldsend op x d) s =
        .next { argumentTaken (addressed (s'.setGpr d r) r) with
          fault := some (writeFault s' (BitVec.ofNat 32 (r.toNat % 4096))) } ∧
      exec (.mvsmsendhi op x d) s =
        .next { addressed (s'.setGpr d r) r with
          fault := some (writeFault s' (BitVec.ofNat 32 (r.toNat % 4096))) })

/-! ### Branches, exit, pseudo-instructions -/

/-- A taken branch with a delay slot sets the fetch pointer to its own address plus the offset and changes nothing else,
whatever its exit flag (44_mme_sequencer.md R284, R286, R289). The instruction's own address is `pc - 2` once the
look-ahead has advanced `pc`. -/
def Obligations.TakenDelayedBranchesSetTheFetchPointer : Prop :=
  ∀ (s t : State) (x : Bool) (a : Reg) (v : BitVec 18), t = stepped false { s with pc := s.pc - 2 + v.toInt } →
    (s.gpr a = 0 → exec (.bz x a v) s = .next t) ∧ (s.gpr a ≠ 0 → exec (.bnz x a v) s = .next t) ∧
    exec (.j v) s = .next t

/-- A taken branch without a delay slot fetches its target at once, whatever its exit flag, or records
MACRO_FETCH_RANGE with the target (44_mme_sequencer.md R284, R287, R289, R291). -/
def Obligations.TakenNoDelayBranchesFetchTheirTarget : Prop :=
  ∀ (s t : State) (x : Bool) (a : Reg) (v : BitVec 18) (target : Int), target = s.pc - 2 + v.toInt →
    t = (if 0 ≤ target ∧ target < 262144 then
        stepped false { s with pc := target + 1, pipeOp := s.code target.toNat }
      else { s with pc := target, fault := some { kind := .macroFetchRange, info := target } }) →
    (s.gpr a = 0 → exec (.bzNd x a v) s = .next t) ∧ (s.gpr a ≠ 0 → exec (.bnzNd x a v) s = .next t) ∧
    exec (.jNd v) s = .next t

/-- A branch that is not taken changes nothing and honours its exit flag (44_mme_sequencer.md R285). -/
def Obligations.UntakenBranchesHonourTheirExitFlag : Prop :=
  ∀ (s : State) (x : Bool) (a : Reg) (v : BitVec 18),
    (s.gpr a ≠ 0 → exec (.bz x a v) s = .next (stepped x s) ∧ exec (.bzNd x a v) s = .next (stepped x s)) ∧
    (s.gpr a = 0 → exec (.bnz x a v) s = .next (stepped x s) ∧ exec (.bnzNd x a v) s = .next (stepped x s))

/-- Two steps of a taken branch with a delay slot, BZ (also as J) or BNZ: the first leaves the word after the branch in
the pipeline register and the target in `pc`, the second executes that word and fetches the target
(44_mme_sequencer.md R286). The division into steps is the model's choice (log 1). -/
def Obligations.DelaySlotRunsBeforeTheTarget : Prop :=
  ∀ (s : State) (k : After) (x : Bool) (a : Reg) (v : BitVec 18), s.fault = none → s.phase = .run k → InCode s.pc →
    (Decode.decodeMacroCore s.pipeOp = .bz x a v ∧ s.gpr a = 0 ∨
      Decode.decodeMacroCore s.pipeOp = .bnz x a v ∧ s.gpr a ≠ 0) →
    InCode (s.pc - 1 + v.toInt) →
    step s = .next { s with pipeOp := s.code s.pc.toNat, pc := s.pc - 1 + v.toInt } ∧
    step { s with pipeOp := s.code s.pc.toNat, pc := s.pc - 1 + v.toInt } =
      exec (Decode.decode (.mme (s.code s.pc.toNat)))
        { s with pipeOp := s.code (s.pc - 1 + v.toInt).toNat, pc := s.pc - 1 + v.toInt + 1 }

/-- After any word whose exit flag counts, exactly one more word is executed, the word after it, whatever it is; then
the execution is over and the deferred draws are emitted, unless one of the two words faults (44_mme_sequencer.md R281,
R283, R288; 41_dispatch.md R190). The first clause is the step of the exiting word and the step after it, the second the
end of any last word, the third EXIT and NOP with the whole state. The division into steps is the model's choice
(log 1). -/
def Obligations.ExitRunsOneMoreWordThenEnds : Prop :=
  (∀ (s t : State) (k : After), s.fault = none → s.phase = .run k → InCode s.pc → ExitCounts s s.pipeOp →
    step s = .next t → t.fault = none →
    t.phase = .last k ∧ t.pc = s.pc + 1 ∧ t.pipeOp = s.code s.pc.toNat ∧
    (InCode (s.pc + 1) → step t = exec (Decode.decode (.mme (s.code s.pc.toNat)))
      { t with pipeOp := s.code (s.pc + 1).toNat, pc := s.pc + 2 })) ∧
  (∀ (s t : State) (k : After) (i : Instr), s.phase = .last k → isMacroRow i = true → exec i s = .next t →
    t.fault = none → t.phase = .pusher ∧ ∃ es, t.trace = s.trace ++ es ++ [.deferredDraws]) ∧
  (∀ (s : State) (k : After), s.fault = none → s.phase = .run k → InCode s.pc → InCode (s.pc + 1) →
    s.pipeOp = 0x91 → s.code s.pc.toNat = 0x11 →
    core.run 2 s = .next (wordDone
      { s with
        pipeOp := s.code (s.pc + 1).toNat, pc := s.pc + 2, trace := s.trace ++ [.deferredDraws] }))

/-- NOP, EXIT, MOV, LI, PARM, MADDR, and SEND where its write is stored: the effect of the words they expand to; only
EXIT stops (30_encoding.md R113, 43_mme_assign.md R252 to R254). -/
def Obligations.PseudoInstructionsHaveTheirEffects : Prop :=
  ∀ (s : State) (d a : Reg) (v : BitVec 18),
    exec .nop s = .next (stepped false s) ∧
    exec .exit s = .next (stepped true s) ∧
    exec (.mov d a) s = .next (stepped false (s.setGpr d (s.gpr a))) ∧
    exec (.li d v) s = .next (stepped false (s.setGpr d (BitVec.ofInt 32 v.toInt))) ∧
    exec (.parm d) s = .next (stepped false ((argumentTaken s).setGpr d (argument s))) ∧
    exec (.maddr v) s = .next (stepped false (addressed s (BitVec.ofInt 32 v.toInt))) ∧
    (Writable s s.methAddr → exec (.send a) s = .next (stepped false (sent s (s.gpr a))))

/-! ### Command words -/

/-- INC, NONINC and ONEINC load the DmaState and emit no call (40_command_buffer.md R140, R142, R144). -/
def Obligations.CountHeadersLoadTheDmaState : Prop :=
  ∀ (s t : State) (m : BitVec 13) (sc : SubCh) (n : BitVec 13),
    t = { s with method := BitVec.ofNat 32 m.toNat, subChannel := sc, methodCount := BitVec.ofNat 32 n.toNat } →
    exec (.inc m sc n) s = .next { t with nonIncrementing := false, incrementOnce := false } ∧
    exec (.noninc m sc n) s = .next { t with nonIncrementing := true, incrementOnce := false } ∧
    exec (.oneinc m sc n) s = .next { t with nonIncrementing := false, incrementOnce := true }

/-- IMM makes one call with its inline argument and the method count it finds (40_command_buffer.md R143). That the call
waits in `phase` is the model's choice (log 1). -/
def Obligations.ImmediateHeaderMakesItsCall : Prop :=
  ∀ (s : State) (m : BitVec 13) (sc : SubCh) (v : BitVec 13),
    exec (.imm m sc v) s = .next
      { s with
        method := BitVec.ofNat 32 m.toNat, subChannel := sc, nonIncrementing := true, incrementOnce := false
        phase := .call
          { method := BitVec.ofNat 32 m.toNat, argument := BitVec.ofNat 32 v.toNat, subChannel := sc
            remainingCount := s.methodCount } .immediate }

/-- A header word of a reserved mode is consumed with no call and changes nothing else (40_command_buffer.md R145). That
the step also uses up a prescribed turn is the model's choice (log 11). -/
def Obligations.ReservedHeadersChangeNothing : Prop :=
  (∀ s : State, exec .reservedMode0 s = .next s ∧ exec .reservedMode2 s = .next s ∧
    exec .reservedMode6 s = .next s ∧ exec .reservedMode7 s = .next s) ∧
  (∀ (s : State) (b : CommandBuffer) (ws : List Word) (w : Word), AgentMoves s → s.phase = .pusher →
    s.cur = some b → b.words = some ws → s.pos < b.count → ws[s.pos]? = some w → s.lengthPending = false →
    s.methodCount = 0 → w.toNat / 2 ^ 29 ∈ [0, 2, 6, 7] →
      step s = .next { s with pos := s.pos + 1, turns := s.turns.tail })

/-- A data word makes the call of the current method with itself as argument and the count before the decrement; a
length word loads the count (40_command_buffer.md R141, R146). That the call waits in `phase` is the model's choice
(log 1). -/
def Obligations.DataAndLengthWords : Prop :=
  ∀ (s : State) (w : Word) (n : BitVec 24),
    exec (.data w) s = .next
      { s with
        phase :=
          .call { method := s.method, argument := w, subChannel := s.subChannel, remainingCount := s.methodCount }
            .dataWord } ∧
    exec (.length n) s = .next { s with lengthPending := false, methodCount := BitVec.ofNat 32 n.toNat }

/-- The data words of an INC or NONINC header, sent to register methods, in every shadow mode that is not reserved: two
model steps a word (log 1, undisturbed by producers: log 11), one stored write a word with methods rising by one or
constant, the count run down to 0. Afterwards each written register holds its word's stored value, for NONINC the last
word's, and every other register what it held (40_command_buffer.md R141, R151; 41_dispatch.md R181, R186). -/
def Obligations.DataWordsWriteTheirRegistersInOrder : Prop :=
  ∀ (ws : List Word) (s : State) (b : CommandBuffer) (all rest : List Word) (target : Nat → Word),
    Undisturbed s → s.phase = .pusher → s.lengthPending = false →
    s.cur = some b → b.words = some all → b.count = all.length → all.drop s.pos = ws ++ rest →
    s.methodCount.toNat = ws.length → s.incrementOnce = false → s.shadowMode.toNat ≤ 3 →
    0x60 ≤ s.method.toNat → s.method.toNat + (if s.nonIncrementing then 1 else ws.length) ≤ 0xE00 →
    Memory.rising (s.sub s.subChannel).regs →
    (∀ i, target i = if s.nonIncrementing then s.method else s.method + BitVec.ofNat 32 i) →
    ∃ t : State, core.run (2 * ws.length) s = .next t ∧ t.phase = .pusher ∧ t.methodCount = 0 ∧
      t.pos = s.pos + ws.length ∧ t.method = target ws.length ∧
      t.trace = s.trace ++ ws.zipIdx.map (fun p =>
        .regWrite s.subChannel (target p.2) (storedValue s s.subChannel (target p.2) p.1) .pusher) ∧
      (∀ i w, ws[i]? = some w → (s.nonIncrementing = false ∨ i + 1 = ws.length) →
        t.reg s.subChannel (target i).toNat = storedValue s s.subChannel (target i) w) ∧
      (∀ sc m, (sc ≠ s.subChannel ∨ ∀ i, i < ws.length → (target i).toNat ≠ m) → t.reg sc m = s.reg sc m)

/-! ### Methods -/

/-- A call of method 0 is a bind; it sets its sub-channel's class, emits Bind and changes nothing else, whatever the
remaining count (41_dispatch.md R172). -/
def Obligations.BindChannelSetsTheClass : Prop :=
  ∀ (s : State) (sc : SubCh) (cls n : Word),
    Decode.decode (.call { method := 0, argument := cls, subChannel := sc, remainingCount := n }) =
      .bindChannel sc cls ∧
    exec (.bindChannel sc cls) s = .next (wordDone
      { s with
        subs := s.subs.set sc.toNat { s.sub sc with cls := cls } sc.isLt
        trace := s.trace ++ [.bind sc cls] })

/-- Calls of methods 0x44, 0x45, 0x47, 0x49 and of every unnamed method below 0x60 are FIFO-channel writes: each stores
its argument and emits FifoWrite; 0x45, 0x47 and 0x49 also set their control register, the others do nothing more
(41_dispatch.md R174, R176, R178, R179). -/
def Obligations.FifoChannelWritesStoreAndSet : Prop :=
  ∀ (s : State) (sc : SubCh) (m v n : Word) (c : Word → Code) (f : Word → State),
    (∀ k, c k = .call { method := k, argument := v, subChannel := sc, remainingCount := n }) →
    (∀ k, f k = { s with
      fifoRegs := Memory.setWord s.fifoRegs k.toNat v, trace := s.trace ++ [.fifoWrite k v] }) →
    (Decode.decode (c 0x44) = .waitForIdle v ∧ exec (.waitForIdle v) s = .next (wordDone (f 0x44))) ∧
    (Decode.decode (c 0x45) = .setMacroUploadAddress v ∧
      exec (.setMacroUploadAddress v) s = .next (wordDone { f 0x45 with uploadAddr := v })) ∧
    (Decode.decode (c 0x47) = .setMacroBindingIndex v ∧
      exec (.setMacroBindingIndex v) s = .next (wordDone { f 0x47 with bindIndex := v })) ∧
    (Decode.decode (c 0x49) = .setMmeShadowRamControl v ∧
      exec (.setMmeShadowRamControl v) s = .next (wordDone { f 0x49 with shadowMode := v })) ∧
    (0 < m.toNat → m.toNat < 0x60 → (m.toNat < 0x44 ∨ 0x49 < m.toNat) → Decode.decode (c m) = .fifoOther m v) ∧
    exec (.fifoOther m v) s = .next (wordDone (f m))

/-- A call of method 0x46 is a code upload: it stores the word at `uploadAddr`, no other, and advances it; outside macro
code memory it records UPLOAD_RANGE after its FIFO-channel write (41_dispatch.md R175). -/
def Obligations.CodeUploadStoresOneWord : Prop :=
  ∀ (s : State) (sc : SubCh) (v n : Word), Memory.rising s.macroMem →
    Decode.decode (.call { method := 0x46, argument := v, subChannel := sc, remainingCount := n }) =
      .sendMacroCodeData v ∧
    (s.uploadAddr.toNat < 262144 → ∃ mem : WordMap,
      (∀ a, Memory.wordAt mem a = if a = s.uploadAddr.toNat then v else s.code a) ∧
      exec (.sendMacroCodeData v) s = .next (wordDone
        { s with
          fifoRegs := Memory.setWord s.fifoRegs 0x46 v, trace := s.trace ++ [.fifoWrite 0x46 v]
          macroMem := mem, uploadAddr := s.uploadAddr + 1 })) ∧
    (262144 ≤ s.uploadAddr.toNat → exec (.sendMacroCodeData v) s = .next
      { s with
        fifoRegs := Memory.setWord s.fifoRegs 0x46 v, trace := s.trace ++ [.fifoWrite 0x46 v]
        fault := some { kind := .uploadRange, info := s.uploadAddr.toNat } })

/-- A call of method 0x48 is a bind: it recreates the slot `bindIndex` with the start position and nothing pending, and
advances the index where the parameter says so; with an index above 127 it records BIND_INDEX_RANGE after its
FIFO-channel write (41_dispatch.md R177). -/
def Obligations.BindMacroRecreatesTheSlot : Prop :=
  ∀ (s f : State) (sc : SubCh) (v n : Word),
    f = { s with fifoRegs := Memory.setWord s.fifoRegs 0x48 v, trace := s.trace ++ [.fifoWrite 0x48 v] } →
    Decode.decode (.call { method := 0x48, argument := v, subChannel := sc, remainingCount := n }) = .bindMacro v ∧
    (∀ h : s.bindIndex.toNat < 128, exec (.bindMacro v) s = .next (wordDone
      { f with
        slots := s.slots.set s.bindIndex.toNat
          { bound := true, startPosition := v, pendingArgument := 0, executionPending := false, argFifo := [] } h
        bindIndex := if s.bindIndexAutoinc then s.bindIndex + 1 else s.bindIndex })) ∧
    (128 ≤ s.bindIndex.toNat → exec (.bindMacro v) s =
      .next { f with fault := some { kind := .bindIndexRange, info := s.bindIndex.toNat } })

/-- A call of a method from 0x60 up to 0xDFF is a register write of its sub-channel, whatever the remaining count: a
stored write, or the fault of a reserved shadow mode (41_dispatch.md R186). -/
def Obligations.RegisterMethodWritesItsRegister : Prop :=
  ∀ (s : State) (sc : SubCh) (m v n : Word), 0x60 ≤ m.toNat → m.toNat < 0xE00 →
    Decode.decode (.call { method := m, argument := v, subChannel := sc, remainingCount := n }) =
      .registerMethod sc m v ∧
    (s.shadowMode.toNat ≤ 3 → exec (.registerMethod sc m v) s = .next (wordDone (written s sc m v .pusher))) ∧
    (3 < s.shadowMode.toNat → exec (.registerMethod sc m v) s =
      .next { s with fault := some { kind := .shadowModeReserved, info := s.shadowMode.toNat } })

/-- What a register method leaves to read, in each shadow mode: register and shadow copy at its index, its event's
value, and every other word of every sub-channel as before (41_dispatch.md R182 to R185; what it says of mode 1 holds
for R183's own reading, log 17). -/
def Obligations.StoredWriteReadsBackInEveryMode : Prop :=
  ∀ (s : State) (sc sc' : SubCh) (m v stored : Word) (k : Nat),
    Memory.rising (s.sub sc).regs → Memory.rising (s.sub sc).shadow → 0x60 ≤ m.toNat → m.toNat < 0xE00 →
    s.shadowMode.toNat ≤ 3 → stored = (if s.shadowMode = 3 then s.shadow sc m.toNat else v) →
    ∃ t : State, exec (.registerMethod sc m v) s = .next t ∧
      t.reg sc' k = (if sc' = sc ∧ k = m.toNat then stored else s.reg sc' k) ∧
      t.shadow sc' k =
        (if sc' = sc ∧ k = m.toNat ∧ (s.shadowMode = 0 ∨ s.shadowMode = 1) then v else s.shadow sc' k) ∧
      t.trace = s.trace ++ [.regWrite sc m stored .pusher]

/-- An odd macro method appends its argument to the slot's FIFO; the last call of its group triggers the slot
(41_dispatch.md R187, R188, R190). -/
def Obligations.MacroArgumentAppendsAndTriggersOnTheLastCall : Prop :=
  ∀ (s f : State) (i : SlotIx) (sc : SubCh) (m v n : Word), i = BitVec.ofNat 7 (m.toNat / 2) →
    (s.slot i).bound = true →
    f = { s with slots := s.slots.set i.toNat { s.slot i with argFifo := (s.slot i).argFifo ++ [v] } i.isLt } →
    (1 < n.toNat → exec (.macroArgument sc m v n) s = .next (wordDone f)) ∧
    (n.toNat ≤ 1 → exec (.macroArgument sc m v n) s = .next (triggered f i sc))

/-- An even macro method makes the slot pending with its argument, the last write winning; the last call of its group
triggers the slot, which then is always pending (41_dispatch.md R187, R189, R190; 44_mme_sequencer.md R280, R291). -/
def Obligations.MacroStartMakesPendingAndTriggersOnTheLastCall : Prop :=
  ∀ (s f : State) (i : SlotIx) (sc : SubCh) (m v n : Word), i = BitVec.ofNat 7 (m.toNat / 2) →
    (s.slot i).bound = true →
    f = { s with
      slots := s.slots.set i.toNat { s.slot i with pendingArgument := v, executionPending := true } i.isLt } →
    (1 < n.toNat → exec (.macroStart sc m v n) s = .next (wordDone f)) ∧
    (n.toNat ≤ 1 → (s.slot i).startPosition.toNat < 262144 →
      exec (.macroStart sc m v n) s = .next (started f i sc)) ∧
    (n.toNat ≤ 1 → 262144 ≤ (s.slot i).startPosition.toNat →
      exec (.macroStart sc m v n) s = .next (startFaulted f i sc))

/-- A macro method to a slot never bound records SLOT_UNBOUND with the slot and changes nothing else (41_dispatch.md
R187). -/
def Obligations.MacroMethodToAnUnboundSlotFaults : Prop :=
  ∀ (s t : State) (i : SlotIx) (sc : SubCh) (m v n : Word), i = BitVec.ofNat 7 (m.toNat / 2) →
    (s.slot i).bound = false → t = { s with fault := some { kind := .slotUnbound, info := i.toNat } } →
    exec (.macroArgument sc m v n) s = .next t ∧ exec (.macroStart sc m v n) s = .next t

/-! ### GPFIFO entries and buffers -/

/-- The push of one entry: decoded, read now if it is prefetchable and no earlier entry of the call is no-prefetch, and
appended; a no-prefetch entry ends prefetching for its call (40_command_buffer.md R130 to R132, R135). After a fault the
push appends and asks nothing of memory (60_exceptions.md R301; log 13). -/
def Obligations.EntryPushDecodesPrefetchesAndAppends : Prop :=
  ∀ (s : State) (p : Producer) (n : BitVec 21) (a : BitVec 38) (adr : BitVec 64),
    s.producers[s.pushing]? = some p → adr = BitVec.ofNat 64 (4 * a.toNat) →
    (p.beforeBarrier = true ∧ s.fault = none → exec (.queueEntry false n a) s = .next
      { s with
        queue := s.queue ++ [{ kind := .prefetchable, address := adr, count := n.toNat
                               words := some (Memory.readWords s.gpuMem s.draws adr.toNat n.toNat).1 }]
        trace := s.trace ++ [.memRead adr (4 * n.toNat)]
        draws := (Memory.readWords s.gpuMem s.draws adr.toNat n.toNat).2 }) ∧
    (p.beforeBarrier = false ∨ s.fault ≠ none → exec (.queueEntry false n a) s = .next
      { s with
        queue := s.queue ++ [{ kind := .prefetchable, address := adr, count := n.toNat, words := none }] }) ∧
    exec (.queueEntry true n a) s = .next
      { s with
        queue := s.queue ++ [{ kind := .noPrefetch, address := adr, count := n.toNat, words := none }]
        producers := s.producers.set s.pushing { p with beforeBarrier := false } }

/-- Words read from mapped GPU memory are the little-endian words of its bytes, with no draw made (20_memory.md R62). -/
def Obligations.FetchedWordsAreLittleEndian : Prop :=
  ∀ (m : GpuMem) (draws a n : Nat) (f : Nat → Byte), (∀ k, k < 4 * n → Memory.lookup m (a + k) = some (f k)) →
    Memory.readWords m draws a n =
      ((List.range n).map fun k => f (4 * k + 3) ++ f (4 * k + 2) ++ f (4 * k + 1) ++ f (4 * k), draws)

/-! ### The whole machine -/

/-- Every step keeps the invariant: canonical memories of their sizes, register 0, the length-pending flag, the method
increment's and the method counter's bounds, unbound slots empty, resident buffers of their count, the shadow mode of
a running macro (10_state.md R21, R22, R24, R25, R30, R32, R36, R37). -/
def Obligations.EveryStepKeepsTheInvariant : Prop :=
  ∀ s s' : State, StateInv s → step s = .next s' → StateInv s'

/-- Every reset state, for any parameters in canonical form, has the invariant (10_state.md R52). -/
def Obligations.ResetHasTheInvariant : Prop := ∀ p : Params, ParamsWf p → StateInv (State.resetWith p)

/-- What reset leaves, as the spec's table gives it: everything but the open parameters and the interpreter registers
(10_state.md R52, 70_reset_and_hazards.md R330). -/
def Obligations.ResetLeavesTheStatedValues : Prop :=
  ∀ (p : Params) (s : State), s = State.resetWith p →
    s.queue = [] ∧ s.cur = none ∧ s.pos = 0 ∧ s.method = 0 ∧ s.subChannel = 0 ∧ s.methodCount = 0 ∧
    s.nonIncrementing = false ∧ s.incrementOnce = false ∧ s.lengthPending = false ∧
    (∀ sc : SubCh, (s.sub sc).cls = 0 ∧ ∀ m, s.reg sc m = Memory.wordAt (p.initRegs[sc.toNat]'(sc.isLt)) m ∧
      s.shadow sc m = Memory.wordAt (p.initShadow[sc.toNat]'(sc.isLt)) m) ∧
    (∀ m, s.fifoReg m = 0) ∧ s.uploadAddr = 0 ∧ s.bindIndex = 0 ∧ s.shadowMode = 0 ∧
    (∀ a, s.code a = Memory.wordAt p.initMacroMem a) ∧ (∀ i, s.slot i = Slot.empty) ∧ s.fault = none ∧ s.trace = []

/-- No fault at reset; a recorded fault is never cleared and the processing agent takes no further step, which the model
answers with its fault `stopped` (log 3) where no producer's turn comes first (log 11). A producer's turn may append to
the queue and change what belongs to the producers, their calls, turns and GPU memory (log 8, log 11), and changes
nothing else, the trace among it (10_state.md R51, 60_exceptions.md R301; log 13). -/
def Obligations.FaultIsTerminal : Prop :=
  State.reset.fault = none ∧
  ∀ (s : State) (f : FaultRecord), s.fault = some f →
    ((∀ n ts, s.turns ≠ .producer n :: ts) → step s = .fault (.stopped f.kind f.info)) ∧
    (∀ s', step s = .next s' → s.queue <+: s'.queue ∧ s' =
      { s with
        queue := s'.queue, gpuMem := s'.gpuMem, producers := s'.producers, pushing := s'.pushing, turns := s'.turns })

/-- No instruction is refused and none stops the model: its outcome is a next state, in which a fault of the spec is
recorded (60_exceptions.md R300, R301). -/
def Obligations.EveryInstructionAnswersANextState : Prop :=
  ∀ (i : Instr) (s : State), ∃ t, exec i s = .next t

/-- A macro instruction changes only interpreter state, the sink's registers and shadow RAM, the running slot's argument
FIFO, the trace, the fault record and, at its macro's end, the word that made the call: no code memory, FIFO channel,
control register, other sub-channel, other slot, queue or buffer (41_dispatch.md R192, 20_memory.md R74). -/
def Obligations.MacroInstructionsReachOnlyTheirSinkAndSlot : Prop :=
  ∀ (i : Instr) (s t : State), isMacroRow i = true → exec i s = .next t →
    t = { s with
      method := t.method, methodCount := t.methodCount, nonIncrementing := t.nonIncrementing, subs := t.subs
      slots := t.slots, gprs := t.gprs, carry := t.carry, pc := t.pc, pipeOp := t.pipeOp, methAddr := t.methAddr
      methIncr := t.methIncr, trace := t.trace, fault := t.fault, phase := t.phase } ∧
    (∀ sc, sc ≠ s.sinkSc → t.sub sc = s.sub sc) ∧ (t.sub s.sinkSc).cls = (s.sub s.sinkSc).cls ∧
    (∀ j, j ≠ s.slotId → t.slot j = s.slot j) ∧
    (t.slot s.slotId = s.slot s.slotId ∨
      t.slot s.slotId = { s.slot s.slotId with argFifo := (s.slot s.slotId).argFifo.tail })

/-- Each control register is written only by its own method, a sub-channel's class only by a bind of that sub-channel,
and macro code memory only by the upload method (10_state.md R28, R29). -/
def Obligations.ControlRegistersChangeOnlyByTheirMethods : Prop :=
  ∀ (i : Instr) (s t : State), exec i s = .next t →
    (t.uploadAddr ≠ s.uploadAddr → ∃ v, i = .setMacroUploadAddress v ∨ i = .sendMacroCodeData v) ∧
    (t.bindIndex ≠ s.bindIndex → ∃ v, i = .setMacroBindingIndex v ∨ i = .bindMacro v) ∧
    (t.shadowMode ≠ s.shadowMode → ∃ v, i = .setMmeShadowRamControl v) ∧
    (∀ sc, (t.sub sc).cls ≠ (s.sub sc).cls → ∃ v, i = .bindChannel sc v) ∧
    (t.macroMem ≠ s.macroMem → ∃ v, i = .sendMacroCodeData v)

/-- The carry changes only by ADD, ADDC, SUB, SUBB, under whatever row names them, and at the start of an execution
(10_state.md R33). -/
def Obligations.CarryChangesOnlyByTheFourOperations : Prop :=
  ∀ (i : Instr) (s t : State), exec i s = .next t → t.carry ≠ s.carry → mayChangeCarry i = true

/-- Only the push of an entry changes the queue, and it appends one buffer (10_state.md R20). -/
def Obligations.OnlyEntryPushesChangeTheQueue : Prop :=
  ∀ (i : Instr) (s t : State), exec i s = .next t → t.queue ≠ s.queue →
    ∃ np n a b, i = .queueEntry np n a ∧ t.queue = s.queue ++ [b]

/-- The output trace only grows: every step appends to it (10_state.md R50). -/
def Obligations.TraceOnlyGrows : Prop := ∀ s s' : State, step s = .next s' → s.trace <+: s'.trace
end

