-- ==== Sys2Proof/Laws/Decode.lean ====
section
/-! SUPPORT. What the decoder's field reads give on the encoder's words, one lemma per field and word form. -/

namespace Sys2Proof.Decode

theorem asgOf_asgCode (a : Asg) : asgOf (asgCode a) = a := by cases a <;> rfl

theorem asgCode_asgOf (v : BitVec 3) : asgCode (asgOf v) = v := by revert v; decide

/-! ### The register-register form -/

section
variable (k : BitVec 5) (asg : Asg) (x : Bool) (d a b : Reg)

/-- The fields of a word of this form, side by side. -/
abbrev regWordFields : BitVec (10 + 5 + 3 + 3 + 3 + 1 + 3 + 1 + 3) :=
  0#10 ++ k ++ b ++ a ++ d ++ BitVec.ofBool x ++ asgCode asg ++ 0#1 ++ 0#3

theorem opF_regWord : opF (regWord k asg x d a b) = 0 := by
  show (regWordFields k asg x d a b).extractLsb' 0 3 = 0
  unfold regWordFields
  ext i h
  simp only [BitVec.getElem_extractLsb', BitVec.getLsbD_append]
  interval_cases i <;> simp

theorem asgF_regWord : asgF (regWord k asg x d a b) = asg := by
  have h : (regWordFields k asg x d a b).extractLsb' 4 3 = asgCode asg := by
    unfold regWordFields
    ext i h
    simp only [BitVec.getElem_extractLsb', BitVec.getLsbD_append]
    interval_cases i <;> simp
  exact (congrArg asgOf h).trans (asgOf_asgCode asg)

theorem exitF_regWord : exitF (regWord k asg x d a b) = x := by
  show (regWordFields k asg x d a b).getLsbD 7 = x
  unfold regWordFields
  simp only [BitVec.getLsbD_append]
  simp

theorem dstF_regWord : dstF (regWord k asg x d a b) = d := by
  show (regWordFields k asg x d a b).extractLsb' 8 3 = d
  unfold regWordFields
  ext i h
  simp only [BitVec.getElem_extractLsb', BitVec.getLsbD_append]
  interval_cases i <;> simp

theorem srcAF_regWord : srcAF (regWord k asg x d a b) = a := by
  show (regWordFields k asg x d a b).extractLsb' 11 3 = a
  unfold regWordFields
  ext i h
  simp only [BitVec.getElem_extractLsb', BitVec.getLsbD_append]
  interval_cases i <;> simp

theorem srcBF_regWord : srcBF (regWord k asg x d a b) = b := by
  show (regWordFields k asg x d a b).extractLsb' 14 3 = b
  unfold regWordFields
  ext i h
  simp only [BitVec.getElem_extractLsb', BitVec.getLsbD_append]
  interval_cases i <;> simp

theorem aluOpF_regWord : aluOpF (regWord k asg x d a b) = k := by
  show (regWordFields k asg x d a b).extractLsb' 17 5 = k
  unfold regWordFields
  ext i h
  simp only [BitVec.getElem_extractLsb', BitVec.getLsbD_append]
  interval_cases i <;> simp

end

/-! ### The immediate forms -/

section
variable (op : BitVec 3) (asg : Asg) (x : Bool) (d a : Reg) (v : BitVec 18)

/-- The fields of a word of this form, side by side. -/
abbrev immWordFields : BitVec (18 + 3 + 3 + 1 + 3 + 1 + 3) :=
  v ++ a ++ d ++ BitVec.ofBool x ++ asgCode asg ++ 0#1 ++ op

theorem opF_immWord : opF (immWord op asg x d a v) = op := by
  show (immWordFields op asg x d a v).extractLsb' 0 3 = op
  unfold immWordFields
  ext i h
  simp only [BitVec.getElem_extractLsb', BitVec.getLsbD_append]
  interval_cases i <;> simp

theorem asgF_immWord : asgF (immWord op asg x d a v) = asg := by
  have h : (immWordFields op asg x d a v).extractLsb' 4 3 = asgCode asg := by
    unfold immWordFields
    ext i h
    simp only [BitVec.getElem_extractLsb', BitVec.getLsbD_append]
    interval_cases i <;> simp
  exact (congrArg asgOf h).trans (asgOf_asgCode asg)

theorem exitF_immWord : exitF (immWord op asg x d a v) = x := by
  show (immWordFields op asg x d a v).getLsbD 7 = x
  unfold immWordFields
  simp only [BitVec.getLsbD_append]
  simp

theorem dstF_immWord : dstF (immWord op asg x d a v) = d := by
  show (immWordFields op asg x d a v).extractLsb' 8 3 = d
  unfold immWordFields
  ext i h
  simp only [BitVec.getElem_extractLsb', BitVec.getLsbD_append]
  interval_cases i <;> simp

theorem srcAF_immWord : srcAF (immWord op asg x d a v) = a := by
  show (immWordFields op asg x d a v).extractLsb' 11 3 = a
  unfold immWordFields
  ext i h
  simp only [BitVec.getElem_extractLsb', BitVec.getLsbD_append]
  interval_cases i <;> simp

theorem immF_immWord : immF (immWord op asg x d a v) = v := by
  show (immWordFields op asg x d a v).extractLsb' 14 18 = v
  unfold immWordFields
  ext i h
  simp only [BitVec.getElem_extractLsb', BitVec.getLsbD_append]
  interval_cases i <;> simp

end

/-! ### The bitfield forms -/

section
variable (op : BitVec 3) (asg : Asg) (x : Bool) (d a b : Reg) (sb sz db : BitVec 5)

/-- The fields of a word of this form, side by side. -/
abbrev bitfieldWordFields : BitVec (5 + 5 + 5 + 3 + 3 + 3 + 1 + 3 + 1 + 3) :=
  db ++ sz ++ sb ++ b ++ a ++ d ++ BitVec.ofBool x ++ asgCode asg ++ 0#1 ++ op

theorem opF_bitfieldWord : opF (bitfieldWord op asg x d a b sb sz db) = op := by
  show (bitfieldWordFields op asg x d a b sb sz db).extractLsb' 0 3 = op
  unfold bitfieldWordFields
  ext i h
  simp only [BitVec.getElem_extractLsb', BitVec.getLsbD_append]
  interval_cases i <;> simp

theorem asgF_bitfieldWord : asgF (bitfieldWord op asg x d a b sb sz db) = asg := by
  have h : (bitfieldWordFields op asg x d a b sb sz db).extractLsb' 4 3 = asgCode asg := by
    unfold bitfieldWordFields
    ext i h
    simp only [BitVec.getElem_extractLsb', BitVec.getLsbD_append]
    interval_cases i <;> simp
  exact (congrArg asgOf h).trans (asgOf_asgCode asg)

theorem exitF_bitfieldWord : exitF (bitfieldWord op asg x d a b sb sz db) = x := by
  show (bitfieldWordFields op asg x d a b sb sz db).getLsbD 7 = x
  unfold bitfieldWordFields
  simp only [BitVec.getLsbD_append]
  simp

theorem dstF_bitfieldWord : dstF (bitfieldWord op asg x d a b sb sz db) = d := by
  show (bitfieldWordFields op asg x d a b sb sz db).extractLsb' 8 3 = d
  unfold bitfieldWordFields
  ext i h
  simp only [BitVec.getElem_extractLsb', BitVec.getLsbD_append]
  interval_cases i <;> simp

theorem srcAF_bitfieldWord : srcAF (bitfieldWord op asg x d a b sb sz db) = a := by
  show (bitfieldWordFields op asg x d a b sb sz db).extractLsb' 11 3 = a
  unfold bitfieldWordFields
  ext i h
  simp only [BitVec.getElem_extractLsb', BitVec.getLsbD_append]
  interval_cases i <;> simp

theorem srcBF_bitfieldWord : srcBF (bitfieldWord op asg x d a b sb sz db) = b := by
  show (bitfieldWordFields op asg x d a b sb sz db).extractLsb' 14 3 = b
  unfold bitfieldWordFields
  ext i h
  simp only [BitVec.getElem_extractLsb', BitVec.getLsbD_append]
  interval_cases i <;> simp

theorem srcBitF_bitfieldWord : srcBitF (bitfieldWord op asg x d a b sb sz db) = sb := by
  show (bitfieldWordFields op asg x d a b sb sz db).extractLsb' 17 5 = sb
  unfold bitfieldWordFields
  ext i h
  simp only [BitVec.getElem_extractLsb', BitVec.getLsbD_append]
  interval_cases i <;> simp

theorem sizeF_bitfieldWord : sizeF (bitfieldWord op asg x d a b sb sz db) = sz := by
  show (bitfieldWordFields op asg x d a b sb sz db).extractLsb' 22 5 = sz
  unfold bitfieldWordFields
  ext i h
  simp only [BitVec.getElem_extractLsb', BitVec.getLsbD_append]
  interval_cases i <;> simp

theorem dstBitF_bitfieldWord : dstBitF (bitfieldWord op asg x d a b sb sz db) = db := by
  show (bitfieldWordFields op asg x d a b sb sz db).extractLsb' 27 5 = db
  unfold bitfieldWordFields
  ext i h
  simp only [BitVec.getElem_extractLsb', BitVec.getLsbD_append]
  interval_cases i <;> simp

end

/-! ### The branch form -/

section
variable (nd nz x : Bool) (a : Reg) (v : BitVec 18)

/-- The fields of a word of this form, side by side. -/
abbrev branchWordFields : BitVec (18 + 3 + 3 + 1 + 1 + 1 + 1 + 1 + 3) :=
  v ++ a ++ 0#3 ++ BitVec.ofBool x ++ 0#1 ++ BitVec.ofBool nd ++ BitVec.ofBool nz ++ 0#1 ++ 7#3

theorem opF_branchWord : opF (branchWord nd nz x a v) = 7 := by
  show (branchWordFields nd nz x a v).extractLsb' 0 3 = 7
  unfold branchWordFields
  ext i h
  simp only [BitVec.getElem_extractLsb', BitVec.getLsbD_append]
  interval_cases i <;> simp

theorem exitF_branchWord : exitF (branchWord nd nz x a v) = x := by
  show (branchWordFields nd nz x a v).getLsbD 7 = x
  unfold branchWordFields
  simp only [BitVec.getLsbD_append]
  simp

theorem nzF_branchWord : nzF (branchWord nd nz x a v) = nz := by
  show (branchWordFields nd nz x a v).getLsbD 4 = nz
  unfold branchWordFields
  simp only [BitVec.getLsbD_append]
  simp

theorem noDelayF_branchWord : noDelayF (branchWord nd nz x a v) = nd := by
  show (branchWordFields nd nz x a v).getLsbD 5 = nd
  unfold branchWordFields
  simp only [BitVec.getLsbD_append]
  simp

theorem srcAF_branchWord : srcAF (branchWord nd nz x a v) = a := by
  show (branchWordFields nd nz x a v).extractLsb' 11 3 = a
  unfold branchWordFields
  ext i h
  simp only [BitVec.getElem_extractLsb', BitVec.getLsbD_append]
  interval_cases i <;> simp

theorem immF_branchWord : immF (branchWord nd nz x a v) = v := by
  show (branchWordFields nd nz x a v).extractLsb' 14 18 = v
  unfold branchWordFields
  ext i h
  simp only [BitVec.getElem_extractLsb', BitVec.getLsbD_append]
  interval_cases i <;> simp

end

/-! ### Headers -/

section
variable (mode : BitVec 3) (n : BitVec 13) (sc : SubCh) (m : BitVec 13)

/-- The fields of a word of this form, side by side. -/
abbrev headerWordFields : BitVec (3 + 13 + 3 + 13) :=
  mode ++ n ++ sc ++ m

theorem mode_headerWord : (headerWord mode n sc m).extractLsb' 29 3 = mode := by
  show (headerWordFields mode n sc m).extractLsb' 29 3 = mode
  unfold headerWordFields
  ext i h
  simp only [BitVec.getElem_extractLsb', BitVec.getLsbD_append]
  interval_cases i <;> simp

theorem count_headerWord : (headerWord mode n sc m).extractLsb' 16 13 = n := by
  show (headerWordFields mode n sc m).extractLsb' 16 13 = n
  unfold headerWordFields
  ext i h
  simp only [BitVec.getElem_extractLsb', BitVec.getLsbD_append]
  interval_cases i <;> simp

theorem subChannel_headerWord : (headerWord mode n sc m).extractLsb' 13 3 = sc := by
  show (headerWordFields mode n sc m).extractLsb' 13 3 = sc
  unfold headerWordFields
  ext i h
  simp only [BitVec.getElem_extractLsb', BitVec.getLsbD_append]
  interval_cases i <;> simp

theorem method_headerWord : (headerWord mode n sc m).extractLsb' 0 13 = m := by
  show (headerWordFields mode n sc m).extractLsb' 0 13 = m
  unfold headerWordFields
  ext i h
  simp only [BitVec.getElem_extractLsb', BitVec.getLsbD_append]
  interval_cases i <;> simp

end

/-! ### GPFIFO entries -/

section
variable (np : Bool) (n : BitVec 21) (a : BitVec 38)

/-- The fields of a word of this form, side by side. -/
abbrev entryWordFields : BitVec (1 + 21 + 2 + 38 + 2) :=
  BitVec.ofBool np ++ n ++ 0#2 ++ a ++ 0#2

theorem noPrefetch_entryWord : (entryWord np n a).getLsbD 63 = np := by
  show (entryWordFields np n a).getLsbD 63 = np
  unfold entryWordFields
  simp only [BitVec.getLsbD_append]
  simp

theorem count_entryWord : (entryWord np n a).extractLsb' 42 21 = n := by
  show (entryWordFields np n a).extractLsb' 42 21 = n
  unfold entryWordFields
  ext i h
  simp only [BitVec.getElem_extractLsb', BitVec.getLsbD_append]
  interval_cases i <;> simp

theorem address_entryWord : (entryWord np n a).extractLsb' 2 38 = a := by
  show (entryWordFields np n a).extractLsb' 2 38 = a
  unfold entryWordFields
  ext i h
  simp only [BitVec.getElem_extractLsb', BitVec.getLsbD_append]
  interval_cases i <;> simp

end

end Sys2Proof.Decode
end

