-- ==== Sys2Proof/Laws/Memory.lean ====
section
/-! SUPPORT. The laws of the sparse memories: what a read gives after a write, and that every operation keeps the
canonical form. -/

namespace Sys2Proof.Machine.Memory

variable {α : Type}

/-! ### Reads after writes -/

theorem lookup_eq_none_of_lt {m : List (Nat × α)} {k : Nat} (h : ∀ e ∈ m, k < e.1) : lookup m k = none := by
  induction m with
  | nil => rfl
  | cons e m ih =>
    have he := h e (by simp)
    simp only [lookup, if_neg (Nat.ne_of_gt he)]
    exact ih fun f hf => h f (by simp [hf])

theorem lookup_insert (m : List (Nat × α)) (k : Nat) (v : α) (j : Nat) :
    lookup (insert m k v) j = if k = j then some v else lookup m j := by
  induction m with
  | nil => rfl
  | cons e m ih =>
    simp only [insert]
    split
    · rfl
    · split
      · next h => subst h; simp only [lookup]; split <;> rfl
      · next h => by_cases h' : e.1 = j <;> by_cases h'' : k = j <;> simp_all [lookup]

theorem lookup_erase {m : List (Nat × α)} (hm : rising m) (k j : Nat) :
    lookup (erase m k) j = if k = j then none else lookup m j := by
  induction m with
  | nil => simp [erase, lookup]
  | cons e m ih =>
    have hr := List.pairwise_cons.mp hm
    simp only [erase]
    split
    · next h =>
      split
      · next h' => exact lookup_eq_none_of_lt fun f hf => h' ▸ h ▸ hr.1 f hf
      · next h' => simp [lookup, h ▸ h']
    · next h => by_cases h' : e.1 = j <;> by_cases h'' : k = j <;> simp_all [lookup]

/-- A word memory reads the written word where it was written and every other word as before. -/
theorem wordAt_setWord {m : WordMap} (hm : rising m) (k : Nat) (v : Word) (j : Nat) :
    wordAt (setWord m k v) j = if k = j then v else wordAt m j := by
  unfold setWord wordAt
  split
  · next h => rw [lookup_erase hm]; split <;> simp [h]
  · rw [lookup_insert]; split <;> simp

/-- What the accessor answers for a byte address after a change of one address. -/
theorem lookup_setByte {m : GpuMem} (hm : wf m) (a : Nat) (b : Option Byte) (j : Nat) :
    lookup (setByte m a b) j = if a = j then b else lookup m j := by
  cases b with
  | none => exact lookup_erase hm a j
  | some v => exact lookup_insert m a v j

/-! ### The canonical form is kept -/

theorem mem_insert {m : List (Nat × α)} {k : Nat} {v : α} {e : Nat × α} (h : e ∈ insert m k v) : e = (k, v) ∨ e ∈ m := by
  induction m with
  | nil => simpa [insert] using h
  | cons f m ih =>
    simp only [insert] at h
    split at h
    · simpa using h
    · split at h
      · rcases List.mem_cons.mp h with h | h
        · exact .inl h
        · exact .inr (by simp [h])
      · rcases List.mem_cons.mp h with h | h
        · exact .inr (by simp [h])
        · exact (ih h).imp id fun h => by simp [h]

theorem mem_erase {m : List (Nat × α)} {k : Nat} {e : Nat × α} (h : e ∈ erase m k) : e ∈ m := by
  induction m with
  | nil => exact h
  | cons f m ih =>
    simp only [erase] at h
    split at h
    · simp [h]
    · rcases List.mem_cons.mp h with h | h
      · simp [h]
      · simp [ih h]

theorem rising_insert {m : List (Nat × α)} (hm : rising m) (k : Nat) (v : α) : rising (insert m k v) := by
  induction m with
  | nil => simp [rising, insert]
  | cons e m ih =>
    have hr := List.pairwise_cons.mp hm
    simp only [insert]
    split
    · next h =>
      refine List.pairwise_cons.mpr ⟨fun f hf => ?_, hm⟩
      rcases List.mem_cons.mp hf with rfl | hf
      · exact h
      · exact Nat.lt_trans h (hr.1 f hf)
    · split
      · next h => exact List.pairwise_cons.mpr ⟨fun f hf => h ▸ hr.1 f hf, hr.2⟩
      · next h h' =>
        refine List.pairwise_cons.mpr ⟨fun f hf => ?_, ih hr.2⟩
        rcases mem_insert hf with rfl | hf
        · show e.1 < k; omega
        · exact hr.1 f hf

theorem rising_erase {m : List (Nat × α)} (hm : rising m) (k : Nat) : rising (erase m k) := by
  induction m with
  | nil => exact hm
  | cons e m ih =>
    have hr := List.pairwise_cons.mp hm
    simp only [erase]
    split
    · exact hr.2
    · exact List.pairwise_cons.mpr ⟨fun f hf => hr.1 f (mem_erase hf), ih hr.2⟩

theorem rising_setWord {m : WordMap} (hm : rising m) (k : Nat) (v : Word) : rising (setWord m k v) := by
  unfold setWord
  split
  · exact rising_erase hm k
  · exact rising_insert hm k v

/-- A write inside a word memory keeps its canonical form. -/
theorem wordsWf_setWord {size : Nat} {m : WordMap} (hm : wordsWf size m) {k : Nat} (hk : k < size) (v : Word) :
    wordsWf size (setWord m k v) := by
  refine ⟨rising_setWord hm.1 k v, fun e he => ?_⟩
  unfold setWord at he
  split at he
  · exact hm.2 e (mem_erase he)
  · next h =>
    rcases mem_insert he with rfl | he
    · exact ⟨hk, h⟩
    · exact hm.2 e he

/-- A change of what the accessor answers keeps the canonical form of GPU memory. -/
theorem wf_setByte {m : GpuMem} (hm : wf m) (a : Nat) (b : Option Byte) : wf (setByte m a b) := by
  cases b with
  | none => exact rising_erase hm a
  | some v => exact rising_insert hm a v

theorem wordsWf_nil (size : Nat) : wordsWf size [] := ⟨List.Pairwise.nil, by simp⟩

theorem wf_reset : wf State.reset.gpuMem := List.Pairwise.nil

theorem wordsWf_reset_macroMem : wordsWf Config.macroMemWords State.reset.macroMem := wordsWf_nil _

theorem wordsWf_reset_fifoRegs : wordsWf Config.fifoRegWords State.reset.fifoRegs := wordsWf_nil _

/-! ### Equal contents, equal memories -/

/-- The canonical form is unique: rising memories that answer every index alike are equal. -/
theorem eq_of_lookup_eq {m n : List (Nat × α)} (hm : rising m) (hn : rising n) (h : ∀ k, lookup m k = lookup n k) :
    m = n := by
  induction m generalizing n with
  | nil =>
    cases n with
    | nil => rfl
    | cons f n => simpa [lookup] using h f.1
  | cons e m ih =>
    have hr := List.pairwise_cons.mp hm
    cases n with
    | nil => simpa [lookup] using h e.1
    | cons f n =>
      have hs := List.pairwise_cons.mp hn
      have key : e.1 = f.1 := by
        rcases Nat.lt_trichotomy e.1 f.1 with hlt | heq | hlt
        · have := h e.1
          rw [lookup_eq_none_of_lt (m := f :: n)
            (by simpa using ⟨hlt, fun a b hf => Nat.lt_trans hlt (hs.1 (a, b) hf)⟩)] at this
          simp [lookup] at this
        · exact heq
        · have := h f.1
          rw [lookup_eq_none_of_lt (m := e :: m)
            (by simpa using ⟨hlt, fun a b hf => Nat.lt_trans hlt (hr.1 (a, b) hf)⟩)] at this
          simp [lookup] at this
      have hv := h e.1
      simp only [lookup, key, if_true, Option.some.injEq] at hv
      have htail : m = n := ih hr.2 hs.2 fun k => by
        by_cases hk : e.1 = k
        · rw [lookup_eq_none_of_lt fun x hx => hk ▸ hr.1 x hx,
            lookup_eq_none_of_lt fun x hx => (key.symm.trans hk) ▸ hs.1 x hx]
        · have := h k
          simpa [lookup, hk, key ▸ hk] using this
      rw [htail, Prod.ext key hv]

/-! ### Fetched words -/

/-- A read of `n` words answers `n` words. -/
theorem readWords_length (m : GpuMem) (draws a n : Nat) : (readWords m draws a n).1.length = n := by
  induction n generalizing draws a with
  | zero => rfl
  | succ n ih => simp [readWords, ih]

/-- A mapped byte is read as it is, without a draw. -/
theorem readByte_mapped {m : GpuMem} {a : Nat} {b : Byte} (h : lookup m a = some b) (draws : Nat) :
    readByte m draws a = (b, draws) := by simp [readByte, h]

/-- An unmapped byte is the next free value. -/
theorem readByte_unmapped {m : GpuMem} {a : Nat} (h : lookup m a = none) (draws : Nat) :
    readByte m draws a = (Config.unmappedByte draws, draws + 1) := by simp [readByte, h]

/-- Four mapped bytes are read as their little-endian word. -/
theorem readWord_mapped {m : GpuMem} {a : Nat} {b0 b1 b2 b3 : Byte} (h0 : lookup m a = some b0)
    (h1 : lookup m (a + 1) = some b1) (h2 : lookup m (a + 2) = some b2) (h3 : lookup m (a + 3) = some b3) (draws : Nat) :
    readWord m draws a = (leWord b0 b1 b2 b3, draws) := by
  simp [readWord, readByte_mapped h0, readByte_mapped h1, readByte_mapped h2, readByte_mapped h3]

end Sys2Proof.Machine.Memory
end

