-- ==== Sys2Proof/Laws/State.lean ====
section
/-! SUPPORT. One lemma per field per update of the state, and what the accessors give after each update, so that no
proof unfolds a record update. -/

namespace Sys2Proof.Machine

/-! ### State.emit -/

@[simp] theorem State.emit_queue (s : State) (e : Event) : (s.emit e).queue = s.queue := rfl
@[simp] theorem State.emit_cur (s : State) (e : Event) : (s.emit e).cur = s.cur := rfl
@[simp] theorem State.emit_pos (s : State) (e : Event) : (s.emit e).pos = s.pos := rfl
@[simp] theorem State.emit_method (s : State) (e : Event) : (s.emit e).method = s.method := rfl
@[simp] theorem State.emit_subChannel (s : State) (e : Event) : (s.emit e).subChannel = s.subChannel := rfl
@[simp] theorem State.emit_methodCount (s : State) (e : Event) : (s.emit e).methodCount = s.methodCount := rfl
@[simp] theorem State.emit_nonIncrementing (s : State) (e : Event) : (s.emit e).nonIncrementing = s.nonIncrementing :=
  rfl
@[simp] theorem State.emit_incrementOnce (s : State) (e : Event) : (s.emit e).incrementOnce = s.incrementOnce := rfl
@[simp] theorem State.emit_lengthPending (s : State) (e : Event) : (s.emit e).lengthPending = s.lengthPending := rfl
@[simp] theorem State.emit_subs (s : State) (e : Event) : (s.emit e).subs = s.subs := rfl
@[simp] theorem State.emit_fifoRegs (s : State) (e : Event) : (s.emit e).fifoRegs = s.fifoRegs := rfl
@[simp] theorem State.emit_uploadAddr (s : State) (e : Event) : (s.emit e).uploadAddr = s.uploadAddr := rfl
@[simp] theorem State.emit_bindIndex (s : State) (e : Event) : (s.emit e).bindIndex = s.bindIndex := rfl
@[simp] theorem State.emit_shadowMode (s : State) (e : Event) : (s.emit e).shadowMode = s.shadowMode := rfl
@[simp] theorem State.emit_macroMem (s : State) (e : Event) : (s.emit e).macroMem = s.macroMem := rfl
@[simp] theorem State.emit_slots (s : State) (e : Event) : (s.emit e).slots = s.slots := rfl
@[simp] theorem State.emit_gprs (s : State) (e : Event) : (s.emit e).gprs = s.gprs := rfl
@[simp] theorem State.emit_carry (s : State) (e : Event) : (s.emit e).carry = s.carry := rfl
@[simp] theorem State.emit_pc (s : State) (e : Event) : (s.emit e).pc = s.pc := rfl
@[simp] theorem State.emit_pipeOp (s : State) (e : Event) : (s.emit e).pipeOp = s.pipeOp := rfl
@[simp] theorem State.emit_methAddr (s : State) (e : Event) : (s.emit e).methAddr = s.methAddr := rfl
@[simp] theorem State.emit_methIncr (s : State) (e : Event) : (s.emit e).methIncr = s.methIncr := rfl
@[simp] theorem State.emit_sinkSc (s : State) (e : Event) : (s.emit e).sinkSc = s.sinkSc := rfl
@[simp] theorem State.emit_mode (s : State) (e : Event) : (s.emit e).mode = s.mode := rfl
@[simp] theorem State.emit_slotId (s : State) (e : Event) : (s.emit e).slotId = s.slotId := rfl
@[simp] theorem State.emit_trace (s : State) (e : Event) : (s.emit e).trace = s.trace ++ [e] := rfl
@[simp] theorem State.emit_fault (s : State) (e : Event) : (s.emit e).fault = s.fault := rfl
@[simp] theorem State.emit_bindIndexAutoinc (s : State) (e : Event) : (s.emit e).bindIndexAutoinc = s.bindIndexAutoinc :=
  rfl
@[simp] theorem State.emit_gpuMem (s : State) (e : Event) : (s.emit e).gpuMem = s.gpuMem := rfl
@[simp] theorem State.emit_phase (s : State) (e : Event) : (s.emit e).phase = s.phase := rfl
@[simp] theorem State.emit_draws (s : State) (e : Event) : (s.emit e).draws = s.draws := rfl
@[simp] theorem State.emit_producers (s : State) (e : Event) : (s.emit e).producers = s.producers := rfl
@[simp] theorem State.emit_pushing (s : State) (e : Event) : (s.emit e).pushing = s.pushing := rfl
@[simp] theorem State.emit_turns (s : State) (e : Event) : (s.emit e).turns = s.turns := rfl

/-! ### State.raise -/

@[simp] theorem State.raise_queue (s : State) (k : FaultKind) (i : Int) : (s.raise k i).queue = s.queue := rfl
@[simp] theorem State.raise_cur (s : State) (k : FaultKind) (i : Int) : (s.raise k i).cur = s.cur := rfl
@[simp] theorem State.raise_pos (s : State) (k : FaultKind) (i : Int) : (s.raise k i).pos = s.pos := rfl
@[simp] theorem State.raise_method (s : State) (k : FaultKind) (i : Int) : (s.raise k i).method = s.method := rfl
@[simp] theorem State.raise_subChannel (s : State) (k : FaultKind) (i : Int) : (s.raise k i).subChannel = s.subChannel :=
  rfl
@[simp] theorem State.raise_methodCount (s : State) (k : FaultKind) (i : Int) : (s.raise k i).methodCount = s.methodCount :=
  rfl
@[simp] theorem State.raise_nonIncrementing (s : State) (k : FaultKind) (i : Int) : (s.raise k i).nonIncrementing = s.nonIncrementing :=
  rfl
@[simp] theorem State.raise_incrementOnce (s : State) (k : FaultKind) (i : Int) : (s.raise k i).incrementOnce = s.incrementOnce :=
  rfl
@[simp] theorem State.raise_lengthPending (s : State) (k : FaultKind) (i : Int) : (s.raise k i).lengthPending = s.lengthPending :=
  rfl
@[simp] theorem State.raise_subs (s : State) (k : FaultKind) (i : Int) : (s.raise k i).subs = s.subs := rfl
@[simp] theorem State.raise_fifoRegs (s : State) (k : FaultKind) (i : Int) : (s.raise k i).fifoRegs = s.fifoRegs :=
  rfl
@[simp] theorem State.raise_uploadAddr (s : State) (k : FaultKind) (i : Int) : (s.raise k i).uploadAddr = s.uploadAddr :=
  rfl
@[simp] theorem State.raise_bindIndex (s : State) (k : FaultKind) (i : Int) : (s.raise k i).bindIndex = s.bindIndex :=
  rfl
@[simp] theorem State.raise_shadowMode (s : State) (k : FaultKind) (i : Int) : (s.raise k i).shadowMode = s.shadowMode :=
  rfl
@[simp] theorem State.raise_macroMem (s : State) (k : FaultKind) (i : Int) : (s.raise k i).macroMem = s.macroMem :=
  rfl
@[simp] theorem State.raise_slots (s : State) (k : FaultKind) (i : Int) : (s.raise k i).slots = s.slots := rfl
@[simp] theorem State.raise_gprs (s : State) (k : FaultKind) (i : Int) : (s.raise k i).gprs = s.gprs := rfl
@[simp] theorem State.raise_carry (s : State) (k : FaultKind) (i : Int) : (s.raise k i).carry = s.carry := rfl
@[simp] theorem State.raise_pc (s : State) (k : FaultKind) (i : Int) : (s.raise k i).pc = s.pc := rfl
@[simp] theorem State.raise_pipeOp (s : State) (k : FaultKind) (i : Int) : (s.raise k i).pipeOp = s.pipeOp := rfl
@[simp] theorem State.raise_methAddr (s : State) (k : FaultKind) (i : Int) : (s.raise k i).methAddr = s.methAddr :=
  rfl
@[simp] theorem State.raise_methIncr (s : State) (k : FaultKind) (i : Int) : (s.raise k i).methIncr = s.methIncr :=
  rfl
@[simp] theorem State.raise_sinkSc (s : State) (k : FaultKind) (i : Int) : (s.raise k i).sinkSc = s.sinkSc := rfl
@[simp] theorem State.raise_mode (s : State) (k : FaultKind) (i : Int) : (s.raise k i).mode = s.mode := rfl
@[simp] theorem State.raise_slotId (s : State) (k : FaultKind) (i : Int) : (s.raise k i).slotId = s.slotId := rfl
@[simp] theorem State.raise_trace (s : State) (k : FaultKind) (i : Int) : (s.raise k i).trace = s.trace := rfl
@[simp] theorem State.raise_fault (s : State) (k : FaultKind) (i : Int) : (s.raise k i).fault = some { kind := k, info := i } :=
  rfl
@[simp] theorem State.raise_bindIndexAutoinc (s : State) (k : FaultKind) (i : Int) : (s.raise k i).bindIndexAutoinc = s.bindIndexAutoinc :=
  rfl
@[simp] theorem State.raise_gpuMem (s : State) (k : FaultKind) (i : Int) : (s.raise k i).gpuMem = s.gpuMem := rfl
@[simp] theorem State.raise_phase (s : State) (k : FaultKind) (i : Int) : (s.raise k i).phase = s.phase := rfl
@[simp] theorem State.raise_draws (s : State) (k : FaultKind) (i : Int) : (s.raise k i).draws = s.draws := rfl
@[simp] theorem State.raise_producers (s : State) (k : FaultKind) (i : Int) : (s.raise k i).producers = s.producers :=
  rfl
@[simp] theorem State.raise_pushing (s : State) (k : FaultKind) (i : Int) : (s.raise k i).pushing = s.pushing := rfl
@[simp] theorem State.raise_turns (s : State) (k : FaultKind) (i : Int) : (s.raise k i).turns = s.turns := rfl

/-! ### State.setSub -/

@[simp] theorem State.setSub_queue (s : State) (sc : SubCh) (c : SubChannel) : (s.setSub sc c).queue = s.queue := rfl
@[simp] theorem State.setSub_cur (s : State) (sc : SubCh) (c : SubChannel) : (s.setSub sc c).cur = s.cur := rfl
@[simp] theorem State.setSub_pos (s : State) (sc : SubCh) (c : SubChannel) : (s.setSub sc c).pos = s.pos := rfl
@[simp] theorem State.setSub_method (s : State) (sc : SubCh) (c : SubChannel) : (s.setSub sc c).method = s.method :=
  rfl
@[simp] theorem State.setSub_subChannel (s : State) (sc : SubCh) (c : SubChannel) : (s.setSub sc c).subChannel = s.subChannel :=
  rfl
@[simp] theorem State.setSub_methodCount (s : State) (sc : SubCh) (c : SubChannel) : (s.setSub sc c).methodCount = s.methodCount :=
  rfl
@[simp] theorem State.setSub_nonIncrementing (s : State) (sc : SubCh) (c : SubChannel) : (s.setSub sc c).nonIncrementing = s.nonIncrementing :=
  rfl
@[simp] theorem State.setSub_incrementOnce (s : State) (sc : SubCh) (c : SubChannel) : (s.setSub sc c).incrementOnce = s.incrementOnce :=
  rfl
@[simp] theorem State.setSub_lengthPending (s : State) (sc : SubCh) (c : SubChannel) : (s.setSub sc c).lengthPending = s.lengthPending :=
  rfl
@[simp] theorem State.setSub_subs (s : State) (sc : SubCh) (c : SubChannel) : (s.setSub sc c).subs = s.subs.set sc.toNat c sc.isLt :=
  rfl
@[simp] theorem State.setSub_fifoRegs (s : State) (sc : SubCh) (c : SubChannel) : (s.setSub sc c).fifoRegs = s.fifoRegs :=
  rfl
@[simp] theorem State.setSub_uploadAddr (s : State) (sc : SubCh) (c : SubChannel) : (s.setSub sc c).uploadAddr = s.uploadAddr :=
  rfl
@[simp] theorem State.setSub_bindIndex (s : State) (sc : SubCh) (c : SubChannel) : (s.setSub sc c).bindIndex = s.bindIndex :=
  rfl
@[simp] theorem State.setSub_shadowMode (s : State) (sc : SubCh) (c : SubChannel) : (s.setSub sc c).shadowMode = s.shadowMode :=
  rfl
@[simp] theorem State.setSub_macroMem (s : State) (sc : SubCh) (c : SubChannel) : (s.setSub sc c).macroMem = s.macroMem :=
  rfl
@[simp] theorem State.setSub_slots (s : State) (sc : SubCh) (c : SubChannel) : (s.setSub sc c).slots = s.slots := rfl
@[simp] theorem State.setSub_gprs (s : State) (sc : SubCh) (c : SubChannel) : (s.setSub sc c).gprs = s.gprs := rfl
@[simp] theorem State.setSub_carry (s : State) (sc : SubCh) (c : SubChannel) : (s.setSub sc c).carry = s.carry := rfl
@[simp] theorem State.setSub_pc (s : State) (sc : SubCh) (c : SubChannel) : (s.setSub sc c).pc = s.pc := rfl
@[simp] theorem State.setSub_pipeOp (s : State) (sc : SubCh) (c : SubChannel) : (s.setSub sc c).pipeOp = s.pipeOp :=
  rfl
@[simp] theorem State.setSub_methAddr (s : State) (sc : SubCh) (c : SubChannel) : (s.setSub sc c).methAddr = s.methAddr :=
  rfl
@[simp] theorem State.setSub_methIncr (s : State) (sc : SubCh) (c : SubChannel) : (s.setSub sc c).methIncr = s.methIncr :=
  rfl
@[simp] theorem State.setSub_sinkSc (s : State) (sc : SubCh) (c : SubChannel) : (s.setSub sc c).sinkSc = s.sinkSc :=
  rfl
@[simp] theorem State.setSub_mode (s : State) (sc : SubCh) (c : SubChannel) : (s.setSub sc c).mode = s.mode := rfl
@[simp] theorem State.setSub_slotId (s : State) (sc : SubCh) (c : SubChannel) : (s.setSub sc c).slotId = s.slotId :=
  rfl
@[simp] theorem State.setSub_trace (s : State) (sc : SubCh) (c : SubChannel) : (s.setSub sc c).trace = s.trace := rfl
@[simp] theorem State.setSub_fault (s : State) (sc : SubCh) (c : SubChannel) : (s.setSub sc c).fault = s.fault := rfl
@[simp] theorem State.setSub_bindIndexAutoinc (s : State) (sc : SubCh) (c : SubChannel) : (s.setSub sc c).bindIndexAutoinc = s.bindIndexAutoinc :=
  rfl
@[simp] theorem State.setSub_gpuMem (s : State) (sc : SubCh) (c : SubChannel) : (s.setSub sc c).gpuMem = s.gpuMem :=
  rfl
@[simp] theorem State.setSub_phase (s : State) (sc : SubCh) (c : SubChannel) : (s.setSub sc c).phase = s.phase := rfl
@[simp] theorem State.setSub_draws (s : State) (sc : SubCh) (c : SubChannel) : (s.setSub sc c).draws = s.draws := rfl
@[simp] theorem State.setSub_producers (s : State) (sc : SubCh) (c : SubChannel) : (s.setSub sc c).producers = s.producers :=
  rfl
@[simp] theorem State.setSub_pushing (s : State) (sc : SubCh) (c : SubChannel) : (s.setSub sc c).pushing = s.pushing :=
  rfl
@[simp] theorem State.setSub_turns (s : State) (sc : SubCh) (c : SubChannel) : (s.setSub sc c).turns = s.turns := rfl

/-! ### State.setSlot -/

@[simp] theorem State.setSlot_queue (s : State) (i : SlotIx) (c : Slot) : (s.setSlot i c).queue = s.queue := rfl
@[simp] theorem State.setSlot_cur (s : State) (i : SlotIx) (c : Slot) : (s.setSlot i c).cur = s.cur := rfl
@[simp] theorem State.setSlot_pos (s : State) (i : SlotIx) (c : Slot) : (s.setSlot i c).pos = s.pos := rfl
@[simp] theorem State.setSlot_method (s : State) (i : SlotIx) (c : Slot) : (s.setSlot i c).method = s.method := rfl
@[simp] theorem State.setSlot_subChannel (s : State) (i : SlotIx) (c : Slot) : (s.setSlot i c).subChannel = s.subChannel :=
  rfl
@[simp] theorem State.setSlot_methodCount (s : State) (i : SlotIx) (c : Slot) : (s.setSlot i c).methodCount = s.methodCount :=
  rfl
@[simp] theorem State.setSlot_nonIncrementing (s : State) (i : SlotIx) (c : Slot) : (s.setSlot i c).nonIncrementing = s.nonIncrementing :=
  rfl
@[simp] theorem State.setSlot_incrementOnce (s : State) (i : SlotIx) (c : Slot) : (s.setSlot i c).incrementOnce = s.incrementOnce :=
  rfl
@[simp] theorem State.setSlot_lengthPending (s : State) (i : SlotIx) (c : Slot) : (s.setSlot i c).lengthPending = s.lengthPending :=
  rfl
@[simp] theorem State.setSlot_subs (s : State) (i : SlotIx) (c : Slot) : (s.setSlot i c).subs = s.subs := rfl
@[simp] theorem State.setSlot_fifoRegs (s : State) (i : SlotIx) (c : Slot) : (s.setSlot i c).fifoRegs = s.fifoRegs :=
  rfl
@[simp] theorem State.setSlot_uploadAddr (s : State) (i : SlotIx) (c : Slot) : (s.setSlot i c).uploadAddr = s.uploadAddr :=
  rfl
@[simp] theorem State.setSlot_bindIndex (s : State) (i : SlotIx) (c : Slot) : (s.setSlot i c).bindIndex = s.bindIndex :=
  rfl
@[simp] theorem State.setSlot_shadowMode (s : State) (i : SlotIx) (c : Slot) : (s.setSlot i c).shadowMode = s.shadowMode :=
  rfl
@[simp] theorem State.setSlot_macroMem (s : State) (i : SlotIx) (c : Slot) : (s.setSlot i c).macroMem = s.macroMem :=
  rfl
@[simp] theorem State.setSlot_slots (s : State) (i : SlotIx) (c : Slot) : (s.setSlot i c).slots = s.slots.set i.toNat c i.isLt :=
  rfl
@[simp] theorem State.setSlot_gprs (s : State) (i : SlotIx) (c : Slot) : (s.setSlot i c).gprs = s.gprs := rfl
@[simp] theorem State.setSlot_carry (s : State) (i : SlotIx) (c : Slot) : (s.setSlot i c).carry = s.carry := rfl
@[simp] theorem State.setSlot_pc (s : State) (i : SlotIx) (c : Slot) : (s.setSlot i c).pc = s.pc := rfl
@[simp] theorem State.setSlot_pipeOp (s : State) (i : SlotIx) (c : Slot) : (s.setSlot i c).pipeOp = s.pipeOp := rfl
@[simp] theorem State.setSlot_methAddr (s : State) (i : SlotIx) (c : Slot) : (s.setSlot i c).methAddr = s.methAddr :=
  rfl
@[simp] theorem State.setSlot_methIncr (s : State) (i : SlotIx) (c : Slot) : (s.setSlot i c).methIncr = s.methIncr :=
  rfl
@[simp] theorem State.setSlot_sinkSc (s : State) (i : SlotIx) (c : Slot) : (s.setSlot i c).sinkSc = s.sinkSc := rfl
@[simp] theorem State.setSlot_mode (s : State) (i : SlotIx) (c : Slot) : (s.setSlot i c).mode = s.mode := rfl
@[simp] theorem State.setSlot_slotId (s : State) (i : SlotIx) (c : Slot) : (s.setSlot i c).slotId = s.slotId := rfl
@[simp] theorem State.setSlot_trace (s : State) (i : SlotIx) (c : Slot) : (s.setSlot i c).trace = s.trace := rfl
@[simp] theorem State.setSlot_fault (s : State) (i : SlotIx) (c : Slot) : (s.setSlot i c).fault = s.fault := rfl
@[simp] theorem State.setSlot_bindIndexAutoinc (s : State) (i : SlotIx) (c : Slot) : (s.setSlot i c).bindIndexAutoinc = s.bindIndexAutoinc :=
  rfl
@[simp] theorem State.setSlot_gpuMem (s : State) (i : SlotIx) (c : Slot) : (s.setSlot i c).gpuMem = s.gpuMem := rfl
@[simp] theorem State.setSlot_phase (s : State) (i : SlotIx) (c : Slot) : (s.setSlot i c).phase = s.phase := rfl
@[simp] theorem State.setSlot_draws (s : State) (i : SlotIx) (c : Slot) : (s.setSlot i c).draws = s.draws := rfl
@[simp] theorem State.setSlot_producers (s : State) (i : SlotIx) (c : Slot) : (s.setSlot i c).producers = s.producers :=
  rfl
@[simp] theorem State.setSlot_pushing (s : State) (i : SlotIx) (c : Slot) : (s.setSlot i c).pushing = s.pushing := rfl
@[simp] theorem State.setSlot_turns (s : State) (i : SlotIx) (c : Slot) : (s.setSlot i c).turns = s.turns := rfl

/-! ### State.enqueue -/

@[simp] theorem State.enqueue_queue (s : State) (b : CommandBuffer) : (s.enqueue b).queue = s.queue ++ [b] := rfl
@[simp] theorem State.enqueue_cur (s : State) (b : CommandBuffer) : (s.enqueue b).cur = s.cur := rfl
@[simp] theorem State.enqueue_pos (s : State) (b : CommandBuffer) : (s.enqueue b).pos = s.pos := rfl
@[simp] theorem State.enqueue_method (s : State) (b : CommandBuffer) : (s.enqueue b).method = s.method := rfl
@[simp] theorem State.enqueue_subChannel (s : State) (b : CommandBuffer) : (s.enqueue b).subChannel = s.subChannel :=
  rfl
@[simp] theorem State.enqueue_methodCount (s : State) (b : CommandBuffer) : (s.enqueue b).methodCount = s.methodCount :=
  rfl
@[simp] theorem State.enqueue_nonIncrementing (s : State) (b : CommandBuffer) : (s.enqueue b).nonIncrementing = s.nonIncrementing :=
  rfl
@[simp] theorem State.enqueue_incrementOnce (s : State) (b : CommandBuffer) : (s.enqueue b).incrementOnce = s.incrementOnce :=
  rfl
@[simp] theorem State.enqueue_lengthPending (s : State) (b : CommandBuffer) : (s.enqueue b).lengthPending = s.lengthPending :=
  rfl
@[simp] theorem State.enqueue_subs (s : State) (b : CommandBuffer) : (s.enqueue b).subs = s.subs := rfl
@[simp] theorem State.enqueue_fifoRegs (s : State) (b : CommandBuffer) : (s.enqueue b).fifoRegs = s.fifoRegs := rfl
@[simp] theorem State.enqueue_uploadAddr (s : State) (b : CommandBuffer) : (s.enqueue b).uploadAddr = s.uploadAddr :=
  rfl
@[simp] theorem State.enqueue_bindIndex (s : State) (b : CommandBuffer) : (s.enqueue b).bindIndex = s.bindIndex := rfl
@[simp] theorem State.enqueue_shadowMode (s : State) (b : CommandBuffer) : (s.enqueue b).shadowMode = s.shadowMode :=
  rfl
@[simp] theorem State.enqueue_macroMem (s : State) (b : CommandBuffer) : (s.enqueue b).macroMem = s.macroMem := rfl
@[simp] theorem State.enqueue_slots (s : State) (b : CommandBuffer) : (s.enqueue b).slots = s.slots := rfl
@[simp] theorem State.enqueue_gprs (s : State) (b : CommandBuffer) : (s.enqueue b).gprs = s.gprs := rfl
@[simp] theorem State.enqueue_carry (s : State) (b : CommandBuffer) : (s.enqueue b).carry = s.carry := rfl
@[simp] theorem State.enqueue_pc (s : State) (b : CommandBuffer) : (s.enqueue b).pc = s.pc := rfl
@[simp] theorem State.enqueue_pipeOp (s : State) (b : CommandBuffer) : (s.enqueue b).pipeOp = s.pipeOp := rfl
@[simp] theorem State.enqueue_methAddr (s : State) (b : CommandBuffer) : (s.enqueue b).methAddr = s.methAddr := rfl
@[simp] theorem State.enqueue_methIncr (s : State) (b : CommandBuffer) : (s.enqueue b).methIncr = s.methIncr := rfl
@[simp] theorem State.enqueue_sinkSc (s : State) (b : CommandBuffer) : (s.enqueue b).sinkSc = s.sinkSc := rfl
@[simp] theorem State.enqueue_mode (s : State) (b : CommandBuffer) : (s.enqueue b).mode = s.mode := rfl
@[simp] theorem State.enqueue_slotId (s : State) (b : CommandBuffer) : (s.enqueue b).slotId = s.slotId := rfl
@[simp] theorem State.enqueue_trace (s : State) (b : CommandBuffer) : (s.enqueue b).trace = s.trace := rfl
@[simp] theorem State.enqueue_fault (s : State) (b : CommandBuffer) : (s.enqueue b).fault = s.fault := rfl
@[simp] theorem State.enqueue_bindIndexAutoinc (s : State) (b : CommandBuffer) : (s.enqueue b).bindIndexAutoinc = s.bindIndexAutoinc :=
  rfl
@[simp] theorem State.enqueue_gpuMem (s : State) (b : CommandBuffer) : (s.enqueue b).gpuMem = s.gpuMem := rfl
@[simp] theorem State.enqueue_phase (s : State) (b : CommandBuffer) : (s.enqueue b).phase = s.phase := rfl
@[simp] theorem State.enqueue_draws (s : State) (b : CommandBuffer) : (s.enqueue b).draws = s.draws := rfl
@[simp] theorem State.enqueue_producers (s : State) (b : CommandBuffer) : (s.enqueue b).producers = s.producers := rfl
@[simp] theorem State.enqueue_pushing (s : State) (b : CommandBuffer) : (s.enqueue b).pushing = s.pushing := rfl
@[simp] theorem State.enqueue_turns (s : State) (b : CommandBuffer) : (s.enqueue b).turns = s.turns := rfl

/-! ### State.setGpr -/

@[simp] theorem State.setGpr_queue (s : State) (r : Reg) (v : Word) : (s.setGpr r v).queue = s.queue :=
  by unfold State.setGpr; split <;> rfl
@[simp] theorem State.setGpr_cur (s : State) (r : Reg) (v : Word) : (s.setGpr r v).cur = s.cur :=
  by unfold State.setGpr; split <;> rfl
@[simp] theorem State.setGpr_pos (s : State) (r : Reg) (v : Word) : (s.setGpr r v).pos = s.pos :=
  by unfold State.setGpr; split <;> rfl
@[simp] theorem State.setGpr_method (s : State) (r : Reg) (v : Word) : (s.setGpr r v).method = s.method :=
  by unfold State.setGpr; split <;> rfl
@[simp] theorem State.setGpr_subChannel (s : State) (r : Reg) (v : Word) : (s.setGpr r v).subChannel = s.subChannel :=
  by unfold State.setGpr; split <;> rfl
@[simp] theorem State.setGpr_methodCount (s : State) (r : Reg) (v : Word) : (s.setGpr r v).methodCount = s.methodCount :=
  by unfold State.setGpr; split <;> rfl
@[simp] theorem State.setGpr_nonIncrementing (s : State) (r : Reg) (v : Word) : (s.setGpr r v).nonIncrementing = s.nonIncrementing :=
  by unfold State.setGpr; split <;> rfl
@[simp] theorem State.setGpr_incrementOnce (s : State) (r : Reg) (v : Word) : (s.setGpr r v).incrementOnce = s.incrementOnce :=
  by unfold State.setGpr; split <;> rfl
@[simp] theorem State.setGpr_lengthPending (s : State) (r : Reg) (v : Word) : (s.setGpr r v).lengthPending = s.lengthPending :=
  by unfold State.setGpr; split <;> rfl
@[simp] theorem State.setGpr_subs (s : State) (r : Reg) (v : Word) : (s.setGpr r v).subs = s.subs :=
  by unfold State.setGpr; split <;> rfl
@[simp] theorem State.setGpr_fifoRegs (s : State) (r : Reg) (v : Word) : (s.setGpr r v).fifoRegs = s.fifoRegs :=
  by unfold State.setGpr; split <;> rfl
@[simp] theorem State.setGpr_uploadAddr (s : State) (r : Reg) (v : Word) : (s.setGpr r v).uploadAddr = s.uploadAddr :=
  by unfold State.setGpr; split <;> rfl
@[simp] theorem State.setGpr_bindIndex (s : State) (r : Reg) (v : Word) : (s.setGpr r v).bindIndex = s.bindIndex :=
  by unfold State.setGpr; split <;> rfl
@[simp] theorem State.setGpr_shadowMode (s : State) (r : Reg) (v : Word) : (s.setGpr r v).shadowMode = s.shadowMode :=
  by unfold State.setGpr; split <;> rfl
@[simp] theorem State.setGpr_macroMem (s : State) (r : Reg) (v : Word) : (s.setGpr r v).macroMem = s.macroMem :=
  by unfold State.setGpr; split <;> rfl
@[simp] theorem State.setGpr_slots (s : State) (r : Reg) (v : Word) : (s.setGpr r v).slots = s.slots :=
  by unfold State.setGpr; split <;> rfl
@[simp] theorem State.setGpr_carry (s : State) (r : Reg) (v : Word) : (s.setGpr r v).carry = s.carry :=
  by unfold State.setGpr; split <;> rfl
@[simp] theorem State.setGpr_pc (s : State) (r : Reg) (v : Word) : (s.setGpr r v).pc = s.pc :=
  by unfold State.setGpr; split <;> rfl
@[simp] theorem State.setGpr_pipeOp (s : State) (r : Reg) (v : Word) : (s.setGpr r v).pipeOp = s.pipeOp :=
  by unfold State.setGpr; split <;> rfl
@[simp] theorem State.setGpr_methAddr (s : State) (r : Reg) (v : Word) : (s.setGpr r v).methAddr = s.methAddr :=
  by unfold State.setGpr; split <;> rfl
@[simp] theorem State.setGpr_methIncr (s : State) (r : Reg) (v : Word) : (s.setGpr r v).methIncr = s.methIncr :=
  by unfold State.setGpr; split <;> rfl
@[simp] theorem State.setGpr_sinkSc (s : State) (r : Reg) (v : Word) : (s.setGpr r v).sinkSc = s.sinkSc :=
  by unfold State.setGpr; split <;> rfl
@[simp] theorem State.setGpr_mode (s : State) (r : Reg) (v : Word) : (s.setGpr r v).mode = s.mode :=
  by unfold State.setGpr; split <;> rfl
@[simp] theorem State.setGpr_slotId (s : State) (r : Reg) (v : Word) : (s.setGpr r v).slotId = s.slotId :=
  by unfold State.setGpr; split <;> rfl
@[simp] theorem State.setGpr_trace (s : State) (r : Reg) (v : Word) : (s.setGpr r v).trace = s.trace :=
  by unfold State.setGpr; split <;> rfl
@[simp] theorem State.setGpr_fault (s : State) (r : Reg) (v : Word) : (s.setGpr r v).fault = s.fault :=
  by unfold State.setGpr; split <;> rfl
@[simp] theorem State.setGpr_bindIndexAutoinc (s : State) (r : Reg) (v : Word) : (s.setGpr r v).bindIndexAutoinc = s.bindIndexAutoinc :=
  by unfold State.setGpr; split <;> rfl
@[simp] theorem State.setGpr_gpuMem (s : State) (r : Reg) (v : Word) : (s.setGpr r v).gpuMem = s.gpuMem :=
  by unfold State.setGpr; split <;> rfl
@[simp] theorem State.setGpr_phase (s : State) (r : Reg) (v : Word) : (s.setGpr r v).phase = s.phase :=
  by unfold State.setGpr; split <;> rfl
@[simp] theorem State.setGpr_draws (s : State) (r : Reg) (v : Word) : (s.setGpr r v).draws = s.draws :=
  by unfold State.setGpr; split <;> rfl
@[simp] theorem State.setGpr_producers (s : State) (r : Reg) (v : Word) : (s.setGpr r v).producers = s.producers :=
  by unfold State.setGpr; split <;> rfl
@[simp] theorem State.setGpr_pushing (s : State) (r : Reg) (v : Word) : (s.setGpr r v).pushing = s.pushing :=
  by unfold State.setGpr; split <;> rfl
@[simp] theorem State.setGpr_turns (s : State) (r : Reg) (v : Word) : (s.setGpr r v).turns = s.turns :=
  by unfold State.setGpr; split <;> rfl

/-! ### setMethAddr -/

@[simp] theorem setMethAddr_queue (v : Word) (s : State) : (setMethAddr v s).queue = s.queue := rfl
@[simp] theorem setMethAddr_cur (v : Word) (s : State) : (setMethAddr v s).cur = s.cur := rfl
@[simp] theorem setMethAddr_pos (v : Word) (s : State) : (setMethAddr v s).pos = s.pos := rfl
@[simp] theorem setMethAddr_method (v : Word) (s : State) : (setMethAddr v s).method = s.method := rfl
@[simp] theorem setMethAddr_subChannel (v : Word) (s : State) : (setMethAddr v s).subChannel = s.subChannel := rfl
@[simp] theorem setMethAddr_methodCount (v : Word) (s : State) : (setMethAddr v s).methodCount = s.methodCount := rfl
@[simp] theorem setMethAddr_nonIncrementing (v : Word) (s : State) : (setMethAddr v s).nonIncrementing = s.nonIncrementing :=
  rfl
@[simp] theorem setMethAddr_incrementOnce (v : Word) (s : State) : (setMethAddr v s).incrementOnce = s.incrementOnce :=
  rfl
@[simp] theorem setMethAddr_lengthPending (v : Word) (s : State) : (setMethAddr v s).lengthPending = s.lengthPending :=
  rfl
@[simp] theorem setMethAddr_subs (v : Word) (s : State) : (setMethAddr v s).subs = s.subs := rfl
@[simp] theorem setMethAddr_fifoRegs (v : Word) (s : State) : (setMethAddr v s).fifoRegs = s.fifoRegs := rfl
@[simp] theorem setMethAddr_uploadAddr (v : Word) (s : State) : (setMethAddr v s).uploadAddr = s.uploadAddr := rfl
@[simp] theorem setMethAddr_bindIndex (v : Word) (s : State) : (setMethAddr v s).bindIndex = s.bindIndex := rfl
@[simp] theorem setMethAddr_shadowMode (v : Word) (s : State) : (setMethAddr v s).shadowMode = s.shadowMode := rfl
@[simp] theorem setMethAddr_macroMem (v : Word) (s : State) : (setMethAddr v s).macroMem = s.macroMem := rfl
@[simp] theorem setMethAddr_slots (v : Word) (s : State) : (setMethAddr v s).slots = s.slots := rfl
@[simp] theorem setMethAddr_gprs (v : Word) (s : State) : (setMethAddr v s).gprs = s.gprs := rfl
@[simp] theorem setMethAddr_carry (v : Word) (s : State) : (setMethAddr v s).carry = s.carry := rfl
@[simp] theorem setMethAddr_pc (v : Word) (s : State) : (setMethAddr v s).pc = s.pc := rfl
@[simp] theorem setMethAddr_pipeOp (v : Word) (s : State) : (setMethAddr v s).pipeOp = s.pipeOp := rfl
@[simp] theorem setMethAddr_methAddr (v : Word) (s : State) : (setMethAddr v s).methAddr = Operands.packedAddr v :=
  rfl
@[simp] theorem setMethAddr_methIncr (v : Word) (s : State) : (setMethAddr v s).methIncr = Operands.packedIncr v :=
  rfl
@[simp] theorem setMethAddr_sinkSc (v : Word) (s : State) : (setMethAddr v s).sinkSc = s.sinkSc := rfl
@[simp] theorem setMethAddr_mode (v : Word) (s : State) : (setMethAddr v s).mode = s.mode := rfl
@[simp] theorem setMethAddr_slotId (v : Word) (s : State) : (setMethAddr v s).slotId = s.slotId := rfl
@[simp] theorem setMethAddr_trace (v : Word) (s : State) : (setMethAddr v s).trace = s.trace := rfl
@[simp] theorem setMethAddr_fault (v : Word) (s : State) : (setMethAddr v s).fault = s.fault := rfl
@[simp] theorem setMethAddr_bindIndexAutoinc (v : Word) (s : State) : (setMethAddr v s).bindIndexAutoinc = s.bindIndexAutoinc :=
  rfl
@[simp] theorem setMethAddr_gpuMem (v : Word) (s : State) : (setMethAddr v s).gpuMem = s.gpuMem := rfl
@[simp] theorem setMethAddr_phase (v : Word) (s : State) : (setMethAddr v s).phase = s.phase := rfl
@[simp] theorem setMethAddr_draws (v : Word) (s : State) : (setMethAddr v s).draws = s.draws := rfl
@[simp] theorem setMethAddr_producers (v : Word) (s : State) : (setMethAddr v s).producers = s.producers := rfl
@[simp] theorem setMethAddr_pushing (v : Word) (s : State) : (setMethAddr v s).pushing = s.pushing := rfl
@[simp] theorem setMethAddr_turns (v : Word) (s : State) : (setMethAddr v s).turns = s.turns := rfl

/-! ### advanceMethAddr -/

@[simp] theorem advanceMethAddr_queue (s : State) : (advanceMethAddr s).queue = s.queue := rfl
@[simp] theorem advanceMethAddr_cur (s : State) : (advanceMethAddr s).cur = s.cur := rfl
@[simp] theorem advanceMethAddr_pos (s : State) : (advanceMethAddr s).pos = s.pos := rfl
@[simp] theorem advanceMethAddr_method (s : State) : (advanceMethAddr s).method = s.method := rfl
@[simp] theorem advanceMethAddr_subChannel (s : State) : (advanceMethAddr s).subChannel = s.subChannel := rfl
@[simp] theorem advanceMethAddr_methodCount (s : State) : (advanceMethAddr s).methodCount = s.methodCount := rfl
@[simp] theorem advanceMethAddr_nonIncrementing (s : State) : (advanceMethAddr s).nonIncrementing = s.nonIncrementing :=
  rfl
@[simp] theorem advanceMethAddr_incrementOnce (s : State) : (advanceMethAddr s).incrementOnce = s.incrementOnce := rfl
@[simp] theorem advanceMethAddr_lengthPending (s : State) : (advanceMethAddr s).lengthPending = s.lengthPending := rfl
@[simp] theorem advanceMethAddr_subs (s : State) : (advanceMethAddr s).subs = s.subs := rfl
@[simp] theorem advanceMethAddr_fifoRegs (s : State) : (advanceMethAddr s).fifoRegs = s.fifoRegs := rfl
@[simp] theorem advanceMethAddr_uploadAddr (s : State) : (advanceMethAddr s).uploadAddr = s.uploadAddr := rfl
@[simp] theorem advanceMethAddr_bindIndex (s : State) : (advanceMethAddr s).bindIndex = s.bindIndex := rfl
@[simp] theorem advanceMethAddr_shadowMode (s : State) : (advanceMethAddr s).shadowMode = s.shadowMode := rfl
@[simp] theorem advanceMethAddr_macroMem (s : State) : (advanceMethAddr s).macroMem = s.macroMem := rfl
@[simp] theorem advanceMethAddr_slots (s : State) : (advanceMethAddr s).slots = s.slots := rfl
@[simp] theorem advanceMethAddr_gprs (s : State) : (advanceMethAddr s).gprs = s.gprs := rfl
@[simp] theorem advanceMethAddr_carry (s : State) : (advanceMethAddr s).carry = s.carry := rfl
@[simp] theorem advanceMethAddr_pc (s : State) : (advanceMethAddr s).pc = s.pc := rfl
@[simp] theorem advanceMethAddr_pipeOp (s : State) : (advanceMethAddr s).pipeOp = s.pipeOp := rfl
@[simp] theorem advanceMethAddr_methAddr (s : State) : (advanceMethAddr s).methAddr = s.methAddr + s.methIncr := rfl
@[simp] theorem advanceMethAddr_methIncr (s : State) : (advanceMethAddr s).methIncr = s.methIncr := rfl
@[simp] theorem advanceMethAddr_sinkSc (s : State) : (advanceMethAddr s).sinkSc = s.sinkSc := rfl
@[simp] theorem advanceMethAddr_mode (s : State) : (advanceMethAddr s).mode = s.mode := rfl
@[simp] theorem advanceMethAddr_slotId (s : State) : (advanceMethAddr s).slotId = s.slotId := rfl
@[simp] theorem advanceMethAddr_trace (s : State) : (advanceMethAddr s).trace = s.trace := rfl
@[simp] theorem advanceMethAddr_fault (s : State) : (advanceMethAddr s).fault = s.fault := rfl
@[simp] theorem advanceMethAddr_bindIndexAutoinc (s : State) : (advanceMethAddr s).bindIndexAutoinc = s.bindIndexAutoinc :=
  rfl
@[simp] theorem advanceMethAddr_gpuMem (s : State) : (advanceMethAddr s).gpuMem = s.gpuMem := rfl
@[simp] theorem advanceMethAddr_phase (s : State) : (advanceMethAddr s).phase = s.phase := rfl
@[simp] theorem advanceMethAddr_draws (s : State) : (advanceMethAddr s).draws = s.draws := rfl
@[simp] theorem advanceMethAddr_producers (s : State) : (advanceMethAddr s).producers = s.producers := rfl
@[simp] theorem advanceMethAddr_pushing (s : State) : (advanceMethAddr s).pushing = s.pushing := rfl
@[simp] theorem advanceMethAddr_turns (s : State) : (advanceMethAddr s).turns = s.turns := rfl

/-! ### fifoWrite -/

@[simp] theorem fifoWrite_queue (m v : Word) (s : State) : (fifoWrite m v s).queue = s.queue := rfl
@[simp] theorem fifoWrite_cur (m v : Word) (s : State) : (fifoWrite m v s).cur = s.cur := rfl
@[simp] theorem fifoWrite_pos (m v : Word) (s : State) : (fifoWrite m v s).pos = s.pos := rfl
@[simp] theorem fifoWrite_method (m v : Word) (s : State) : (fifoWrite m v s).method = s.method := rfl
@[simp] theorem fifoWrite_subChannel (m v : Word) (s : State) : (fifoWrite m v s).subChannel = s.subChannel := rfl
@[simp] theorem fifoWrite_methodCount (m v : Word) (s : State) : (fifoWrite m v s).methodCount = s.methodCount := rfl
@[simp] theorem fifoWrite_nonIncrementing (m v : Word) (s : State) : (fifoWrite m v s).nonIncrementing = s.nonIncrementing :=
  rfl
@[simp] theorem fifoWrite_incrementOnce (m v : Word) (s : State) : (fifoWrite m v s).incrementOnce = s.incrementOnce :=
  rfl
@[simp] theorem fifoWrite_lengthPending (m v : Word) (s : State) : (fifoWrite m v s).lengthPending = s.lengthPending :=
  rfl
@[simp] theorem fifoWrite_subs (m v : Word) (s : State) : (fifoWrite m v s).subs = s.subs := rfl
@[simp] theorem fifoWrite_fifoRegs (m v : Word) (s : State) : (fifoWrite m v s).fifoRegs = Memory.setWord s.fifoRegs m.toNat v :=
  rfl
@[simp] theorem fifoWrite_uploadAddr (m v : Word) (s : State) : (fifoWrite m v s).uploadAddr = s.uploadAddr := rfl
@[simp] theorem fifoWrite_bindIndex (m v : Word) (s : State) : (fifoWrite m v s).bindIndex = s.bindIndex := rfl
@[simp] theorem fifoWrite_shadowMode (m v : Word) (s : State) : (fifoWrite m v s).shadowMode = s.shadowMode := rfl
@[simp] theorem fifoWrite_macroMem (m v : Word) (s : State) : (fifoWrite m v s).macroMem = s.macroMem := rfl
@[simp] theorem fifoWrite_slots (m v : Word) (s : State) : (fifoWrite m v s).slots = s.slots := rfl
@[simp] theorem fifoWrite_gprs (m v : Word) (s : State) : (fifoWrite m v s).gprs = s.gprs := rfl
@[simp] theorem fifoWrite_carry (m v : Word) (s : State) : (fifoWrite m v s).carry = s.carry := rfl
@[simp] theorem fifoWrite_pc (m v : Word) (s : State) : (fifoWrite m v s).pc = s.pc := rfl
@[simp] theorem fifoWrite_pipeOp (m v : Word) (s : State) : (fifoWrite m v s).pipeOp = s.pipeOp := rfl
@[simp] theorem fifoWrite_methAddr (m v : Word) (s : State) : (fifoWrite m v s).methAddr = s.methAddr := rfl
@[simp] theorem fifoWrite_methIncr (m v : Word) (s : State) : (fifoWrite m v s).methIncr = s.methIncr := rfl
@[simp] theorem fifoWrite_sinkSc (m v : Word) (s : State) : (fifoWrite m v s).sinkSc = s.sinkSc := rfl
@[simp] theorem fifoWrite_mode (m v : Word) (s : State) : (fifoWrite m v s).mode = s.mode := rfl
@[simp] theorem fifoWrite_slotId (m v : Word) (s : State) : (fifoWrite m v s).slotId = s.slotId := rfl
@[simp] theorem fifoWrite_trace (m v : Word) (s : State) : (fifoWrite m v s).trace = s.trace ++ [.fifoWrite m v] :=
  rfl
@[simp] theorem fifoWrite_fault (m v : Word) (s : State) : (fifoWrite m v s).fault = s.fault := rfl
@[simp] theorem fifoWrite_bindIndexAutoinc (m v : Word) (s : State) : (fifoWrite m v s).bindIndexAutoinc = s.bindIndexAutoinc :=
  rfl
@[simp] theorem fifoWrite_gpuMem (m v : Word) (s : State) : (fifoWrite m v s).gpuMem = s.gpuMem := rfl
@[simp] theorem fifoWrite_phase (m v : Word) (s : State) : (fifoWrite m v s).phase = s.phase := rfl
@[simp] theorem fifoWrite_draws (m v : Word) (s : State) : (fifoWrite m v s).draws = s.draws := rfl
@[simp] theorem fifoWrite_producers (m v : Word) (s : State) : (fifoWrite m v s).producers = s.producers := rfl
@[simp] theorem fifoWrite_pushing (m v : Word) (s : State) : (fifoWrite m v s).pushing = s.pushing := rfl
@[simp] theorem fifoWrite_turns (m v : Word) (s : State) : (fifoWrite m v s).turns = s.turns := rfl

/-! ### Accessors after updates -/

/-- Sub-channel `sc'` after sub-channel `sc` is replaced. -/
theorem State.sub_setSub (s : State) (sc : SubCh) (c : SubChannel) (sc' : SubCh) :
    (s.setSub sc c).sub sc' = if sc' = sc then c else s.sub sc' := by
  unfold State.sub State.setSub
  rw [Vector.getElem_set]
  by_cases h : sc' = sc
  · simp [h]
  · rw [if_neg h, if_neg fun h' => h (BitVec.eq_of_toNat_eq h'.symm)]

/-- Slot `j` after slot `i` is replaced. -/
theorem State.slot_setSlot (s : State) (i : SlotIx) (c : Slot) (j : SlotIx) :
    (s.setSlot i c).slot j = if j = i then c else s.slot j := by
  unfold State.slot State.setSlot
  rw [Vector.getElem_set]
  by_cases h : j = i
  · simp [h]
  · rw [if_neg h, if_neg fun h' => h (BitVec.eq_of_toNat_eq h'.symm)]

/-- Register `r` after a write of register `d`: register 0 keeps reading 0. -/
theorem State.gpr_setGpr_ite (s : State) (d r : Reg) (v : Word) :
    (s.setGpr d v).gpr r = if r = 0 then 0 else if r = d then v else s.gpr r := by
  by_cases hr : r = 0
  · subst hr; rfl
  · rw [if_neg hr]
    by_cases hd : d = 0
    · subst hd; rw [if_neg hr]; rfl
    · unfold State.gpr State.setGpr
      rw [if_neg hr, if_neg hr]
      simp only [if_neg hd]
      rw [Vector.getElem_set]
      by_cases h : r = d
      · rw [if_pos h, if_pos (by rw [h])]
      · rw [if_neg h, if_neg fun h' => h (BitVec.eq_of_toNat_eq h'.symm)]

theorem State.setGpr_zero_eq (s : State) (v : Word) : s.setGpr 0 v = s := rfl

theorem State.gpr_zero_eq (s : State) : s.gpr 0 = 0 := rfl

theorem State.gprs_setGpr (s : State) (r : Reg) (v : Word) (h : r ≠ 0) :
    (s.setGpr r v).gprs = s.gprs.set r.toNat v r.isLt := by unfold State.setGpr; rw [if_neg h]

/-- Two states with the same register file read alike. -/
theorem State.gpr_congr {s t : State} (h : t.gprs = s.gprs) (r : Reg) : t.gpr r = s.gpr r := by
  unfold State.gpr; simp only [h]

theorem State.sub_congr {s t : State} (h : t.subs = s.subs) (sc : SubCh) : t.sub sc = s.sub sc := by
  unfold State.sub; simp only [h]

theorem State.slot_congr {s t : State} (h : t.slots = s.slots) (i : SlotIx) : t.slot i = s.slot i := by
  unfold State.slot; simp only [h]

theorem State.code_congr {s t : State} (h : t.macroMem = s.macroMem) (a : Nat) : t.code a = s.code a := by
  unfold State.code; rw [h]

@[simp] theorem State.sub_emit (s : State) (e : Event) (sc : SubCh) : (s.emit e).sub sc = s.sub sc := rfl
@[simp] theorem State.slot_emit (s : State) (e : Event) (i : SlotIx) : (s.emit e).slot i = s.slot i := rfl
@[simp] theorem State.sub_raise (s : State) (k : FaultKind) (i : Int) (sc : SubCh) : (s.raise k i).sub sc = s.sub sc :=
  rfl
@[simp] theorem State.slot_raise (s : State) (k : FaultKind) (i : Int) (j : SlotIx) :
    (s.raise k i).slot j = s.slot j := rfl
@[simp] theorem State.sub_setGpr (s : State) (r : Reg) (v : Word) (sc : SubCh) : (s.setGpr r v).sub sc = s.sub sc :=
  State.sub_congr (by simp) sc
@[simp] theorem State.slot_setGpr (s : State) (r : Reg) (v : Word) (i : SlotIx) : (s.setGpr r v).slot i = s.slot i :=
  State.slot_congr (by simp) i
@[simp] theorem State.sub_setSlot (s : State) (i : SlotIx) (c : Slot) (sc : SubCh) : (s.setSlot i c).sub sc = s.sub sc :=
  rfl
@[simp] theorem State.slot_setSub (s : State) (sc : SubCh) (c : SubChannel) (i : SlotIx) :
    (s.setSub sc c).slot i = s.slot i := rfl

end Sys2Proof.Machine
end

