-- ==== Sys2Proof/Laws/Ops.lean ====
section
/-! SUPPORT. For each shared operation, what it can do, so that no proof unfolds it. -/

namespace Sys2Proof.Machine

/-! ### The register file -/

theorem regRead_of_lt {m : Word} (h : m.toNat < Config.regFileWords) (sc : SubCh) (s : State) :
    regRead sc m s = .ok (s.reg sc m.toNat) := if_pos h

theorem regRead_of_ge {m : Word} (h : ¬m.toNat < Config.regFileWords) (sc : SubCh) (s : State) :
    regRead sc m s = .error (s.raise .regReadRange m.toNat) := if_neg h

/-- What a stored write makes of a sub-channel: it stores a word, and it records at most that word. -/
theorem shadowWrite_cases {mode : Word} {c : SubChannel} {m : Nat} {v : Word} {r : Word × SubChannel}
    (h : shadowWrite mode c m v = some r) :
    r.2.cls = c.cls ∧ r.2.regs = Memory.setWord c.regs m r.1 ∧
      ((mode.toNat ≤ 1 ∧ r.1 = v ∧ r.2.shadow = Memory.setWord c.shadow m v) ∨
        (mode.toNat = 2 ∧ r.1 = v ∧ r.2.shadow = c.shadow) ∨
        (mode.toNat = 3 ∧ r.1 = Memory.wordAt c.shadow m ∧ r.2.shadow = c.shadow)) := by
  unfold shadowWrite at h
  split at h <;> first | (cases h; simp [*, writeTrack, writeTrackWithFilter, writePassthrough, writeReplay,
    SubChannel.store, SubChannel.record]) | cases h

/-- A mode up to 3 always stores. -/
theorem shadowWrite_isSome {mode : Word} (h : mode.toNat ≤ 3) (c : SubChannel) (m : Nat) (v : Word) :
    (shadowWrite mode c m v).isSome := by
  obtain h | h | h | h : mode.toNat = 0 ∨ mode.toNat = 1 ∨ mode.toNat = 2 ∨ mode.toNat = 3 := by omega
  all_goals unfold shadowWrite; rw [h]; rfl

/-- A reserved mode never stores. -/
theorem shadowWrite_eq_none {mode : Word} (h : 3 < mode.toNat) (c : SubChannel) (m : Nat) (v : Word) :
    shadowWrite mode c m v = none := by
  unfold shadowWrite
  split <;> first | rfl | omega

/-- A register write that stores. -/
theorem regWrite_ok {sc : SubCh} {m v : Word} {o : Origin} {s t : State} (h : regWrite sc m v o s = .ok t) :
    m.toNat < Config.regFileWords ∧ ∃ r, shadowWrite s.shadowMode (s.sub sc) m.toNat v = some r ∧
      t = (s.setSub sc r.2).emit (.regWrite sc m r.1 o) := by
  unfold regWrite at h
  split at h
  · next hm =>
    split at h
    · next r c hr => cases h; exact ⟨hm, _, hr, rfl⟩
    · cases h
  · cases h

/-- A register write that faults records one of two faults and changes nothing else. -/
theorem regWrite_error {sc : SubCh} {m v : Word} {o : Origin} {s t : State} (h : regWrite sc m v o s = .error t) :
    (Config.regFileWords ≤ m.toNat ∧ t = s.raise .regWriteRange m.toNat) ∨
      (m.toNat < Config.regFileWords ∧ 3 < s.shadowMode.toNat ∧
        t = s.raise .shadowModeReserved s.shadowMode.toNat) := by
  unfold regWrite at h
  split at h
  · next hm =>
    split at h
    · cases h
    · next hn =>
      cases h
      refine .inr ⟨hm, Nat.lt_of_not_le fun hle => ?_, rfl⟩
      have := shadowWrite_isSome hle (s.sub sc) m.toNat v
      simp [hn] at this
  · next hm => cases h; exact .inl ⟨by omega, rfl⟩

/-! ### Assignments -/

/-- The next argument: the head of the running slot's FIFO, or 0 with a diagnostic. -/
theorem fetchParam_cases (s : State) :
    ((s.slot s.slotId).argFifo = [] ∧ fetchParam s = (0, s.emit (.diag .argUnderflow s.slotId))) ∨
      ∃ v rest, (s.slot s.slotId).argFifo = v :: rest ∧
        fetchParam s = (v, s.setSlot s.slotId { s.slot s.slotId with argFifo := rest }) := by
  unfold fetchParam
  split
  · next h => exact .inl ⟨h, rfl⟩
  · next v rest h => exact .inr ⟨v, rest, h, rfl⟩

/-- A send that stores: a register write of the sink, and the method address advances. -/
theorem sendValue_ok {v : Word} {s t : State} (h : sendValue v s = .ok t) :
    ∃ u, regWrite s.sinkSc s.methAddr v .mme s = .ok u ∧ t = advanceMethAddr u := by
  unfold sendValue at h
  split at h
  · next u hu => cases h; exact ⟨u, hu, rfl⟩
  · cases h

/-- A send that faults is a register write of the sink that faults. -/
theorem sendValue_error {v : Word} {s t : State} (h : sendValue v s = .error t) :
    regWrite s.sinkSc s.methAddr v .mme s = .error t := by
  unfold sendValue at h
  split at h
  · cases h
  · next u hu => cases h; exact hu

/-! ### Macro fetch -/

theorem fetchMacro_of_mem {a : Int} (h : 0 ≤ a ∧ a.toNat < Config.macroMemWords) (s : State) :
    fetchMacro a s = .ok (s.code a.toNat) := if_pos h

theorem fetchMacro_of_not_mem {a : Int} (h : ¬(0 ≤ a ∧ a.toNat < Config.macroMemWords)) (s : State) :
    fetchMacro a s = .error (s.raise .macroFetchRange a) := if_neg h

/-! ### Command buffers -/

theorem fetchBuffer_resident {b : CommandBuffer} (h : b.words ≠ none) (s : State) : fetchBuffer b s = (b, s) := by
  unfold fetchBuffer
  split
  · rfl
  · next h' => exact absurd h' h

theorem fetchBuffer_absent {b : CommandBuffer} (h : b.words = none) (s : State) :
    fetchBuffer b s =
      ({ b with words := some (Memory.readWords s.gpuMem s.draws b.address.toNat b.count).1 },
        { s.emit (.memRead b.address (4 * b.count)) with
          draws := (Memory.readWords s.gpuMem s.draws b.address.toNat b.count).2 }) := by
  unfold fetchBuffer
  split
  · next h' => simp [h] at h'
  · rfl

/-- A fetch changes the trace and the count of draws only, and the trace grows. -/
theorem fetchBuffer_frame (b : CommandBuffer) (s : State) :
    (fetchBuffer b s).2 = { s with trace := (fetchBuffer b s).2.trace, draws := (fetchBuffer b s).2.draws } ∧
      s.trace <+: (fetchBuffer b s).2.trace := by
  unfold fetchBuffer
  split
  · exact ⟨rfl, List.prefix_rfl⟩
  · exact ⟨rfl, List.prefix_append _ _⟩

/-- The same for the prefetch of an entry. -/
theorem prefetch_frame (np : Bool) (b : CommandBuffer) (s : State) :
    (prefetch np b s).2 = { s with trace := (prefetch np b s).2.trace, draws := (prefetch np b s).2.draws } ∧
      s.trace <+: (prefetch np b s).2.trace := by
  unfold prefetch
  split
  · exact fetchBuffer_frame b s
  · exact ⟨rfl, List.prefix_rfl⟩

/-- After a fault nothing is prefetched. -/
theorem prefetch_of_fault {s : State} (h : s.fault ≠ none) (np : Bool) (b : CommandBuffer) : prefetch np b s = (b, s) :=
  if_neg (by simp [h])

/-! ### The end of a call and of a macro step -/

theorem endCall_dataWord {s : State} (h : s.phase.after = .dataWord) :
    endCall s = { advanceDma s with phase := .pusher } := by unfold endCall; rw [h]; rfl

theorem endCall_immediate {s : State} (h : s.phase.after = .immediate) : endCall s = { s with phase := .pusher } := by
  unfold endCall; rw [h]; rfl

theorem endStep_run {s : State} {k : After} (h : s.phase = .run k) (stop : Bool) :
    endStep stop s = if stop then { s with phase := .last k } else s := by unfold endStep; rw [h]

theorem endStep_last {s : State} {k : After} (h : s.phase = .last k) (stop : Bool) : endStep stop s = endMacro s := by
  unfold endStep; rw [h]

/-- The end of a step changes the phase, and at its macro's end the trace and the DmaState. -/
theorem endStep_frame (stop : Bool) (s : State) :
    endStep stop s = { s with
      method := (endStep stop s).method, methodCount := (endStep stop s).methodCount
      nonIncrementing := (endStep stop s).nonIncrementing, trace := (endStep stop s).trace
      phase := (endStep stop s).phase } := by
  unfold endStep endMacro endCall finishWord
  split
  · split <;> rfl
  · split <;> rfl
  · rfl
  · rfl

/-! ### Triggers -/

theorem startMacro_of_lt {start : Word} (h : start.toNat < Config.macroMemWords) (arg : Word) (i : SlotIx) (sc : SubCh)
    (s : State) :
    startMacro start arg i sc s =
      { enterMacro start arg i sc s with
        pipeOp := s.code start.toNat, pc := start.toNat + 1, phase := .run s.phase.after } := by
  unfold startMacro
  rw [fetchMacro_of_mem (a := (start.toNat : Int)) ⟨Int.natCast_nonneg _, h⟩]
  rfl

theorem startMacro_of_ge {start : Word} (h : ¬start.toNat < Config.macroMemWords) (arg : Word) (i : SlotIx) (sc : SubCh)
    (s : State) :
    startMacro start arg i sc s = (enterMacro start arg i sc s).raise .macroFetchRange start.toNat := by
  unfold startMacro
  rw [fetchMacro_of_not_mem (a := (start.toNat : Int)) fun h' => h h'.2]

/-! ### Steps -/

/-- A step that answers a next state ran the object it fetched, was a move that executes nothing, or was idle. -/
theorem step_cases {s t : State} (h : step s = .next t) :
    (∃ c s', nextFetch s = .run c s' ∧ exec (Decode.decode c) s' = .next t) ∨ nextFetch s = .moved t ∨
      (nextFetch s = .idle ∧ t = s) := by
  unfold step runFetched at h
  split at h
  · next c s' hf => exact .inl ⟨c, s', hf, h⟩
  · next s' hf => cases h; exact .inr (.inl hf)
  · next hf => cases h; exact .inr (.inr ⟨hf, rfl⟩)
  · cases h
  · cases h

/-- A run of one more step. -/
theorem run_succ {s t : State} (h : step s = .next t) (n : Nat) :
    Host.Core.run Sys2Proof.core (n + 1) s = Host.Core.run Sys2Proof.core n t := by
  have hc : Sys2Proof.core.step s = .next t := h
  simp only [Host.Core.run, hc]

/-- Whose move a step is: the agent's, with the prescribed turns as they are or one used up; a producer's; an idle
agent's used turn; nobody's. -/
theorem nextFetch_cases (s : State) :
    nextFetch s = agentFetch s ∨ (∃ ts, nextFetch s = agentFetch { s with turns := ts }) ∨
      (∃ n ts, nextFetch s = hostFetch n { s with turns := ts }) ∨ (∃ ts, nextFetch s = .moved { s with turns := ts }) ∨
      nextFetch s = .idle := by
  unfold nextFetch
  split
  · exact .inl rfl
  · unfold turnFetch
    split
    · next ht =>
      unfold freeFetch
      split
      · split
        · next n _ => exact .inr (.inr (.inl ⟨n, [], by rw [← ht]⟩))
        · exact .inr (.inr (.inr (.inr rfl)))
      · exact .inl rfl
    · next ts _ =>
      split
      · exact .inr (.inr (.inr (.inl ⟨ts, rfl⟩)))
      · exact .inr (.inl ⟨ts, rfl⟩)
    · next n ts _ => exact .inr (.inr (.inl ⟨n, ts, rfl⟩))

/-- Inside a pusher step the move is the processing agent's, whatever turns are prescribed. -/
theorem nextFetch_inside {s : State} (hf : s.fault = none) (hp : s.phase ≠ .pusher) : nextFetch s = agentFetch s :=
  if_pos (by simp [insideStep, hf, hp])

/-- At a boundary of pusher steps, or after a fault, the prescribed turns decide. -/
theorem nextFetch_outside {s : State} (h : s.phase = .pusher ∨ s.fault ≠ none) : nextFetch s = turnFetch s :=
  if_neg (by rcases h with h | h <;> simp [insideStep, h])

/-- With no prescribed turn a move is the agent's, or a producer's where the agent is idle. -/
theorem nextFetch_of_turns_nil {s : State} (h : s.turns = []) : nextFetch s = freeFetch s ∨ nextFetch s = agentFetch s := by
  unfold nextFetch turnFetch
  split
  · exact .inr rfl
  · rw [h]; exact .inl rfl

theorem freeFetch_of_not_idle {s : State} (h : agentFetch s ≠ .idle) : freeFetch s = agentFetch s := by
  unfold freeFetch
  split
  · next h' => exact absurd h' h
  · rfl

theorem agentFetch_of_fault {s : State} {f : FaultRecord} (h : s.fault = some f) :
    agentFetch s = .stopped f.kind f.info := by unfold agentFetch; rw [h]

/-- What the agent does where it may move, by phase. -/
theorem agentFetch_of_no_fault {s : State} (h : s.fault = none) :
    agentFetch s = match s.phase with
      | .pusher => pusherFetch s
      | .call c _ => .run (.call c) s
      | .run _ => macroFetch s
      | .last _ => macroFetch s := by
  unfold agentFetch
  cases s.phase <;> simp only [h]

theorem macroFetch_of_mem {s : State} (h : 0 ≤ s.pc ∧ s.pc.toNat < Config.macroMemWords) :
    macroFetch s = .run (.mme s.pipeOp) { s with pipeOp := s.code s.pc.toNat, pc := s.pc + 1 } := by
  unfold macroFetch; rw [fetchMacro_of_mem h]

theorem macroFetch_of_not_mem {s : State} (h : ¬(0 ≤ s.pc ∧ s.pc.toNat < Config.macroMemWords)) :
    macroFetch s = .moved (s.raise .macroFetchRange s.pc) := by unfold macroFetch; rw [fetchMacro_of_not_mem h]

end Sys2Proof.Machine
end

