-- ==== Sys2Proof/Laws/Macro.lean ====
section
/-! SUPPORT. One induction over everything a macro word can do: what its primitive effects keep, every macro row keeps. -/

namespace Sys2Proof.Machine

open Sys2Proof.Safety

/-- `P` is kept by every primitive effect of a macro step. -/
structure MacroClosed (P : State → Prop) : Prop where
  raise : ∀ s k i, P s → P (s.raise k i)
  setGpr : ∀ s d v, P s → P (s.setGpr d v)
  fetchParam : ∀ s, P s → P (fetchParam s).2
  setMethAddr : ∀ s v, P s → P (setMethAddr v s)
  send : ∀ s t v, P s → regWrite s.sinkSc s.methAddr v .mme s = .ok t → P (advanceMethAddr t)
  jump : ∀ s p, P s → P { s with pc := p }
  jumpNoDelay : ∀ s p w, P s → P { s with pc := p, pipeOp := w }
  endStep : ∀ s b, P s → P (endStep b s)

/-- Either result of a stage satisfies `P`. -/
def Both (P : State → Prop) (r : Except State State) : Prop := ∀ t, r = .ok t ∨ r = .error t → P t

namespace MacroClosed

variable {P : State → Prop} (hP : MacroClosed P)
include hP

theorem sendValue {s : State} (h : P s) (v : Word) : Both P (sendValue v s) := by
  rintro t (ht | ht)
  · obtain ⟨u, hu, rfl⟩ := sendValue_ok ht
    exact hP.send s u v h hu
  · rcases regWrite_error (sendValue_error ht) with ⟨-, rfl⟩ | ⟨-, -, rfl⟩ <;> exact hP.raise _ _ _ h

theorem takeParam {s : State} (h : P s) (d : Reg) : P ((Machine.fetchParam s).2.setGpr d (Machine.fetchParam s).1) :=
  hP.setGpr _ _ _ (hP.fetchParam _ h)

omit hP in
theorem ok {s : State} (h : P s) : Both P (.ok s) := by
  rintro t (ht | ht)
  · cases ht; exact h
  · cases ht

theorem assignStage {s : State} (h : P s) (asg : Asg) (d : Reg) (r : Word) : Both P (assignStage asg d r s) := by
  cases asg
  · exact ok (hP.takeParam h d)
  · exact ok (hP.setGpr _ _ _ h)
  · exact ok (hP.setMethAddr _ _ (hP.setGpr _ _ _ h))
  · exact hP.sendValue (hP.takeParam h d) r
  · exact hP.sendValue (hP.setGpr _ _ _ h) r
  · exact ok (hP.setMethAddr _ _ (hP.takeParam h d))
  · exact hP.sendValue (hP.fetchParam _ (hP.setMethAddr _ _ (hP.setGpr _ _ _ h))) _
  · exact hP.sendValue (hP.setMethAddr _ _ (hP.setGpr _ _ _ h)) _

theorem concludeStep {r : Except State State} (h : Both P r) (x : Bool) : P (concludeStep x r) := by
  cases r with
  | ok s => exact hP.endStep _ _ (h s (.inl rfl))
  | error s => exact h s (.inr rfl)

theorem assignAndEnd {s : State} (h : P s) (asg : Asg) (x : Bool) (d : Reg) (r : Word) :
    P (assignAndEnd asg x d r s) := hP.concludeStep (hP.assignStage h asg d r) x

theorem takeNoDelay {s : State} (h : P s) (v : BitVec 18) : P (takeNoDelay v s) := by
  unfold Machine.takeNoDelay fetchMacro
  split
  · next w hw => exact hP.endStep _ _ (hP.jumpNoDelay _ _ _ h)
  · next t ht =>
    split at ht
    · cases ht
    · cases ht; exact hP.raise _ _ _ (hP.jump _ _ h)

/-- An ALU stage keeps `P`, where `P` does not see the carry or the stage does not write it. -/
theorem aluStage (op : AluOp) {s t : State} (h : P s)
    (hc : aluWritesCarry op = true → ∀ u c, P u → P { u with carry := c }) :
    (∀ r, aluStage op s = .ok (r, t) → P t) ∧ (aluStage op s = .error t → P t) := by
  rcases op with ⟨k, a, b⟩ | ⟨a, v⟩ | ⟨a, b, x, y, z⟩ | ⟨a, b, x, y⟩ | ⟨a, b, x, y⟩ | ⟨a, v⟩
  · cases k <;> refine ⟨fun r hr => ?_, fun hr => by cases hr⟩ <;> cases hr <;>
      first | exact hc rfl _ _ h | exact h
  iterate 4 exact ⟨fun r hr => by cases hr; exact h, fun hr => by cases hr⟩
  by_cases hm : (Operands.sumImm (s.gpr a) v).toNat < Config.regFileWords
  · simp only [Machine.aluStage, aluRead, regRead_of_lt hm]
    exact ⟨fun r hr => by cases hr; exact h, fun hr => by cases hr⟩
  · simp only [Machine.aluStage, aluRead, regRead_of_ge hm]
    exact ⟨fun r hr => (nomatch hr), fun hr => by cases hr; exact hP.raise _ _ _ h⟩

theorem afterAlu (op : AluOp) {s : State} (h : P s)
    (hc : aluWritesCarry op = true → ∀ u c, P u → P { u with carry := c }) (x : Bool)
    {f : Word → State → Except State State} (hf : ∀ r u, P u → Both P (f r u)) :
    P (afterAlu (Machine.aluStage op s) x f) := by
  unfold Machine.afterAlu
  split
  · next p hp => exact hP.concludeStep (hf _ _ ((hP.aluStage op h hc).1 p.1 hp)) x
  · next u hu => exact (hP.aluStage op h hc).2 hu

/-- Every macro row keeps `P`; where `P` sees the carry, every macro row that may not change the carry does. -/
theorem exec {i : Instr} (hi : isMacroRow i = true) {s t : State} (h : P s)
    (hc : mayChangeCarry i = true → ∀ u c, P u → P { u with carry := c }) (ht : Machine.exec i s = .next t) : P t := by
  cases i <;> first | (exact absurd hi Bool.false_ne_true) | skip
  case add => cases ht; exact hP.assignAndEnd (hc rfl _ _ h) _ _ _ _
  case addc => cases ht; exact hP.assignAndEnd (hc rfl _ _ h) _ _ _ _
  case sub => cases ht; exact hP.assignAndEnd (hc rfl _ _ h) _ _ _ _
  case subb => cases ht; exact hP.assignAndEnd (hc rfl _ _ h) _ _ _ _
  case xor => cases ht; exact hP.assignAndEnd h _ _ _ _
  case or => cases ht; exact hP.assignAndEnd h _ _ _ _
  case and => cases ht; exact hP.assignAndEnd h _ _ _ _
  case andn => cases ht; exact hP.assignAndEnd h _ _ _ _
  case nand => cases ht; exact hP.assignAndEnd h _ _ _ _
  case reservedAluop4To7 => cases ht; exact hP.raise _ _ _ h
  case reservedAluop13 => cases ht; exact hP.raise _ _ _ h
  case reservedAluop14To15 => cases ht; exact hP.raise _ _ _ h
  case reservedAluop16To31 => cases ht; exact hP.raise _ _ _ h
  case addi => cases ht; exact hP.assignAndEnd h _ _ _ _
  case bfi => cases ht; exact hP.assignAndEnd h _ _ _ _
  case bfeli => cases ht; exact hP.assignAndEnd h _ _ _ _
  case bfelr => cases ht; exact hP.assignAndEnd h _ _ _ _
  case read asg x d a v =>
    simp only [Machine.exec, execRead, aluRead, regRead] at ht
    split at ht
    · cases ht; exact hP.assignAndEnd h _ _ _ _
    · next u hu =>
      cases ht
      split at hu
      · cases hu
      · cases hu; exact hP.raise _ _ _ h
  case reservedOp6 => cases ht; exact hP.raise _ _ _ h
  case bz x a v => cases ht; split; exacts [hP.endStep _ _ (hP.jump _ _ h), hP.endStep _ _ h]
  case bnz x a v => cases ht; split; exacts [hP.endStep _ _ h, hP.endStep _ _ (hP.jump _ _ h)]
  case bzNd x a v => cases ht; split; exacts [hP.takeNoDelay h v, hP.endStep _ _ h]
  case bnzNd x a v => cases ht; split; exacts [hP.endStep _ _ h, hP.takeNoDelay h v]
  case load op x d => cases ht; exact hP.afterAlu op h hc x fun r u hu => hP.assignStage hu .load d r
  case move op x d => cases ht; exact hP.afterAlu op h hc x fun r u hu => hP.assignStage hu .move d r
  case movsm op x d => cases ht; exact hP.afterAlu op h hc x fun r u hu => hP.assignStage hu .movsm d r
  case ldsend op x d => cases ht; exact hP.afterAlu op h hc x fun r u hu => hP.assignStage hu .ldsend d r
  case mvsend op x d => cases ht; exact hP.afterAlu op h hc x fun r u hu => hP.assignStage hu .mvsend d r
  case ldsm op x d => cases ht; exact hP.afterAlu op h hc x fun r u hu => hP.assignStage hu .ldsm d r
  case mvsmldsend op x d => cases ht; exact hP.afterAlu op h hc x fun r u hu => hP.assignStage hu .mvsmldsend d r
  case mvsmsendhi op x d => cases ht; exact hP.afterAlu op h hc x fun r u hu => hP.assignStage hu .mvsmsendhi d r
  case nop => cases ht; exact hP.endStep _ _ h
  case exit => cases ht; exact hP.endStep _ _ h
  case mov => cases ht; exact hP.endStep _ _ (hP.setGpr _ _ _ h)
  case li => cases ht; exact hP.endStep _ _ (hP.setGpr _ _ _ h)
  case parm => cases ht; exact hP.endStep _ _ (hP.takeParam h _)
  case maddr => cases ht; exact hP.endStep _ _ (hP.setMethAddr _ _ h)
  case send => cases ht; exact hP.concludeStep (hP.sendValue h _) _
  case j => cases ht; exact hP.endStep _ _ (hP.jump _ _ h)
  case jNd v => cases ht; exact hP.takeNoDelay h v

end MacroClosed

end Sys2Proof.Machine
end

