-- ==== Sys2Proof/Laws/PerInstr.lean ====
section
/-! SUPPORT. Statements about every instruction as syntax, one lemma per constructor of `Instr`. -/

namespace Sys2Proof.Laws

/-- An instruction is written as the object of the instruction it stands for: a pseudo-instruction as its expansion
(30_encoding.md R113), an assignment-suffix row as its operation's row, every other row as itself. -/
def CoreWord.Statement (i : Instr) : Prop := Decode.encode (Decode.core i) = Decode.encode i

namespace CoreWord

theorem add (asg : Asg) (x : Bool) (d a b : Reg) : Statement (.add asg x d a b) := rfl

theorem addc (asg : Asg) (x : Bool) (d a b : Reg) : Statement (.addc asg x d a b) := rfl

theorem sub (asg : Asg) (x : Bool) (d a b : Reg) : Statement (.sub asg x d a b) := rfl

theorem subb (asg : Asg) (x : Bool) (d a b : Reg) : Statement (.subb asg x d a b) := rfl

theorem xor (asg : Asg) (x : Bool) (d a b : Reg) : Statement (.xor asg x d a b) := rfl

theorem or (asg : Asg) (x : Bool) (d a b : Reg) : Statement (.or asg x d a b) := rfl

theorem and (asg : Asg) (x : Bool) (d a b : Reg) : Statement (.and asg x d a b) := rfl

theorem andn (asg : Asg) (x : Bool) (d a b : Reg) : Statement (.andn asg x d a b) := rfl

theorem nand (asg : Asg) (x : Bool) (d a b : Reg) : Statement (.nand asg x d a b) := rfl

theorem reservedAluop4To7 (w : Word) : Statement (.reservedAluop4To7 w) := rfl

theorem reservedAluop13 (w : Word) : Statement (.reservedAluop13 w) := rfl

theorem reservedAluop14To15 (w : Word) : Statement (.reservedAluop14To15 w) := rfl

theorem reservedAluop16To31 (w : Word) : Statement (.reservedAluop16To31 w) := rfl

theorem addi (asg : Asg) (x : Bool) (d a : Reg) (imm : BitVec 18) : Statement (.addi asg x d a imm) := rfl

theorem bfi (asg : Asg) (x : Bool) (d a b : Reg) (srcBit size dstBit : BitVec 5) :
    Statement (.bfi asg x d a b srcBit size dstBit) := rfl

theorem bfeli (asg : Asg) (x : Bool) (d a b : Reg) (size dstBit : BitVec 5) :
    Statement (.bfeli asg x d a b size dstBit) := rfl

theorem bfelr (asg : Asg) (x : Bool) (d a b : Reg) (srcBit size : BitVec 5) :
    Statement (.bfelr asg x d a b srcBit size) := rfl

theorem read (asg : Asg) (x : Bool) (d a : Reg) (imm : BitVec 18) : Statement (.read asg x d a imm) := rfl

theorem reservedOp6 (w : Word) : Statement (.reservedOp6 w) := rfl

theorem bz (x : Bool) (a : Reg) (imm : BitVec 18) : Statement (.bz x a imm) := rfl

theorem bnz (x : Bool) (a : Reg) (imm : BitVec 18) : Statement (.bnz x a imm) := rfl

theorem bzNd (x : Bool) (a : Reg) (imm : BitVec 18) : Statement (.bzNd x a imm) := rfl

theorem bnzNd (x : Bool) (a : Reg) (imm : BitVec 18) : Statement (.bnzNd x a imm) := rfl

theorem load (op : AluOp) (x : Bool) (d : Reg) : Statement (.load op x d) := by
  rcases op with ⟨k, _, _⟩ | _ | _ | _ | _ | _
  · cases k <;> rfl
  all_goals rfl

theorem move (op : AluOp) (x : Bool) (d : Reg) : Statement (.move op x d) := by
  rcases op with ⟨k, _, _⟩ | _ | _ | _ | _ | _
  · cases k <;> rfl
  all_goals rfl

theorem movsm (op : AluOp) (x : Bool) (d : Reg) : Statement (.movsm op x d) := by
  rcases op with ⟨k, _, _⟩ | _ | _ | _ | _ | _
  · cases k <;> rfl
  all_goals rfl

theorem ldsend (op : AluOp) (x : Bool) (d : Reg) : Statement (.ldsend op x d) := by
  rcases op with ⟨k, _, _⟩ | _ | _ | _ | _ | _
  · cases k <;> rfl
  all_goals rfl

theorem mvsend (op : AluOp) (x : Bool) (d : Reg) : Statement (.mvsend op x d) := by
  rcases op with ⟨k, _, _⟩ | _ | _ | _ | _ | _
  · cases k <;> rfl
  all_goals rfl

theorem ldsm (op : AluOp) (x : Bool) (d : Reg) : Statement (.ldsm op x d) := by
  rcases op with ⟨k, _, _⟩ | _ | _ | _ | _ | _
  · cases k <;> rfl
  all_goals rfl

theorem mvsmldsend (op : AluOp) (x : Bool) (d : Reg) : Statement (.mvsmldsend op x d) := by
  rcases op with ⟨k, _, _⟩ | _ | _ | _ | _ | _
  · cases k <;> rfl
  all_goals rfl

theorem mvsmsendhi (op : AluOp) (x : Bool) (d : Reg) : Statement (.mvsmsendhi op x d) := by
  rcases op with ⟨k, _, _⟩ | _ | _ | _ | _ | _
  · cases k <;> rfl
  all_goals rfl

theorem nop : Statement .nop := rfl

theorem exit : Statement .exit := rfl

theorem mov (d a : Reg) : Statement (.mov d a) := rfl

theorem li (d : Reg) (imm : BitVec 18) : Statement (.li d imm) := rfl

theorem parm (d : Reg) : Statement (.parm d) := rfl

theorem maddr (imm : BitVec 18) : Statement (.maddr imm) := rfl

theorem send (a : Reg) : Statement (.send a) := rfl

theorem j (imm : BitVec 18) : Statement (.j imm) := rfl

theorem jNd (imm : BitVec 18) : Statement (.jNd imm) := rfl

theorem inc (method : BitVec 13) (sc : SubCh) (count : BitVec 13) : Statement (.inc method sc count) := rfl

theorem noninc (method : BitVec 13) (sc : SubCh) (count : BitVec 13) : Statement (.noninc method sc count) := rfl

theorem imm (method : BitVec 13) (sc : SubCh) (arg : BitVec 13) : Statement (.imm method sc arg) := rfl

theorem oneinc (method : BitVec 13) (sc : SubCh) (count : BitVec 13) : Statement (.oneinc method sc count) := rfl

theorem reservedMode0 : Statement .reservedMode0 := rfl

theorem reservedMode2 : Statement .reservedMode2 := rfl

theorem reservedMode6 : Statement .reservedMode6 := rfl

theorem reservedMode7 : Statement .reservedMode7 := rfl

theorem data (w : Word) : Statement (.data w) := rfl

theorem length (count : BitVec 24) : Statement (.length count) := rfl

theorem bindChannel (sc : SubCh) (cls : Word) : Statement (.bindChannel sc cls) := rfl

theorem waitForIdle (v : Word) : Statement (.waitForIdle v) := rfl

theorem setMacroUploadAddress (v : Word) : Statement (.setMacroUploadAddress v) := rfl

theorem sendMacroCodeData (v : Word) : Statement (.sendMacroCodeData v) := rfl

theorem setMacroBindingIndex (v : Word) : Statement (.setMacroBindingIndex v) := rfl

theorem bindMacro (v : Word) : Statement (.bindMacro v) := rfl

theorem setMmeShadowRamControl (v : Word) : Statement (.setMmeShadowRamControl v) := rfl

theorem fifoOther (method v : Word) : Statement (.fifoOther method v) := rfl

theorem registerMethod (sc : SubCh) (method v : Word) : Statement (.registerMethod sc method v) := rfl

theorem macroStart (sc : SubCh) (method v remaining : Word) : Statement (.macroStart sc method v remaining) := rfl

theorem macroArgument (sc : SubCh) (method v remaining : Word) :
    Statement (.macroArgument sc method v remaining) := rfl

theorem queueEntry (noPrefetch : Bool) (count : BitVec 21) (address : BitVec 38) :
    Statement (.queueEntry noPrefetch count address) := rfl

end CoreWord

end Sys2Proof.Laws
end

