-- ==== Sys2Proof/Laws/Terms.lean ====
section
/-! SUPPORT. The shared operations in the terms of the claims (Safety.lean): each lemma says once what its operation
gives. -/

namespace Sys2Proof.Machine

open Sys2Proof.Safety

/-! ### Ends of calls and steps -/

theorem endCall_eq_wordDone (s : State) : endCall s = wordDone s := by
  unfold endCall finishWord wordDone advanceDma; cases s.phase.after <;> rfl

theorem endStep_eq_stepped (b : Bool) (s : State) : endStep b s = stepped b s := by
  unfold endStep stepped
  cases h : s.phase <;> try rfl
  · cases b
    · cases s; simp_all
    · rfl
  · simp only [endMacro, endCall_eq_wordDone]; cases s; simp_all [State.emit]

/-! ### Register writes and sends -/

theorem regWrite_of_writable {s : State} {m : Word} (h : Writable s m) (sc : SubCh) (v : Word) (o : Origin) :
    regWrite sc m v o s = .ok (written s sc m v o) := by
  unfold regWrite
  rw [if_pos h.1]
  obtain ⟨⟨r1, r2c, r2r, r2s⟩, hr⟩ := Option.isSome_iff_exists.mp (shadowWrite_isSome h.2 (s.sub sc) m.toNat v)
  rw [hr]
  have hc := shadowWrite_cases hr
  simp only at hc
  unfold written storedValue
  obtain ⟨rfl, rfl, ⟨h1, rfl, rfl⟩ | ⟨h1, rfl, rfl⟩ | ⟨h1, h2, rfl⟩⟩ := hc
  · rw [if_neg (by omega), if_pos h1]; rfl
  · rw [if_neg (by omega), if_neg (by omega)]; rfl
  · rw [if_pos h1, if_neg (by omega), h2]; rfl

theorem regWrite_of_not_writable {s : State} {m : Word} (h : ¬Writable s m) (sc : SubCh) (v : Word) (o : Origin) :
    regWrite sc m v o s = .error { s with fault := some (writeFault s m) } := by
  unfold regWrite writeFault
  split
  · next hm =>
    rw [shadowWrite_eq_none (Nat.lt_of_not_le fun h' => h ⟨hm, h'⟩)]; rfl
  · rfl

theorem sendValue_of_writable {s : State} (h : Writable s s.methAddr) (v : Word) : sendValue v s = .ok (sent s v) := by
  unfold sendValue; rw [regWrite_of_writable h]; rfl

theorem sendValue_of_not_writable {s : State} (h : ¬Writable s s.methAddr) (v : Word) :
    sendValue v s = .error { s with fault := some (writeFault s s.methAddr) } := by
  unfold sendValue; rw [regWrite_of_not_writable h]

theorem concludeStep_sendValue (x : Bool) (v : Word) (s : State) : concludeStep x (sendValue v s) = sendEnd x v s := by
  unfold sendEnd
  by_cases h : Writable s s.methAddr
  · rw [if_pos h, sendValue_of_writable h]; simp only [concludeStep, endStep_eq_stepped]
  · rw [if_neg h, sendValue_of_not_writable h]; rfl

/-! ### Arguments and method addresses -/

theorem fetchParam_eq (s : State) : fetchParam s = (argument s, argumentTaken s) := by
  unfold argument argumentTaken
  rcases fetchParam_cases s with ⟨h, h'⟩ | ⟨v, r, h, h'⟩ <;> rw [h', h] <;> rfl

theorem packedAddr_eq (v : Word) : Operands.packedAddr v = BitVec.ofNat 32 (v.toNat % 4096) := by
  apply BitVec.eq_of_toNat_eq
  simp only [Operands.packedAddr, BitVec.toNat_and, BitVec.toNat_ofNat]
  rw [show (BitVec.toNat (4095 : Word)) = 2 ^ 12 - 1 from rfl, Nat.and_two_pow_sub_one_eq_mod]; omega

theorem packedIncr_eq (v : Word) : Operands.packedIncr v = BitVec.ofNat 32 (v.toNat / 4096 % 64) := by
  apply BitVec.eq_of_toNat_eq
  simp only [Operands.packedIncr, BitVec.toNat_and, BitVec.toNat_ofNat, BitVec.toNat_ushiftRight]
  rw [show (BitVec.toNat (63 : Word)) = 2 ^ 6 - 1 from rfl, Nat.and_two_pow_sub_one_eq_mod,
    Nat.shiftRight_eq_div_pow]; omega

theorem setMethAddr_eq_addressed (v : Word) (s : State) : setMethAddr v s = addressed s v := by
  unfold setMethAddr addressed; rw [packedAddr_eq, packedIncr_eq]

/-! ### The assignment stage and its end -/

/-- Everything the assignment stage and the end of its step can do. -/
theorem assignAndEnd_eq_assigned (asg : Asg) (x : Bool) (d : Reg) (r : Word) (s : State) :
    assignAndEnd asg x d r s = assigned asg x d r s := by
  unfold assignAndEnd assigned
  cases asg <;>
    simp only [assignStage, assignLoad, assignMove, assignMovsm, assignLdsend, assignMvsend, assignLdsm,
      assignMvsmldsend, assignMvsmsendhi, fetchParam_eq, setMethAddr_eq_addressed, packedIncr_eq]
  case ldsend => exact concludeStep_sendValue _ _ _
  case mvsend => exact concludeStep_sendValue _ _ _
  case mvsmldsend => rw [concludeStep_sendValue]; congr 1; simp [argument, State.slot, addressed]
  case mvsmsendhi => exact concludeStep_sendValue _ _ _
  all_goals simp only [concludeStep, endStep_eq_stepped]

/-! ### Macro methods -/

theorem slotOf_eq (m : Word) : Operands.slotOf m = BitVec.ofNat 7 (m.toNat / 2) := by
  apply BitVec.eq_of_toNat_eq; simp [Operands.slotOf, Nat.shiftRight_eq_div_pow]

/-- Everything a trigger can do. -/
theorem trigger_eq_triggered (i : SlotIx) (sc : SubCh) (s : State) : trigger i sc s = triggered s i sc := by
  have hg : ∀ v : Word, (Vector.replicate 8 (0 : Word)).set 1 v = #v[0, v, 0, 0, 0, 0, 0, 0] := fun _ => rfl
  unfold trigger triggered
  by_cases h : (s.slot i).executionPending = true
  · rw [if_pos h, if_pos h]
    by_cases hs : (s.slot i).startPosition.toNat < 262144
    · rw [if_pos hs, startMacro_of_lt hs]
      simp only [enterMacro, started, hg]; rfl
    · rw [if_neg hs, startMacro_of_ge hs]
      simp only [enterMacro, startFaulted, started, hg, State.raise]; rfl
  · rw [if_neg h, if_neg h, endCall_eq_wordDone]; rfl

/-! ### The processing agent's step -/

theorem toNat_lt_of_inCode {a : Int} (h : InCode a) : 0 ≤ a ∧ a.toNat < Config.macroMemWords := by
  obtain ⟨h0, h1⟩ := h
  have : a.toNat < 262144 := by omega
  exact ⟨h0, this⟩

theorem not_toNat_lt_of_not_inCode {a : Int} (h : ¬InCode a) : ¬(0 ≤ a ∧ a.toNat < Config.macroMemWords) := by
  rintro ⟨h0, h1⟩
  have : a.toNat < 262144 := h1
  exact h ⟨h0, by omega⟩

/-- At a boundary of pusher steps, where the processing agent moves and is not idle, the step is its move, after its turn
is used up. -/
theorem step_of_agentMoves {s : State} (h : AgentMoves s) (hp : s.phase = .pusher)
    (hi : agentFetch { s with turns := s.turns.tail } ≠ .idle) :
    step s = runFetched s (agentFetch { s with turns := s.turns.tail }) := by
  unfold step; rw [nextFetch_outside (.inl hp)]; unfold turnFetch
  obtain ⟨-, h⟩ := h
  match ht : s.turns with
  | [] =>
    have : { s with turns := s.turns.tail } = s := by rw [ht]; show { s with turns := [] } = s; rw [← ht]
    rw [this] at hi
    rw [ht] at this; simp only [List.tail] at this ⊢
    rw [this, freeFetch_of_not_idle hi]
  | .agent :: ts =>
    rw [ht, List.tail] at hi; rw [List.tail]
    simp only
  | .producer n :: ts => rw [ht] at h; simp at h

/-- A step inside a macro whose look-ahead lies in macro code memory executes the pipeline word. -/
theorem step_macro {s : State} {k : After} (hf : s.fault = none) (hp : s.phase = .run k ∨ s.phase = .last k)
    (hc : InCode s.pc) :
    step s = exec (Decode.decode (.mme s.pipeOp)) { s with pipeOp := s.code s.pc.toNat, pc := s.pc + 1 } := by
  have hn : nextFetch s = macroFetch s := by
    rw [nextFetch_inside hf (by rcases hp with hp | hp <;> rw [hp] <;> simp), agentFetch_of_no_fault hf]
    rcases hp with hp | hp <;> rw [hp]
  unfold step; rw [hn, macroFetch_of_mem (toNat_lt_of_inCode hc)]; rfl

end Sys2Proof.Machine
end

