-- ==== Sys2Proof/Tests/Slice0.lean ====
section
/-! SUPPORT. The model's own tests: ill-formed terms refused, words written out from the encoding tables of
30_encoding.md decoded, one step per test with the results of 95_test_vectors.md or of a rule's example, and a witness
for the hypotheses of every statement that has some. -/

namespace Sys2Proof.Tests

open Sys2Proof.Machine Sys2Proof.Safety

/-! ### Helpers -/

/-- What `f` reads from the next state. -/
def after {α : Type} (f : State → α) : Host.Outcome State Fault Refusal → Option α
  | .next t => some (f t)
  | .fault _ => none
  | .refused _ => none

/-- A running macro whose next step executes `w`, with x[1] and x[2] as given. -/
def running (w x1 x2 : Word) (carry : Bool) : State :=
  { State.reset with
    phase := .run .immediate, pipeOp := w, pc := 1, gprs := #v[0, x1, x2, 0, 0, 0, 0, 0], carry := carry }

/-- A running macro of slot 0 with x[1] = 9 and arguments 5 and 6 (95_test_vectors.md section 10), a method address of
0x100 with increment 1, and two registers of the sink set (section 9). -/
def assigning (w : Word) : State :=
  { running w 9 0 false with
    methAddr := 0x100, methIncr := 1
    slots := State.reset.slots.set 0 { Slot.empty with bound := true, argFifo := [5, 6] }
    subs := State.reset.subs.set 0 { cls := 0, regs := [(0x100, 7), (0xDFF, 9)], shadow := [(0x100, 7)] } }

/-- The pusher with one word in its active buffer. -/
def pushing (count : Word) (w : Word) : State :=
  { State.reset with cur := some (hostBuffer [w]), method := 0x100, methodCount := count }

/-- A call waiting to be routed. -/
def calling (m v : Word) (sc : SubCh) (n : Word) (s : State) : State :=
  { s with phase := .call { method := m, argument := v, subChannel := sc, remainingCount := n } .immediate }

/-- Slot 0 bound at `p` with argument FIFO `fifo` and a pending start of argument 5 where `pending`. -/
def bound (p : Word) (fifo : List Word) (pending : Bool) : State :=
  { State.reset with
    slots := State.reset.slots.set 0
      { bound := true, startPosition := p, pendingArgument := 5, executionPending := pending, argFifo := fifo } }

/-- A producer about to push the given entries. -/
def entering (es : List (BitVec 64)) (beforeBarrier : Bool) : State :=
  { State.reset with producers := [{ entries := es, beforeBarrier := beforeBarrier, calls := [] }] }

def resultAndCarry (t : State) : Word × Bool := (t.gpr 3, t.carry)

def assignment (t : State) : Word × Word × Word × List Word × List Event :=
  (t.gpr 2, t.methAddr, t.methIncr, (t.slot 0).argFifo, t.trace)

def sequencer (t : State) : Int × Word × Phase := (t.pc, t.pipeOp, t.phase)

def dma (t : State) : Word × SubCh × Word × Bool × Bool :=
  (t.method, t.subChannel, t.methodCount, t.nonIncrementing, t.incrementOnce)

/-! ### WellFormed refuses -/

theorem test_wf_refuses_reserved_words :
    (Instr.reservedAluop4To7 0x00008B10).wf = false ∧ (Instr.reservedAluop13 0x00188B10).wf = false ∧
    (Instr.reservedAluop14To15 0x001A8B10).wf = false ∧ (Instr.reservedAluop16To31 0x001E8B10).wf = false ∧
    (Instr.reservedOp6 0x00000005).wf = false := by decide

theorem test_wf_refuses_words_named_by_another_row :
    (Instr.add .move false 3 0 0).wf = false ∧ (Instr.addi .move false 0 0 0).wf = false ∧
    (Instr.addi .move true 0 0 0).wf = false ∧ (Instr.addi .move false 3 0 1).wf = false ∧
    (Instr.addi .move false 3 1 0).wf = false ∧ (Instr.addi .load false 2 0 0).wf = false ∧
    (Instr.addi .movsm false 0 0 0x1100).wf = false ∧ (Instr.addi .mvsend false 0 1 0).wf = false ∧
    (Instr.bz false 0 2).wf = false ∧ (Instr.bzNd false 0 2).wf = false := by decide

theorem test_wf_refuses_suffix_rows_of_other_words :
    (Instr.load (.reg .add 0 0) false 0).wf = false ∧ (Instr.load (.addi 1 1) false 2).wf = false ∧
    (Instr.move (.addi 1 1) false 2).wf = false ∧ (Instr.movsm (.reg .sub 0 0) false 2).wf = false ∧
    (Instr.ldsend (.addi 1 1) false 2).wf = false ∧ (Instr.mvsend (.addi 1 1) false 2).wf = false ∧
    (Instr.ldsm (.addi 1 1) false 2).wf = false ∧ (Instr.mvsmldsend (.addi 1 1) false 2).wf = false ∧
    (Instr.mvsmsendhi (.addi 1 1) false 2).wf = false := by decide

theorem test_wf_refuses_pseudo_rows_of_other_words :
    (Instr.mov 3 0).wf = false ∧ (Instr.li 0 0).wf = false ∧ (Instr.parm 0).wf = false ∧ (Instr.j 0).wf = false ∧
    (Instr.jNd 0).wf = false := by decide

theorem test_wf_refuses_methods_of_another_class :
    (Instr.fifoOther 0 1).wf = false ∧ (Instr.fifoOther 0x45 1).wf = false ∧ (Instr.fifoOther 0x60 1).wf = false ∧
    (Instr.registerMethod 0 0x5F 1).wf = false ∧ (Instr.registerMethod 0 0xE00 1).wf = false ∧
    (Instr.macroStart 0 0xDFE 1 1).wf = false ∧ (Instr.macroStart 0 0xE01 1 1).wf = false ∧
    (Instr.macroArgument 0 0xDFF 1 1).wf = false ∧ (Instr.macroArgument 0 0xE00 1 1).wf = false := by decide

/-! ### Decoding of words written out from 30_encoding.md -/

/-- r3 from r1 and r2 with MOVE: aluOp, 010, 001, 011, 0, 001, 0, 000. -/
theorem test_decode_register_operations :
    Decode.decode (.mme 0x00008B10) = .add .move false 3 1 2 ∧
    Decode.decode (.mme 0x00028B10) = .addc .move false 3 1 2 ∧
    Decode.decode (.mme 0x00048B10) = .sub .move false 3 1 2 ∧
    Decode.decode (.mme 0x00068B10) = .subb .move false 3 1 2 ∧
    Decode.decode (.mme 0x00108B10) = .xor .move false 3 1 2 ∧
    Decode.decode (.mme 0x00128B10) = .or .move false 3 1 2 ∧
    Decode.decode (.mme 0x00148B10) = .and .move false 3 1 2 ∧
    Decode.decode (.mme 0x00168B10) = .andn .move false 3 1 2 ∧
    Decode.decode (.mme 0x00188B10) = .nand .move false 3 1 2 := by decide

theorem test_decode_reserved_operations :
    Decode.decode (.mme 0x00088B10) = .reservedAluop4To7 0x00088B10 ∧
    Decode.decode (.mme 0x000E8B10) = .reservedAluop4To7 0x000E8B10 ∧
    Decode.decode (.mme 0x001A8B10) = .reservedAluop13 0x001A8B10 ∧
    Decode.decode (.mme 0x001C8B10) = .reservedAluop14To15 0x001C8B10 ∧
    Decode.decode (.mme 0x001E8B10) = .reservedAluop14To15 0x001E8B10 ∧
    Decode.decode (.mme 0x00208B10) = .reservedAluop16To31 0x00208B10 ∧
    Decode.decode (.mme 0x003E8B10) = .reservedAluop16To31 0x003E8B10 ∧
    Decode.decode (.mme 0x00000006) = .reservedOp6 0x00000006 := by decide

theorem test_decode_immediate_and_bitfield_operations :
    Decode.decode (.mme 0xFFFF4B11) = .addi .move false 3 1 (-3) ∧
    Decode.decode (.mme 0x41088B12) = .bfi .move false 3 1 2 4 4 8 ∧
    Decode.decode (.mme 0x82008B13) = .bfeli .move false 3 1 2 8 16 ∧
    Decode.decode (.mme 0x02088B14) = .bfelr .move false 3 1 2 4 8 ∧
    Decode.decode (.mme 0x03800295) = .read .move true 2 0 0xE00 := by decide

theorem test_decode_branches :
    Decode.decode (.mme 0x0000C887) = .bz true 1 3 ∧ Decode.decode (.mme 0x0000C817) = .bnz false 1 3 ∧
    Decode.decode (.mme 0x00015827) = .bzNd false 3 5 ∧ Decode.decode (.mme 0xFFFFC837) = .bnzNd false 1 (-1) := by
  decide

/-- Destination 2 or the exit flag, ADD of r0 and r0. -/
theorem test_decode_suffix_rows :
    Decode.decode (.mme 0x00000280) = .load (.reg .add 0 0) true 2 ∧
    Decode.decode (.mme 0x00000210) = .move (.reg .add 0 0) false 2 ∧
    Decode.decode (.mme 0x00000220) = .movsm (.reg .add 0 0) false 2 ∧
    Decode.decode (.mme 0x00000230) = .ldsend (.reg .add 0 0) false 2 ∧
    Decode.decode (.mme 0x000002C0) = .mvsend (.reg .add 0 0) true 2 ∧
    Decode.decode (.mme 0x00000250) = .ldsm (.reg .add 0 0) false 2 ∧
    Decode.decode (.mme 0x00000260) = .mvsmldsend (.reg .add 0 0) false 2 ∧
    Decode.decode (.mme 0x00000270) = .mvsmsendhi (.reg .add 0 0) false 2 := by decide

theorem test_decode_pseudo_instructions :
    Decode.decode (.mme 0x00000011) = .nop ∧ Decode.decode (.mme 0x00000091) = .exit ∧
    Decode.decode (.mme 0x00000B11) = .mov 3 1 ∧ Decode.decode (.mme 0xFFFFC211) = .li 2 (-1) ∧
    Decode.decode (.mme 0x00000201) = .parm 2 ∧ Decode.decode (.mme 0x04400021) = .maddr 0x1100 ∧
    Decode.decode (.mme 0x00000841) = .send 1 ∧ Decode.decode (.mme 0x00008007) = .j 2 ∧
    Decode.decode (.mme 0x00008027) = .jNd 2 := by decide

theorem test_decode_headers :
    Decode.decode (.header 0x20014000) = .inc 0 2 1 ∧ Decode.decode (.header 0x60032080) = .noninc 0x80 1 3 ∧
    Decode.decode (.header 0x9FFFFFFE) = .imm 0x1FFE 7 0x1FFF ∧
    Decode.decode (.header 0xA0036100) = .oneinc 0x100 3 3 ∧
    Decode.decode (.header 0x12345678) = .reservedMode0 ∧ Decode.decode (.header 0x40000100) = .reservedMode2 ∧
    Decode.decode (.header 0xC0010100) = .reservedMode6 ∧ Decode.decode (.header 0xE0000000) = .reservedMode7 := by
  decide

theorem test_decode_data_and_length :
    Decode.decode (.data 0x20014000) = .data 0x20014000 ∧ Decode.decode (.length 0xFF000010) = .length 0x10 := by
  decide

theorem test_decode_methods :
    Decode.decode (.call ⟨0, 0xB197, 2, 1⟩) = .bindChannel 2 0xB197 ∧
    Decode.decode (.call ⟨0x44, 1, 0, 0⟩) = .waitForIdle 1 ∧
    Decode.decode (.call ⟨0x45, 1, 0, 0⟩) = .setMacroUploadAddress 1 ∧
    Decode.decode (.call ⟨0x46, 1, 0, 0⟩) = .sendMacroCodeData 1 ∧
    Decode.decode (.call ⟨0x47, 1, 0, 0⟩) = .setMacroBindingIndex 1 ∧
    Decode.decode (.call ⟨0x48, 1, 0, 0⟩) = .bindMacro 1 ∧
    Decode.decode (.call ⟨0x49, 1, 0, 0⟩) = .setMmeShadowRamControl 1 ∧
    Decode.decode (.call ⟨0x5F, 7, 4, 1⟩) = .fifoOther 0x5F 7 ∧
    Decode.decode (.call ⟨0x60, 7, 4, 1⟩) = .registerMethod 4 0x60 7 ∧
    Decode.decode (.call ⟨0xDFF, 7, 4, 1⟩) = .registerMethod 4 0xDFF 7 ∧
    Decode.decode (.call ⟨0x1FFE, 7, 4, 1⟩) = .macroStart 4 0x1FFE 7 1 ∧
    Decode.decode (.call ⟨0xE05, 7, 4, 1⟩) = .macroArgument 4 0xE05 7 1 := by decide

/-- 95_test_vectors.md section 2. -/
theorem test_decode_entries :
    Decode.decode (.entry 0x0000070000002003) = .queueEntry false 1 0x800 ∧
    Decode.decode (.entry 0x8000080000001000) = .queueEntry true 2 0x400 ∧
    Decode.decode (.entry 0x7FFFFCFFFFFFFFFC) = .queueEntry false 0x1FFFFF 0x3FFFFFFFFF := by decide

theorem test_table_word_of_each_width :
    decodeTableWord 64 0x8000080000001000 = some (.queueEntry true 2 0x400) ∧
    decodeTableWord 32 0x41088B12 = some (.bfi .move false 3 1 2 4 4 8) ∧
    decodeTableWord 32 0x20020040 = some (.inc 0x40 0 2) ∧ decodeTableWord 32 0x46 = some (.sendMacroCodeData 0) := by
  decide

/-! ### ALU operations: 95_test_vectors.md section 9 -/

theorem test_add_carries_out :
    after resultAndCarry (step (running 0x00008B10 0xFFFFFFFF 1 false)) = some (0, true) := by decide

theorem test_add_clears_carry : after resultAndCarry (step (running 0x00008B10 0 0 true)) = some (0, false) := by decide

theorem test_addc_adds_carry :
    after resultAndCarry (step (running 0x00028B10 0xFFFFFFFF 0xFFFFFFFF true)) = some (0xFFFFFFFF, true) := by decide

theorem test_addc_takes_carry_in : after resultAndCarry (step (running 0x00028B10 0 0 true)) = some (1, false) := by
  decide

theorem test_sub_without_borrow : after resultAndCarry (step (running 0x00048B10 5 3 false)) = some (2, true) := by
  decide

theorem test_sub_borrows : after resultAndCarry (step (running 0x00048B10 3 5 true)) = some (0xFFFFFFFE, false) := by
  decide

theorem test_subb_takes_borrow_in :
    after resultAndCarry (step (running 0x00068B10 3 3 false)) = some (0xFFFFFFFF, false) := by decide

theorem test_subb_without_borrow_in : after resultAndCarry (step (running 0x00068B10 5 3 true)) = some (2, true) := by
  decide

theorem test_xor_keeps_carry :
    after resultAndCarry (step (running 0x00108B10 0xF0F0 0x0FF0 true)) = some (0xFF00, true) := by decide

theorem test_or : after resultAndCarry (step (running 0x00128B10 0xF000 0xF false)) = some (0xF00F, false) := by decide

theorem test_and : after resultAndCarry (step (running 0x00148B10 0xFF00 0xFF0 false)) = some (0xF00, false) := by
  decide

theorem test_andn : after resultAndCarry (step (running 0x00168B10 0xFF00 0xFF0 false)) = some (0xF000, false) := by
  decide

theorem test_nand_keeps_carry :
    after resultAndCarry (step (running 0x00188B10 0 0 true)) = some (0xFFFFFFFF, true) := by decide

theorem test_addi_subtracts : after resultAndCarry (step (running 0xFFFF4B11 10 0 true)) = some (7, true) := by decide

theorem test_addi_wraps_without_carry :
    after resultAndCarry (step (running 0x00004B11 0xFFFFFFFF 0 false)) = some (0, false) := by decide

theorem test_bfi_replaces_a_field :
    after resultAndCarry (step (running 0x41088B12 0xFFFFFFFF 0xAB true)) = some (0xFFFFFAFF, true) := by decide

theorem test_bfi_is_cut_at_bit_31 :
    after resultAndCarry (step (running 0xE2008B12 0 0xFF true)) = some (0xF0000000, true) := by decide

theorem test_bfeli_extracts :
    after resultAndCarry (step (running 0x82008B13 4 0xAB0 true)) = some (0x00AB0000, true) := by decide

theorem test_bfeli_takes_five_bits :
    after resultAndCarry (step (running 0x02008B13 32 0xAB true)) = some (0xAB, true) := by decide

theorem test_bfelr_extracts :
    after resultAndCarry (step (running 0x02088B14 8 0x1234 true)) = some (0x2300, true) := by decide

theorem test_bfelr_takes_five_bits :
    after resultAndCarry (step (running 0x02088B14 36 0x1234 true)) = some (0x230, true) := by decide

theorem test_read_takes_the_last_register :
    after resultAndCarry (exec (.read .move false 3 1 0xDF6) (assigning 0)) = some (9, false) := by decide

theorem test_read_range : after State.fault (step (running 0xFFFFCB15 0 0 false)) =
    some (some { kind := .regReadRange, info := 0xFFFFFFFF }) := by decide

theorem test_reserved_operations_fault :
    after State.fault (step (running 0x00088B10 1 2 false)) = some (some ⟨.aluReserved, 0x00088B10⟩) ∧
    after State.fault (step (running 0x001A8B10 1 2 false)) = some (some ⟨.aluReserved, 0x001A8B10⟩) ∧
    after State.fault (step (running 0x001E8B10 1 2 false)) = some (some ⟨.aluReserved, 0x001E8B10⟩) ∧
    after State.fault (step (running 0x003E8B10 1 2 false)) = some (some ⟨.aluReserved, 0x003E8B10⟩) ∧
    after State.fault (step (running 0x00000006 1 2 false)) = some (some ⟨.aluReserved, 6⟩) := by decide

/-- R263: the sources are read before the destination is written. -/
theorem test_destination_equal_to_source :
    after (fun t => t.gpr 1) (step (running 0x00004990 0x40000000 0 true)) = some 0x80000000 := by decide

/-! ### Assignment suffixes: 95_test_vectors.md section 10 -/

theorem test_load_discards_the_result :
    after assignment (exec (.load (.addi 1 1) false 2) (assigning 0)) = some (5, 0x100, 1, [6], []) := by decide

theorem test_move_keeps_the_arguments :
    after assignment (exec (.move (.addi 1 1) false 2) (assigning 0)) = some (0xA, 0x100, 1, [5, 6], []) := by decide

theorem test_movsm_sets_the_method_address :
    after assignment (exec (.movsm (.addi 0 0x2150) false 2) (assigning 0)) = some (0x2150, 0x150, 2, [5, 6], []) := by
  decide

theorem test_ldsend_sends_the_result :
    after assignment (exec (.ldsend (.addi 1 1) false 2) (assigning 0)) =
      some (5, 0x101, 1, [6], [.regWrite 0 0x100 0xA .mme]) := by decide

theorem test_mvsend_sends_the_result :
    after assignment (exec (.mvsend (.addi 1 1) false 2) (assigning 0)) =
      some (0xA, 0x101, 1, [5, 6], [.regWrite 0 0x100 0xA .mme]) := by decide

theorem test_ldsm_fetches_and_sets_the_method_address :
    after assignment (exec (.ldsm (.addi 0 0x1200) false 2) (assigning 0)) = some (5, 0x200, 1, [6], []) := by decide

theorem test_mvsmldsend_sends_the_argument :
    after assignment (exec (.mvsmldsend (.addi 0 0x1300) false 2) (assigning 0)) =
      some (0x1300, 0x301, 1, [6], [.regWrite 0 0x300 5 .mme]) := by decide

theorem test_mvsmldsend_without_argument :
    after assignment (step (running 0x04C002E1 9 0 false)) =
      some (0x1300, 0x301, 1, [], [.diag .argUnderflow 0, .regWrite 0 0x300 0 .mme]) := by decide

theorem test_mvsmsendhi_sends_the_increment :
    after assignment (exec (.mvsmsendhi (.addi 0 0x2150) false 2) (assigning 0)) =
      some (0x2150, 0x152, 2, [5, 6], [.regWrite 0 0x150 2 .mme]) := by decide

theorem test_send_range_fault :
    after State.fault (exec (.send 1) { assigning 0 with methAddr := 0xE00 }) =
      some (some ⟨.regWriteRange, 0xE00⟩) := by decide

/-! ### Branches and pseudo-instructions: 95_test_vectors.md section 11 -/

theorem test_bz_taken : after sequencer (step (running 0x0000C807 0 0 false)) = some (3, 0, .run .immediate) := by
  decide

theorem test_bz_not_taken_stops :
    after sequencer (step (running 0x0000C887 5 0 false)) = some (2, 0, .last .immediate) := by
  decide

theorem test_bnz_taken_ignores_exit :
    after sequencer (step (running 0x0000C897 5 0 false)) = some (3, 0, .run .immediate) := by decide

theorem test_bnz_r0_never_taken :
    after sequencer (step (running 0x0000C017 5 0 false)) = some (2, 0, .run .immediate) := by
  decide

theorem test_bz_nd_fetches_its_target :
    after sequencer (step { running 0x0000C827 0 0 false with macroMem := [(1, 0x11), (3, 0x91)] }) =
      some (4, 0x91, .run .immediate) := by decide

theorem test_bnz_nd_target_out_of_range :
    after State.fault (step (running 0xFFFFC837 5 0 false)) = some (some ⟨.macroFetchRange, -1⟩) := by decide

theorem test_nop_keeps_registers :
    after (fun t => (t.gprs, t.carry)) (step (running 0x00000011 4 5 true)) =
      some (#v[0, 4, 5, 0, 0, 0, 0, 0], true) := by
  decide

theorem test_exit_leaves_one_step :
    after sequencer (step (running 0x00000091 0 0 false)) = some (2, 0, .last .immediate) := by
  decide

theorem test_mov : after resultAndCarry (step (running 0x00000B11 4 5 true)) = some (4, true) := by decide

theorem test_li_sign_extends :
    after (fun t => t.gpr 2) (step (running 0xFFFFC211 0 0 false)) = some 0xFFFFFFFF := by decide

theorem test_parm_takes_the_next_argument :
    after assignment (step (assigning 0x00000201)) = some (5, 0x100, 1, [6], []) := by decide

theorem test_maddr : after assignment (step (assigning 0x04400021)) = some (0, 0x100, 1, [5, 6], []) := by decide

theorem test_send : after assignment (step (assigning 0x00000841)) =
    some (0, 0x101, 1, [5, 6], [.regWrite 0 0x100 9 .mme]) := by decide

theorem test_j : after sequencer (step (running 0x00008007 0 0 false)) = some (2, 0, .run .immediate) := by decide

theorem test_j_nd : after sequencer (step { running 0x00008027 0 0 false with macroMem := [(2, 0x91)] }) =
    some (3, 0x91, .run .immediate) := by decide

/-! ### Command words: rule examples and 95_test_vectors.md sections 1 and 4 -/

theorem test_inc : after dma (step (pushing 0 0x20020040)) = some (0x40, 0, 2, false, false) := by decide

theorem test_noninc : after dma (step (pushing 0 0x60032080)) = some (0x80, 1, 3, true, false) := by decide

theorem test_oneinc : after dma (step (pushing 0 0xA0036100)) = some (0x100, 3, 3, false, true) := by decide

theorem test_imm_makes_its_call :
    after State.phase (step (pushing 0 0x80100045)) = some (.call ⟨0x45, 0x10, 0, 0⟩ .immediate) := by decide

theorem test_reserved_headers_are_consumed :
    after State.pos (step (pushing 0 0x00000000)) = some 1 ∧ after State.pos (step (pushing 0 0x40000100)) = some 1 ∧
    after State.pos (step (pushing 0 0xC0010100)) = some 1 ∧
    after State.pos (step (pushing 0 0xE0000000)) = some 1 := by decide

theorem test_reserved_header_loads_nothing :
    after dma (step (pushing 0 0x40010200)) = some (0x100, 0, 0, false, false) := by decide

theorem test_data_word_makes_its_call :
    after State.phase (step (pushing 3 0x80100045)) = some (.call ⟨0x100, 0x80100045, 0, 3⟩ .dataWord) := by decide

theorem test_length_word :
    after (fun t => (t.lengthPending, t.methodCount)) (step { pushing 0 0xFF000010 with lengthPending := true }) =
      some (false, 0x10) := by decide

/-! ### Methods: 95_test_vectors.md sections 5 to 8 -/

theorem test_bind_channel :
    after (fun t => ((t.sub 2).cls, t.fifoReg 0, t.trace)) (step (calling 0 0xB197 2 1 State.reset)) =
      some (0xB197, 0, [.bind 2 0xB197]) := by decide

theorem test_wait_for_idle :
    after (fun t => (t.fifoReg 0x44, t.trace)) (step (calling 0x44 1 0 0 State.reset)) =
      some (1, [.fifoWrite 0x44 1]) := by decide

theorem test_set_macro_upload_address :
    after State.uploadAddr (step (calling 0x45 0x10 0 0 State.reset)) = some 0x10 := by decide

theorem test_send_macro_code_data :
    after (fun t => (t.code 0x3FFFF, t.uploadAddr))
      (step (calling 0x46 0x91 0 2 { State.reset with uploadAddr := 0x3FFFF })) =
      some (0x91, 0x40000) := by decide

theorem test_upload_range :
    after (fun t => (t.fault, t.trace)) (step (calling 0x46 0x11 0 1 { State.reset with uploadAddr := 0x40000 })) =
      some (some ⟨.uploadRange, 0x40000⟩, [.fifoWrite 0x46 0x11]) := by decide

theorem test_set_macro_binding_index :
    after State.bindIndex (step (calling 0x47 5 0 0 State.reset)) = some 5 := by decide

theorem test_bind_macro :
    after (fun t => (t.slot 5, t.bindIndex)) (step (calling 0x48 0x10 0 0 { State.reset with bindIndex := 5 })) =
      some ({ Slot.empty with bound := true, startPosition := 0x10 }, 6) := by decide

theorem test_bind_index_range :
    after State.fault (step (calling 0x48 0 0 0 { State.reset with bindIndex := 128 })) =
      some (some ⟨.bindIndexRange, 128⟩) := by decide

theorem test_set_shadow_ram_control :
    after State.shadowMode (step (calling 0x49 4 0 0 State.reset)) = some 4 := by decide

theorem test_fifo_other :
    after (fun t => (t.fifoReg 0x5F, t.trace)) (step (calling 0x5F 7 4 1 State.reset)) =
      some (7, [.fifoWrite 0x5F 7]) := by decide

theorem test_register_method_tracks :
    after (fun t => (t.reg 4 0xDFF, t.shadow 4 0xDFF, t.trace)) (step (calling 0xDFF 7 4 1 State.reset)) =
      some (7, 7, [.regWrite 4 0xDFF 7 .pusher]) := by decide

theorem test_register_method_replays :
    after (fun t => (t.reg 0 0x100, t.trace)) (step (calling 0x100 11 0 0 { assigning 0 with shadowMode := 3 })) =
      some (7, [.regWrite 0 0x100 7 .pusher]) := by decide

theorem test_macro_argument_without_start :
    after (fun t => ((t.slot 0).argFifo, t.trace)) (step (calling 0xE01 4 0 0 (bound 0 [] false))) =
      some ([4], [.deferredDraws]) := by decide

theorem test_macro_argument_to_an_unbound_slot :
    after State.fault (step (calling 0xE03 4 0 0 (bound 0 [] false))) = some (some ⟨.slotUnbound, 1⟩) := by decide

theorem test_macro_start_runs :
    after (fun t => (t.gprs, sequencer t))
      (step (calling 0xE00 7 0 0 { bound 0x10 [] false with macroMem := [(0x10, 0x91)] })) =
      some (#v[0, 7, 0, 0, 0, 0, 0, 0], 0x11, 0x91, .run .immediate) := by decide

theorem test_macro_start_waits :
    after (fun t => (t.slot 0).pendingArgument) (step (calling 0xE00 1 0 2 (bound 0x10 [] false))) = some 1 := by decide

/-! ### Entries: 95_test_vectors.md sections 2 and 3 -/

theorem test_entry_before_a_barrier_is_read :
    after (fun t => (t.queue.map (·.words), t.trace))
      (step { entering [0x0000040000001000] true with
        gpuMem := [(0x1000, 0x45), (0x1001, 0), (0x1002, 0x10), (0x1003, 0x80)] }) =
      some ([some [0x80100045]], [.memRead 0x1000 4]) := by decide

theorem test_no_prefetch_entry_ends_prefetching :
    after (fun t => (t.queue.map (·.words), t.producers.map (·.beforeBarrier)))
      (step (entering [0x8000080000001000] true)) = some ([none], [false]) := by decide

/-- 60_exceptions.md R301: a push after a fault changes nothing observable. -/
theorem test_entry_after_a_fault_is_not_read :
    after (fun t => (t.queue.map (·.words), t.trace))
      (step { entering [0x0000040000001000] true with
        fault := some ⟨.slotUnbound, 1⟩, turns := [.producer 0] }) = some ([none], []) := by decide

/-- 92_eei_decisions.md D38: pushes at boundaries of pusher steps only. -/
theorem test_producers_wait_for_the_macro :
    after (fun t => (t.gpr 3, t.queue.length, t.turns))
      (step { running 0x00008B10 1 2 false with
        turns := [.producer 0], producers := [⟨[0x0000040000001000], true, []⟩] }) =
      some (3, 0, [.producer 0]) := by decide

/-- The tables of 60_exceptions.md R302 and R303. -/
theorem test_fault_and_diagnostic_codes :
    [FaultKind.aluReserved, .macroFetchRange, .regReadRange, .regWriteRange, .shadowModeReserved, .uploadRange,
      .bindIndexRange, .slotUnbound].map FaultKind.code = [1, 2, 3, 4, 5, 6, 7, 8] ∧
    DiagKind.argUnderflow.code = 1 := by decide

/-! ### The next step runs a placed object -/

theorem test_placed_words_run :
    after (fun t => t.gpr 3) (step (State.reset.withFetchWord 32 0x00004B11)) = some 1 ∧
    after dma (step (State.reset.withFetchWord 32 0x20020040)) = some (0x40, 0, 2, false, false) ∧
    after State.trace (step (State.reset.withFetchWord 32 0x44)) = some [.fifoWrite 0x44 0] ∧
    after (fun t => t.queue.length) (step (State.reset.withFetchWord 64 0x8000080000001000)) = some 1 := by decide

/-! ### Witnesses: the hypotheses of every statement can hold, at the boundaries of its clauses -/

theorem test_witness_DecodingAnEncodedInstructionGivesItBack :
    (Instr.add .move false 3 1 2).wf = true ∧ (Instr.macroStart 4 0x1FFE 7 1).wf = true ∧
    (Instr.fifoOther 0x5F 1).wf = true ∧ (Instr.registerMethod 0 0xDFF 1).wf = true := by decide

theorem test_witness_MacroStepRunsThePipelineWord :
    ((running 0x00008B10 1 2 false).fault = none ∧ (running 0x00008B10 1 2 false).phase = .run .immediate ∧
      InCode (running 0x00008B10 1 2 false).pc ∧ Decode.decode (.mme (running 0x00008B10 1 2 false).pipeOp) =
      .add .move false 3 1 2 ∧ (Instr.add .move false 3 1 2).wf = true) ∧
    ({ running 0x11 1 2 false with phase := .last .dataWord, pc := 262143, turns := [.producer 0] }.fault = none ∧
      InCode 262143) := by decide

theorem test_witness_LookAheadOutsideCodeMemoryFaults :
    ({ running 0x11 1 2 false with pc := 262144 }.fault = none ∧ ¬InCode 262144) ∧
    ({ running 0x11 1 2 false with phase := .last .dataWord, pc := -1, turns := [.producer 0] }.fault = none ∧
      ¬InCode (-1)) := by decide

theorem test_witness_PusherStepConsumesOneWord :
    AgentMoves (pushing 3 7) ∧ (pushing 3 7).phase = .pusher ∧ (pushing 3 7).cur = some (hostBuffer [7]) ∧
    (hostBuffer [7]).words = some [7] ∧ (pushing 3 7).pos < (hostBuffer [7]).count ∧ ([7] : List Word)[0]? = some 7 ∧
    Decode.decode (.data 7) = .data 7 ∧ (Instr.data 7).wf = true := by decide

theorem test_witness_PusherStepActivatesTheNextBuffer :
    (AgentMoves State.reset ∧ State.reset.phase = .pusher ∧ State.reset.cur = none ∧ (hostBuffer [7]).words ≠ none) ∧
    ({ pushing 0 7 with pos := 1 }.phase = .pusher ∧ (hostBuffer [7]).count ≤ { pushing 0 7 with pos := 1 }.pos ∧
      (entryBuffer true 1 0).words = none) := by decide

theorem test_witness_CallStepRunsTheRoutedMethod :
    (calling 0x44 1 0 0 State.reset).fault = none ∧
    (calling 0x44 1 0 0 State.reset).phase = .call ⟨0x44, 1, 0, 0⟩ .immediate ∧
    Decode.decode (.call ⟨0x44, 1, 0, 0⟩) = .waitForIdle 1 ∧ (Instr.waitForIdle 1).wf = true := by decide

theorem test_witness_ProducerStepPushesItsNextEntry :
    { entering [0x8000080000001000] true with turns := [.producer 0] }.phase = .pusher ∧
    { entering [0x8000080000001000] true with
      turns := [.producer 0], phase := .run .immediate, fault := some ⟨.slotUnbound, 1⟩ }.fault ≠ none ∧
    (entering [0x8000080000001000] true).producers[0]? = some ⟨[0x8000080000001000], true, []⟩ ∧
    Decode.decode (.entry 0x8000080000001000) = .queueEntry true 2 0x400 ∧
    (Instr.queueEntry true 2 0x400).wf = true := by
  decide

theorem test_witness_ProducerStepMakesItsNextCall (c : HostCall) :
    ∃ s : State, (s.phase = .pusher ∨ s.fault ≠ none) ∧ s.turns = [.producer 0] ∧
      s.producers[0]? = some ⟨[], true, [c]⟩ :=
  ⟨{ State.reset with turns := [.producer 0], producers := [⟨[], true, [c]⟩] }, .inl rfl, rfl, rfl⟩

theorem test_witness_IdleAgentLeavesTheStepToTheProducers :
    (State.reset.fault = none ∧ State.reset.phase = .pusher ∧ State.reset.cur = none ∧ State.reset.queue = [] ∧
      State.reset.turns = [] ∧ State.reset.producers = []) ∧
    ((entering [1] true).queue = [] ∧ (entering [1] true).turns = [] ∧
      (entering [1] true).producers[0]? = some ⟨[1], true, []⟩) ∧
    { State.reset with turns := [.agent] }.turns = [.agent] := by decide

theorem test_witness_AddThenAddcIsSixtyFourBitAddition (k : After) :
    ∃ t u, exec (.add .move false 5 1 3) { running 0 0xFFFFFFFF 1 false with phase := .run k } = .next t ∧
      exec (.addc .move false 6 2 4) t = .next u ∧ { running 0 0 0 false with phase := .run k }.phase = .run k :=
  ⟨_, _, rfl, rfl, rfl⟩

theorem test_witness_SubThenSubbIsSixtyFourBitSubtraction (k : After) :
    ∃ t u, exec (.sub .move false 5 1 3) { running 0 0 1 false with phase := .run k } = .next t ∧
      exec (.subb .move false 6 2 4) t = .next u ∧ { running 0 0 1 false with phase := .run k }.phase = .run k :=
  ⟨_, _, rfl, rfl, rfl⟩

theorem test_witness_ReadTakesTheSinkRegisterOrFaults :
    (BitVec.ofInt 32 (((running 0 0xE00 0 false).gpr 1).toNat + (-1 : BitVec 18).toInt)).toNat = 0xDFF ∧
    (BitVec.ofInt 32 (((running 0 0xE00 0 false).gpr 1).toNat + (0 : BitVec 18).toInt)).toNat = 0xE00 ∧
    (BitVec.ofInt 32 (((running 0 0 0 false).gpr 1).toNat + (-1 : BitVec 18).toInt)).toNat = 0xFFFFFFFF := by decide

theorem test_witness_ReservedOperationsFaultWithTheirWord :
    (6 : Word).toNat % 8 = 6 ∧ (0x00088B10 : Word).toNat % 8 = 0 ∧ (0x00088B10 : Word).toNat / 2 ^ 17 % 32 = 4 ∧
    (0x000E8B10 : Word).toNat / 2 ^ 17 % 32 = 7 ∧ (0x001A8B10 : Word).toNat / 2 ^ 17 % 32 = 13 ∧
    (0x003E8B10 : Word).toNat / 2 ^ 17 % 32 = 31 := by decide

/-- With an argument waiting and with none. -/
theorem test_witness_LoadAndLdsmTakeTheNextArgument :
    (∃ r s', aluStage (.addi 1 1) (assigning 0) = .ok (r, s') ∧ (s'.slot s'.slotId).argFifo = [5, 6]) ∧
    (∃ r s', aluStage (.addi 1 1) (running 0 0 0 true) = .ok (r, s') ∧ (s'.slot s'.slotId).argFifo = []) :=
  ⟨⟨_, _, rfl, by decide⟩, ⟨_, _, rfl, by decide⟩⟩

theorem test_witness_MoveAndMovsmKeepTheResult :
    ∃ r s', aluStage (.read 1 0xDF6) (assigning 0) = .ok (r, s') := ⟨_, _, rfl⟩

theorem test_witness_MvsendAndLdsendSendTheResult :
    ∃ r s', aluStage (.addi 1 1) { assigning 0 with methAddr := 0xDFF, shadowMode := 3 } = .ok (r, s') ∧
      Writable s' s'.methAddr := ⟨_, _, rfl, by decide⟩

theorem test_witness_MvsmldsendAndMvsmsendhiSendToTheNewAddress :
    ∃ r s', aluStage (.addi 0 0x1DFF) (assigning 0) = .ok (r, s') ∧ r.toNat % 4096 = 0xDFF ∧
      Writable s' (BitVec.ofNat 32 (r.toNat % 4096)) := ⟨_, _, rfl, by decide, by decide⟩

theorem test_witness_SendFaultsKeepEarlierEffects :
    (∃ r s', aluStage (.addi 0 0x1E00) { assigning 0 with methAddr := 0xE00 } = .ok (r, s') ∧
      ¬Writable s' s'.methAddr ∧ ¬Writable s' (BitVec.ofNat 32 (r.toNat % 4096))) ∧
    (∃ r s', aluStage (.addi 1 1) { assigning 0 with shadowMode := 4 } = .ok (r, s') ∧ ¬Writable s' s'.methAddr) :=
  ⟨⟨_, _, rfl, by decide, by decide⟩, ⟨_, _, rfl, by decide⟩⟩

theorem test_witness_UntakenBranchesHonourTheirExitFlag :
    (running 0 5 0 false).gpr 1 ≠ 0 ∧ (running 0 5 0 false).gpr 0 = 0 := by decide

theorem test_witness_TakenDelayedBranchesSetTheFetchPointer :
    (running 0 0 5 false).gpr 1 = 0 ∧ (running 0 0 5 false).gpr 2 ≠ 0 := by decide

/-- The target at both ends of macro code memory and just outside. -/
theorem test_witness_TakenNoDelayBranchesFetchTheirTarget :
    (running 0 0 5 false).gpr 1 = 0 ∧ { running 0 0 5 false with pc := 2 }.pc - 2 + (0 : BitVec 18).toInt = 0 ∧
    { running 0 0 5 false with pc := 2 }.pc - 2 + (-1 : BitVec 18).toInt = -1 ∧
    { running 0 0 5 false with pc := 262144 }.pc - 2 + (1 : BitVec 18).toInt = 262143 ∧
    { running 0 0 5 false with pc := 262144 }.pc - 2 + (2 : BitVec 18).toInt = 262144 := by decide

theorem test_witness_DelaySlotRunsBeforeTheTarget :
    ((running 0x0000C887 0 0 false).fault = none ∧ (running 0x0000C887 0 0 false).phase = .run .immediate ∧
      InCode (running 0x0000C887 0 0 false).pc ∧ Decode.decodeMacroCore 0x0000C887 = .bz true 1 3 ∧
      (running 0x0000C887 0 0 false).gpr 1 = 0 ∧
      InCode ((running 0x0000C887 0 0 false).pc - 1 + (3 : BitVec 18).toInt)) ∧
    (Decode.decodeMacroCore 0x0000C897 = .bnz true 1 3 ∧ (running 0x0000C897 5 0 false).gpr 1 ≠ 0 ∧
      (running 0x0000C897 5 0 false).phase = .run .immediate ∧ (running 0x0000C897 5 0 false).fault = none) := by decide

/-- The first clause with an operation and with a branch not taken, the second with a branch as the last word, the third
at the end of macro code memory. -/
theorem test_witness_ExitRunsOneMoreWordThenEnds :
    (let s := { running 0x00000A91 0 0 false with pc := 1, macroMem := [(1, 0x00000A11)] };
      s.fault = none ∧ s.phase = .run .immediate ∧ InCode s.pc ∧ ExitCounts s s.pipeOp ∧
      after State.fault (step s) = some none ∧ InCode (s.pc + 1)) ∧
    (let s := running 0x0000C887 5 0 false;
      ExitCounts s s.pipeOp ∧ after State.fault (step s) = some none) ∧
    (let s := { running 0x0000C887 0 0 false with phase := .last .dataWord };
      isMacroRow (.bz true 1 3) = true ∧ after State.fault (exec (.bz true 1 3) s) = some none) ∧
    (let s := { running 0x91 0 0 false with pc := 262142, macroMem := [(262142, 0x11)] };
      s.fault = none ∧ s.phase = .run .immediate ∧ InCode s.pc ∧ InCode (s.pc + 1) ∧ s.pipeOp = 0x91 ∧
      s.code s.pc.toNat = 0x11) := by decide

theorem test_witness_PseudoInstructionsHaveTheirEffects : Writable (assigning 0) (assigning 0).methAddr := by decide

theorem test_witness_ReservedHeadersChangeNothing :
    AgentMoves (pushing 0 0xE0000000) ∧ (pushing 0 0xE0000000).phase = .pusher ∧
    (pushing 0 0xE0000000).cur = some (hostBuffer [0xE0000000]) ∧ (pushing 0 0xE0000000).lengthPending = false ∧
    (pushing 0 0xE0000000).methodCount = 0 ∧ (0xE0000000 : Word).toNat / 2 ^ 29 ∈ [0, 2, 6, 7] ∧
    (0x1FFFFFFF : Word).toNat / 2 ^ 29 ∈ [0, 2, 6, 7] := by decide

/-- INC up to the last register, and NONINC at it in mode 3 with two words. -/
theorem test_witness_DataWordsWriteTheirRegistersInOrder :
    let s := { State.reset with cur := some (hostBuffer [1, 2, 3]), pos := 1, method := 0xDFE, methodCount := 2 }
    (Undisturbed s ∧ s.phase = .pusher ∧ s.lengthPending = false ∧ s.cur = some (hostBuffer [1, 2, 3]) ∧
      ([1, 2, 3] : List Word).drop s.pos = [2, 3] ++ [] ∧ s.methodCount.toNat = ([2, 3] : List Word).length ∧
      s.incrementOnce = false ∧ 0x60 ≤ s.method.toNat ∧ s.method.toNat + ([2, 3] : List Word).length ≤ 0xE00 ∧
      s.shadowMode.toNat ≤ 3 ∧ Memory.rising (s.sub s.subChannel).regs) ∧
    (let u := { s with method := 0xDFF, nonIncrementing := true, shadowMode := 3 };
      0x60 ≤ u.method.toNat ∧ u.method.toNat + 1 ≤ 0xE00 ∧ u.shadowMode.toNat ≤ 3) := by decide

theorem test_witness_FifoChannelWritesStoreAndSet :
    (∃ c : Word → Code, ∀ k, c k = .call { method := k, argument := 7, subChannel := 0, remainingCount := 1 }) ∧
    (∃ f : Word → State, ∀ k, f k = { State.reset with
      fifoRegs := Memory.setWord State.reset.fifoRegs k.toNat 7, trace := State.reset.trace ++ [.fifoWrite k 7] }) ∧
    (0 < (1 : Word).toNat ∧ (0x5F : Word).toNat < 0x60 ∧ (0x43 : Word).toNat < 0x44 ∧ 0x49 < (0x4A : Word).toNat) :=
  ⟨⟨_, fun _ => rfl⟩, ⟨_, fun _ => rfl⟩, by decide⟩

theorem test_witness_CodeUploadStoresOneWord :
    Memory.rising [(3, (0x91 : Word))] ∧ (0x3FFFF : Word).toNat < 262144 ∧ 262144 ≤ (0x40000 : Word).toNat := by decide

theorem test_witness_BindMacroRecreatesTheSlot : (127 : Word).toNat < 128 ∧ 128 ≤ (128 : Word).toNat := by decide

theorem test_witness_RegisterMethodWritesItsRegister :
    0x60 ≤ (0x60 : Word).toNat ∧ (0xDFF : Word).toNat < 0xE00 ∧
    { State.reset with shadowMode := 3 }.shadowMode.toNat ≤ 3 ∧
    3 < { State.reset with shadowMode := 4 }.shadowMode.toNat := by decide

theorem test_witness_StoredWriteReadsBackInEveryMode :
    Memory.rising ((assigning 0).sub 0).regs ∧ Memory.rising ((assigning 0).sub 0).shadow ∧
    0x60 ≤ (0xDFF : Word).toNat ∧ (0xDFF : Word).toNat < 0xE00 ∧
    { assigning 0 with shadowMode := 3 }.shadowMode.toNat ≤ 3 := by decide

theorem test_witness_MacroArgumentAppendsAndTriggersOnTheLastCall :
    (0 : SlotIx) = BitVec.ofNat 7 ((0xE01 : Word).toNat / 2) ∧ ((bound 0 [] true).slot 0).bound = true ∧
    1 < (2 : Word).toNat ∧ (1 : Word).toNat ≤ 1 := by decide

theorem test_witness_MacroStartMakesPendingAndTriggersOnTheLastCall :
    (0 : SlotIx) = BitVec.ofNat 7 ((0xE00 : Word).toNat / 2) ∧
    (((bound 0x3FFFF [] false).slot 0).bound = true ∧ ((bound 0x3FFFF [] false).slot 0).startPosition.toNat < 262144) ∧
    (((bound 0x40000 [] false).slot 0).bound = true ∧
      262144 ≤ ((bound 0x40000 [] false).slot 0).startPosition.toNat) := by
  decide

theorem test_witness_MacroMethodToAnUnboundSlotFaults :
    (1 : SlotIx) = BitVec.ofNat 7 ((0xE03 : Word).toNat / 2) ∧ ((bound 0 [] true).slot 1).bound = false := by decide

theorem test_witness_EntryPushDecodesPrefetchesAndAppends :
    ((entering [] true).producers[(entering [] true).pushing]? = some ⟨[], true, []⟩ ∧
      (entering [] true).fault = none) ∧
    (entering [] false).producers[(entering [] false).pushing]? = some ⟨[], false, []⟩ ∧
    { entering [] true with fault := some ⟨.slotUnbound, 1⟩ }.fault ≠ none := by decide

theorem test_witness_FetchedWordsAreLittleEndian :
    ∀ k, k < 4 * 1 → Memory.lookup [(8, (1 : Byte)), (9, 1), (10, 1), (11, 1)] (8 + k) = some 1 := by decide

theorem test_witness_TraceOnlyGrows :
    ∃ t, step (calling 0x44 1 0 0 State.reset) = .next t ∧ t.trace ≠ [] := ⟨_, rfl, by decide⟩

/-- A state with a host at work has the invariant and makes a step. -/
theorem test_witness_EveryStepKeepsTheInvariant :
    StateInv (entering [0x8000080000001000] true) ∧
    ∃ t, step (entering [0x8000080000001000] true) = .next t ∧ t ≠ entering [0x8000080000001000] true := by
  have nil : ∀ sc, (entering [0x8000080000001000] true).sub sc = { cls := 0, regs := [], shadow := [] } := by decide
  refine ⟨⟨fun sc => ?_, fun sc => ?_, by decide, by decide, by decide, rfl, rfl, by decide, fun i _ => ?_,
    fun b hb => ?_, fun b hb => ?_, by decide, ?_, ?_⟩, _, rfl, fun h => ?_⟩
  · rw [nil]; exact Memory.wordsWf_nil _
  · rw [nil]; exact Memory.wordsWf_nil _
  · revert i; decide
  · cases hb
  · cases hb
  · rintro ⟨h, -⟩; exact absurd rfl h
  · rintro ⟨k, h | h⟩ <;> cases h
  · have := congrArg (fun s => s.queue.length) h; revert this; decide

theorem test_witness_ResetHasTheInvariant : ParamsWf Params.standard :=
  ⟨by decide, by decide, by decide⟩

theorem test_witness_ResetLeavesTheStatedValues : State.reset = State.resetWith Params.standard := rfl

/-- With no producer's turn, and with one that pushes. -/
theorem test_witness_FaultIsTerminal :
    ({ State.reset with fault := some ⟨.slotUnbound, 1⟩ }.fault = some ⟨.slotUnbound, 1⟩ ∧
      { State.reset with fault := some ⟨.slotUnbound, 1⟩ }.turns = []) ∧
    after (fun t => t.queue.length)
      (step { entering [0x0000040000001000] true with
        fault := some ⟨.slotUnbound, 1⟩, turns := [.producer 0] }) = some 1 := by decide

theorem test_witness_MacroInstructionsReachOnlyTheirSinkAndSlot :
    isMacroRow (.send 1) = true ∧ ∃ t, exec (.send 1) (assigning 0) = .next t := ⟨rfl, _, rfl⟩

theorem test_witness_ControlRegistersChangeOnlyByTheirMethods :
    (∃ t, exec (.setMacroUploadAddress 1) State.reset = .next t ∧ t.uploadAddr ≠ State.reset.uploadAddr) ∧
    (∃ t, exec (.bindMacro 1) State.reset = .next t ∧ t.bindIndex ≠ State.reset.bindIndex) ∧
    (∃ t, exec (.setMmeShadowRamControl 1) State.reset = .next t ∧ t.shadowMode ≠ State.reset.shadowMode) ∧
    (∃ t, exec (.bindChannel 7 1) State.reset = .next t ∧ (t.sub 7).cls ≠ (State.reset.sub 7).cls) ∧
    (∃ t, exec (.sendMacroCodeData 1) State.reset = .next t ∧ t.macroMem ≠ State.reset.macroMem) :=
  ⟨⟨_, rfl, by decide⟩, ⟨_, rfl, by decide⟩, ⟨_, rfl, by decide⟩, ⟨_, rfl, by decide⟩, ⟨_, rfl, by decide⟩⟩

theorem test_witness_CarryChangesOnlyByTheFourOperations :
    ∃ t, exec (.add .move false 3 1 2) (running 0 0xFFFFFFFF 1 false) = .next t ∧
      t.carry ≠ (running 0 0xFFFFFFFF 1 false).carry := ⟨_, rfl, by decide⟩

theorem test_witness_OnlyEntryPushesChangeTheQueue :
    ∃ t, exec (.queueEntry true 1 0) (entering [] true) = .next t ∧ t.queue ≠ (entering [] true).queue :=
  ⟨_, rfl, by decide⟩

end Sys2Proof.Tests
end

/-! PROOF. One induction over the moves of a step: what every agent's move and every object that a move runs keep, every
step keeps. -/

namespace Sys2Proof.Machine

variable {s t : State}

/-- Every state a move leads to or runs an object in satisfies `P`, and an object that is run satisfies `R` there. -/
def FetchKeeps (P : State → Prop) (R : Code → State → Prop) : Fetched → Prop
  | .run c s => P s ∧ R c s
  | .moved s => P s
  | .idle => True
  | .stopped _ _ => True
  | .noWord => True

variable {P Q : State → Prop} {R : Code → State → Prop}

theorem FetchKeeps.mono (hPQ : ∀ s, P s → Q s) {f : Fetched} (h : FetchKeeps P R f) : FetchKeeps Q R f := by
  cases f with
  | run c s => exact ⟨hPQ s h.1, h.2⟩
  | moved s => exact hPQ s h
  | idle => trivial
  | stopped kind info => trivial
  | noWord => trivial

theorem pusherFetch_keeps (hbuffer : FetchKeeps P R (nextBuffer s))
    (hword : ∀ b w, s.cur = some b → s.pos < b.count → P { s with pos := s.pos + 1 } ∧
      R (classify w s) { s with pos := s.pos + 1 }) :
    FetchKeeps P R (pusherFetch s) := by
  unfold pusherFetch
  split
  · exact hbuffer
  next b hb =>
  split
  · next hpos =>
    split
    · exact hword b _ hb hpos
    · trivial
  · exact hbuffer

theorem macroFetch_keeps (hrun : ∀ p w, P { s with pipeOp := w, pc := p } ∧
      R (.mme s.pipeOp) { s with pipeOp := w, pc := p }) (hraise : P (s.raise .macroFetchRange s.pc)) :
    FetchKeeps P R (macroFetch s) := by
  by_cases hm : 0 ≤ s.pc ∧ s.pc.toNat < Config.macroMemWords
  · rw [macroFetch_of_mem hm]; exact hrun _ _
  · rw [macroFetch_of_not_mem hm]; exact hraise

/-- The processing agent's move, by where it stands in the pusher step. -/
theorem agentFetch_keeps (hpusher : s.phase = .pusher → FetchKeeps P R (pusherFetch s))
    (hcall : ∀ c k, s.phase = .call c k → P s ∧ R (.call c) s) (hmacro : FetchKeeps P R (macroFetch s)) :
    FetchKeeps P R (agentFetch s) := by
  cases hf : s.fault with
  | some f => rw [agentFetch_of_fault hf]; trivial
  | none =>
    rw [agentFetch_of_no_fault hf]
    split
    · next hp => exact hpusher hp
    · next c k hp => exact hcall c k hp
    · exact hmacro
    · exact hmacro

/-- A producer's move: the next entry of its call, or its next call. -/
theorem hostFetch_keeps {n : Nat} (hnone : P s)
    (hentry : ∀ ps e, P { s with producers := ps, pushing := n } ∧
      R (.entry e) { s with producers := ps, pushing := n })
    (hcall : ∀ p, P (hostCall n p s)) : FetchKeeps P R (hostFetch n s) := by
  unfold hostFetch
  split
  · exact hnone
  split
  · exact hentry _ _
  · exact hcall _

/-- `P` is kept by each agent's move and by the object the move runs, for which `R` may be assumed. -/
structure StepClosed (P : State → Prop) (R : Code → State → Prop) : Prop where
  turns : ∀ s ts, P s → P { s with turns := ts }
  agent : ∀ s, P s → FetchKeeps P R (agentFetch s)
  host : ∀ n s, P s → FetchKeeps P R (hostFetch n s)
  exec : ∀ c s t, P s → R c s → Machine.exec (Decode.decode c) s = .next t → P t

namespace StepClosed

theorem nextFetch (hP : StepClosed P R) (h : P s) : FetchKeeps P R (nextFetch s) := by
  rcases nextFetch_cases s with hf | ⟨ts, hf⟩ | ⟨n, ts, hf⟩ | ⟨ts, hf⟩ | hf <;> rw [hf]
  · exact hP.agent s h
  · exact hP.agent _ (hP.turns s ts h)
  · exact hP.host n _ (hP.turns s ts h)
  · exact hP.turns s ts h
  · trivial

/-- Every step keeps `P`. -/
theorem step (hP : StepClosed P R) (h : P s) (ht : step s = .next t) : P t := by
  have hn := hP.nextFetch h
  rcases step_cases ht with ⟨c, u, hf, he⟩ | hf | ⟨-, rfl⟩
  · rw [hf] at hn; exact hP.exec c u t hn.1 hn.2 he
  · rw [hf] at hn; exact hn
  · exact h

end StepClosed

end Sys2Proof.Machine

/-! PROOF. Every step keeps the machine's invariant (10_state.md R21 to R37): what each operation on the state keeps of
it, then the rows by the class of the object that is run, then the moves. -/

namespace Sys2Proof.Safety

open Sys2Proof.Machine

variable {s t : State}

namespace StateInv

/-! ### What each operation on the state keeps of the invariant -/

theorem emit (h : StateInv s) (e : Event) : StateInv (s.emit e) := { h with }

theorem raise (h : StateInv s) (k : FaultKind) (i : Int) : StateInv (s.raise k i) := { h with }

theorem jump (h : StateInv s) (p : Int) (w : Word) : StateInv { s with pc := p, pipeOp := w } := { h with }

theorem setTurns (h : StateInv s) (ts : List Turn) : StateInv { s with turns := ts } := { h with }

theorem setCarry (h : StateInv s) (c : Bool) : StateInv { s with carry := c } := { h with }

theorem setGpr (h : StateInv s) (d : Reg) (v : Word) : StateInv (s.setGpr d v) := by
  by_cases hd : d = 0
  · subst hd; exact h
  · have hn : d.toNat ≠ 0 := fun h0 => hd (BitVec.eq_of_toNat_eq h0)
    rw [State.setGpr, if_neg hd]
    exact { h with zero := by simpa [Vector.getElem_set, hn] using h.zero }

theorem setSlot (h : StateInv s) (i : SlotIx) {c : Slot} (hc : c.bound = true) : StateInv (s.setSlot i c) :=
  { h with
    unbound := fun j hj => by
      rw [State.slot_setSlot] at hj ⊢
      split at hj
      · simp [hc] at hj
      · next hji => rw [if_neg hji]; exact h.unbound j hj }

theorem setSub (h : StateInv s) (sc : SubCh) {c : SubChannel} (hr : Memory.wordsWf Config.regFileWords c.regs)
    (hs : Memory.wordsWf Config.regFileWords c.shadow) : StateInv (s.setSub sc c) :=
  { h with
    regs := fun sc' => by rw [State.sub_setSub]; split; exacts [hr, h.regs sc']
    shadow := fun sc' => by rw [State.sub_setSub]; split; exacts [hs, h.shadow sc'] }

theorem fifoWrite (h : StateInv s) {m : Word} (hm : m.toNat < Config.fifoRegWords) (v : Word) :
    StateInv (fifoWrite m v s) :=
  { h with fifo := Memory.wordsWf_setWord h.fifo hm v }

theorem setShadowMode (h : StateInv s) (hp : ¬macroActive s.phase) (v : Word) :
    StateInv { s with shadowMode := v } :=
  { h with mode := fun ha => absurd ha hp }

/-- The increment field of a packed method address has six bits (43_mme_assign.md R253). -/
theorem setMethAddr (h : StateInv s) (v : Word) : StateInv (setMethAddr v s) :=
  { h with
    incr := by
      show (Operands.packedIncr v).toNat ≤ 0x3F
      rw [packedIncr_eq, BitVec.toNat_ofNat]
      omega }

theorem fetchParam (h : StateInv s) : StateInv (fetchParam s).2 := by
  rcases fetchParam_cases s with ⟨-, he⟩ | ⟨v, rest, hq, he⟩
  · rw [he]; exact h.emit _
  · have hb : (s.slot s.slotId).bound = true := by
      by_contra hb
      rw [h.unbound _ (by simpa using hb)] at hq
      cases hq
    rw [he]
    exact h.setSlot _ hb

theorem regWrite_ok (h : StateInv s) {sc : SubCh} {m v : Word} {o : Origin}
    (ht : regWrite sc m v o s = .ok t) : StateInv t := by
  obtain ⟨hm, r, hr, rfl⟩ := Machine.regWrite_ok ht
  obtain ⟨-, hregs, hshadow⟩ := shadowWrite_cases hr
  refine (h.setSub sc ?_ ?_).emit _
  · rw [hregs]; exact Memory.wordsWf_setWord (h.regs sc) hm _
  · rcases hshadow with ⟨-, -, hs⟩ | ⟨-, -, hs⟩ | ⟨-, -, hs⟩ <;> rw [hs]
    · exact Memory.wordsWf_setWord (h.shadow sc) hm _
    · exact h.shadow sc
    · exact h.shadow sc

/-- The end of a data word counts it down: `methodCount` was not 0, so `method` and it together do not grow. -/
theorem endCall (h : StateInv s) : StateInv (endCall s) := by
  have idle : ¬dataWordPending .pusher := fun hp => hp.1 rfl
  have quiet : ¬macroActive .pusher := fun ⟨_, ha⟩ => by rcases ha with ha | ha <;> cases ha
  cases ha : s.phase.after with
  | immediate =>
    rw [endCall_immediate ha]
    exact { h with counted := fun hp => absurd hp idle, mode := fun hp => absurd hp quiet }
  | dataWord =>
    have hp : s.phase ≠ .pusher := fun hp => by rw [hp] at ha; cases ha
    have hn := h.counted ⟨hp, ha⟩
    have hd : (if s.nonIncrementing then s.method else s.method + 1).toNat + (s.methodCount - 1).toNat ≤ 0x3FFE := by
      have := h.dma
      split <;> bv_omega
    rw [endCall_dataWord ha]
    exact { h with dma := hd, counted := fun hp => absurd hp idle, mode := fun hp => absurd hp quiet }

theorem endStep (h : StateInv s) (stop : Bool) : StateInv (endStep stop s) := by
  cases hp : s.phase with
  | pusher => simpa [Machine.endStep, hp] using h
  | call c k => simpa [Machine.endStep, hp] using h
  | last k => rw [endStep_last hp]; exact (h.emit _).endCall
  | run k =>
    rw [endStep_run hp]
    split
    · exact { h with
        counted := fun hd => h.counted (by rw [hp]; exact ⟨nofun, hd.2⟩)
        mode := fun _ => h.mode ⟨k, .inl hp⟩ }
    · exact h

end StateInv

/-! ### Macro words -/

theorem macroClosed_stateInv : MacroClosed StateInv where
  raise _ k i h := h.raise k i
  setGpr _ d v h := h.setGpr d v
  fetchParam _ h := h.fetchParam
  setMethAddr _ v h := h.setMethAddr v
  send _ _ _ h hw := { h.regWrite_ok hw with }
  jump _ _ h := { h with }
  jumpNoDelay _ p w h := h.jump p w
  endStep _ b h := h.endStep b

/-! ### Method calls -/

namespace StateInv

theorem upload (h : StateInv s) (ha : s.uploadAddr.toNat < Config.macroMemWords) (v : Word) : StateInv (upload v s) :=
  { h with code := Memory.wordsWf_setWord h.code ha v }

theorem bindSlot (h : StateInv s) (v : Word) : StateInv (bindSlot v s) :=
  { h.setSlot (s.bindIndex.setWidth 7) (c := boundSlot v) rfl with }

/-- The start of an execution copies the shadow mode and clears the interpreter (44_mme_sequencer.md R280). -/
theorem enterMacro (h : StateInv s) (start arg : Word) (i : SlotIx) (sc : SubCh) :
    StateInv (enterMacro start arg i sc s) :=
  { h with zero := rfl, incr := Nat.zero_le _, mode := fun _ => rfl }

theorem startMacro (h : StateInv s) (start arg : Word) (i : SlotIx) (sc : SubCh) :
    StateInv (startMacro start arg i sc s) := by
  have he := h.enterMacro start arg i sc
  by_cases hs : start.toNat < Config.macroMemWords
  · have counted (hd : dataWordPending (.run s.phase.after)) : s.methodCount ≠ 0 :=
      h.counted ⟨fun hp => by simp [dataWordPending, hp, Phase.after] at hd, hd.2⟩
    rw [startMacro_of_lt hs]
    exact { he with counted := counted, mode := fun _ => rfl }
  · rw [startMacro_of_ge hs]
    exact he.raise _ _

theorem endMacroMethod (h : StateInv s) {i : SlotIx} (hb : (s.slot i).bound = true) (sc : SubCh) (n : Word) :
    StateInv (endMacroMethod i sc n s) := by
  unfold Machine.endMacroMethod trigger
  split
  · split
    · exact (h.setSlot i (c := { s.slot i with executionPending := false }) hb).startMacro _ _ i sc
    · exact (h.emit _).endCall
  · exact h.endCall

theorem macroMethod (h : StateInv s) (i : SlotIx) {c : Slot} (hc : c.bound = true) (sc : SubCh) (n : Word) :
    StateInv (Machine.endMacroMethod i sc n (s.setSlot i c)) :=
  (h.setSlot i hc).endMacroMethod (by rw [State.slot_setSlot, if_pos rfl]; exact hc) sc n

end StateInv

/-- The FIFO-channel methods (41_dispatch.md R173 to R179), which a call below 0x60 runs outside a macro. -/
theorem exec_decodeFifoMethod_stateInv (h : StateInv s) (hp : ¬macroActive s.phase) {m : Word}
    (hm : m.toNat < Config.fifoMethodCeiling) (v : Word) (ht : exec (Decode.decodeFifoMethod m v) s = .next t) :
    StateInv t := by
  have stored (n : Word) (hn : n.toNat < Config.fifoRegWords) : StateInv (fifoWrite n v s) := h.fifoWrite hn v
  unfold Decode.decodeFifoMethod at ht
  split at ht <;> cases ht
  · exact (stored 0x44 (by decide)).endCall
  · exact StateInv.endCall { stored 0x45 (by decide) with }
  · split
    · next ha => exact ((stored 0x46 (by decide)).upload ha v).endCall
    · exact (stored 0x46 (by decide)).raise _ _
  · exact StateInv.endCall { stored 0x47 (by decide) with }
  · split
    · exact ((stored 0x48 (by decide)).bindSlot v).endCall
    · exact (stored 0x48 (by decide)).raise _ _
  · exact ((stored 0x49 (by decide)).setShadowMode hp v).endCall
  · exact (stored m hm).endCall

/-- Every method call, made outside a macro, keeps the invariant. -/
theorem exec_decodeCall_stateInv (h : StateInv s) (hp : ¬macroActive s.phase) (c : MethodCall)
    (ht : exec (Decode.decodeCall c) s = .next t) : StateInv t := by
  unfold Decode.decodeCall at ht
  split at ht
  · cases ht
    exact ((h.setSub c.subChannel (c := { s.sub c.subChannel with cls := c.argument })
      (h.regs _) (h.shadow _)).emit _).endCall
  split at ht
  · next hm => exact exec_decodeFifoMethod_stateInv h hp hm _ ht
  split at ht
  · simp only [exec, execRegisterMethod] at ht
    split at ht
    · next u hu => cases ht; exact (h.regWrite_ok hu).endCall
    · next u hu => 
      cases ht
      rcases regWrite_error hu with ⟨-, rfl⟩ | ⟨-, -, rfl⟩ <;> exact h.raise _ _
  split at ht <;> cases ht <;> split
  · next hb => exact h.macroMethod _ (by exact hb) _ _
  · exact h.raise _ _
  · next hb => exact h.macroMethod _ (by exact hb) _ _
  · exact h.raise _ _

/-! ### Command words and entries -/

/-- A header is read between pusher steps with nothing left to count (40_command_buffer.md R139); its fields are 13 bits
wide, so method and count together stay at most 0x3FFE. -/
theorem exec_decodeHeader_stateInv (h : StateInv s) (hp : s.phase = .pusher) (hn : s.methodCount = 0) (w : Word)
    (ht : exec (Decode.decodeHeader w) s = .next t) : StateInv t := by
  have load (m : BitVec 13) (sc : SubCh) (n : BitVec 13) (x y : Bool) : StateInv (loadHeader m sc n x y s) :=
    { h with
      dma := by
        show (m.setWidth 32).toNat + (n.setWidth 32).toNat ≤ 0x3FFE
        bv_omega
      counted := fun hd => absurd hp hd.1 }
  unfold Decode.decodeHeader at ht
  split at ht <;> cases ht
  case h_1 => exact h
  case h_2 => exact load _ _ _ _ _
  case h_3 => exact h
  case h_4 => exact load _ _ _ _ _
  case h_5 =>
    exact { h with
      dma := by
        show (BitVec.setWidth 32 _).toNat + s.methodCount.toNat ≤ 0x3FFE
        rw [hn]; bv_omega
      counted := nofun
      mode := nofun }
  case h_6 => exact load _ _ _ _ _
  case h_7 => exact h
  case h_8 => exact h

/-! ### Buffers -/

/-- A fetch answers a resident buffer with its count of words (40_command_buffer.md R135). -/
theorem bufferWf_fetchBuffer {b : CommandBuffer} (hb : BufferWf b) (s : State) :
    BufferWf (fetchBuffer b s).1 ∧ (fetchBuffer b s).1.words.isSome := by
  cases hw : b.words with
  | some ws => rw [fetchBuffer_resident (by simp [hw])]; exact ⟨hb, by simp [hw]⟩
  | none =>
    rw [fetchBuffer_absent hw]
    exact ⟨fun ws hws => by cases hws; exact Memory.readWords_length _ _ _ _, rfl⟩

theorem bufferWf_entryBuffer (np : Bool) (n : BitVec 21) (a : BitVec 38) : BufferWf (entryBuffer np n a) := nofun

theorem bufferWf_hostBuffer (ws : List Word) : BufferWf (hostBuffer ws) := fun _ h => by cases h; rfl

namespace StateInv

theorem enqueue (h : StateInv s) {b : CommandBuffer} (hb : BufferWf b) : StateInv (s.enqueue b) :=
  { h with
    queued := fun c hc => by
      rcases List.mem_append.mp hc with hc | hc
      · exact h.queued c hc
      · rw [List.mem_singleton.mp hc]; exact hb }

theorem fetchBuffer (h : StateInv s) (b : CommandBuffer) : StateInv (fetchBuffer b s).2 := by
  rw [(fetchBuffer_frame b s).1]; exact { h with }

theorem prefetch (h : StateInv s) (np : Bool) (b : CommandBuffer) : StateInv (prefetch np b s).2 := by
  rw [(prefetch_frame np b s).1]; exact { h with }

theorem queueEntry (h : StateInv s) (np : Bool) (n : BitVec 21) (a : BitVec 38)
    (ht : exec (.queueEntry np n a) s = .next t) : StateInv t := by
  have hb : BufferWf (Machine.prefetch np (entryBuffer np n a) s).1 := by
    unfold Machine.prefetch
    split
    · exact (bufferWf_fetchBuffer (bufferWf_entryBuffer np n a) s).1
    · exact bufferWf_entryBuffer np n a
  cases ht
  refine enqueue ?_ hb
  split
  · exact { h.prefetch np _ with }
  · exact h.prefetch np _

end StateInv

/-! ### Fetching -/

/-- What holds of the state in which an object of each class is run. -/
def Ready : Code → State → Prop
  | .mme _, _ => True
  | .header _, s => s.phase = .pusher ∧ s.methodCount = 0
  | .data _, s => s.methodCount ≠ 0
  | .length _, _ => False
  | .call _, s => ¬macroActive s.phase
  | .entry _, _ => True

theorem isMacroRow_suffixInstr (op : AluOp) (asg : Asg) (x : Bool) (d : Reg) :
    isMacroRow (Decode.suffixInstr op asg x d) = true := by cases asg <;> rfl

theorem isMacroRow_addiName (asg : Asg) (x : Bool) (d a : Reg) (v : BitVec 18) :
    isMacroRow (Decode.addiName asg x d a v) = true := by
  unfold Decode.addiName
  repeat' split
  all_goals rfl

/-- The row that names a macro word is a row of macro words. -/
theorem isMacroRow_rowName {i : Instr} (hi : isMacroRow i = true) : isMacroRow (Decode.rowName i) = true := by
  unfold Decode.rowName
  split
  · split
    · exact isMacroRow_suffixInstr _ _ _ _
    · rfl
  · exact isMacroRow_addiName _ _ _ _ _
  · split <;> rfl
  · split <;> rfl
  · exact hi

/-- The macro decoder answers macro rows only. -/
theorem isMacroRow_decodeMacro (w : Word) : isMacroRow (Decode.decodeMacro w) = true := by
  refine isMacroRow_rowName ?_
  unfold Decode.decodeMacroCore
  split
  case h_1 => unfold Decode.decodeReg; split <;> rfl
  case h_8 => unfold Decode.decodeBranch; split <;> rfl
  all_goals rfl

theorem exec_decode_stateInv {c : Code} (h : StateInv s) (hr : Ready c s) (ht : exec (Decode.decode c) s = .next t) :
    StateInv t := by
  cases c with
  | mme w => exact macroClosed_stateInv.exec (isMacroRow_decodeMacro w) h (fun _ _ c hu => hu.setCarry c) ht
  | header w => exact exec_decodeHeader_stateInv h hr.1 hr.2 w ht
  | data w => cases ht; exact { h with counted := fun _ => hr, mode := nofun }
  | length w => exact hr.elim
  | call c => exact exec_decodeCall_stateInv h hr c ht
  | entry e => exact h.queueEntry _ _ _ ht

/-! ### The moves of the two kinds of agents -/

theorem StateInv.activate (h : StateInv s) (hp : s.pos = 0) {b : CommandBuffer} (hb : BufferWf b)
    (hr : b.words.isSome) : StateInv { s with cur := some b } :=
  { h with active := fun _ hc => by cases hc; exact ⟨hb, hr, hp ▸ Nat.zero_le _⟩ }

theorem nextBuffer_stateInv (h : StateInv s) : FetchKeeps StateInv Ready (nextBuffer s) := by
  unfold nextBuffer
  split
  · trivial
  · next b q hq =>
    have hu : StateInv { s with queue := q, pos := 0 } :=
      { h with
        queued := fun b' hb' => h.queued b' (by simp [hq, hb'])
        active := fun b' hb' => by
          obtain ⟨hwf, hres, -⟩ := h.active b' hb'
          exact ⟨hwf, hres, Nat.zero_le _⟩ }
    obtain ⟨hwf, hres⟩ := bufferWf_fetchBuffer (h.queued b (by simp [hq])) { s with queue := q, pos := 0 }
    have hpos : (fetchBuffer b { s with queue := q, pos := 0 }).2.pos = 0 := by rw [(fetchBuffer_frame b _).1]
    exact (hu.fetchBuffer b).activate hpos hwf hres

/-- The class of a command word is decided by the count: the length-pending flag is never set. -/
theorem ready_classify (h : StateInv s) (hp : s.phase = .pusher) (w : Word) :
    Ready (classify w s) { s with pos := s.pos + 1 } := by
  unfold classify
  rw [h.noLength, if_neg Bool.false_ne_true]
  split
  · next hn => exact hn
  · next hn => exact ⟨hp, not_not.mp hn⟩

theorem agentFetch_stateInv (h : StateInv s) : FetchKeeps StateInv Ready (agentFetch s) :=
  agentFetch_keeps
    (fun hp => pusherFetch_keeps (nextBuffer_stateInv h) fun b w hb hpos =>
      ⟨{ h with
        active := fun b' hb' => by
          obtain ⟨hwf, hres, -⟩ := h.active b' hb'
          cases hb.symm.trans hb'
          exact ⟨hwf, hres, hpos⟩ }, ready_classify h hp w⟩)
    (fun c k hp => ⟨h, fun ⟨_, ha⟩ => by simp [hp] at ha⟩)
    (macroFetch_keeps (fun p w => ⟨h.jump p w, trivial⟩) (h.raise _ _))

theorem hostCall_stateInv (h : StateInv s) (n : Nat) (p : Producer) : StateInv (hostCall n p s) := by
  unfold hostCall
  split
  · exact h
  · exact { h with }
  · exact { h.enqueue (bufferWf_hostBuffer _) with }
  · exact { h with gpu := Memory.wf_setByte h.gpu _ _ }

theorem hostFetch_stateInv (n : Nat) (h : StateInv s) : FetchKeeps StateInv Ready (hostFetch n s) :=
  hostFetch_keeps h (fun _ _ => ⟨{ h with }, trivial⟩) (hostCall_stateInv h n)

theorem stepClosed_stateInv : StepClosed StateInv Ready where
  turns _ ts h := h.setTurns ts
  agent _ h := agentFetch_stateInv h
  host n _ h := hostFetch_stateInv n h
  exec _ _ _ h hr ht := exec_decode_stateInv h hr ht

/-- Settles O51: the invariant is kept by every agent's move and by every object the move runs. -/
theorem everyStepKeepsTheInvariant : Obligations.EveryStepKeepsTheInvariant :=
  fun _ _ h ht => stepClosed_stateInv.step h ht

end Sys2Proof.Safety

/-! PROOF. One case analysis over the rows of the opcode table, and what it gives for the control registers, the carry,
the queue and the trace (10_state.md R20, R28, R29, R33, R50). -/

namespace Sys2Proof.Machine

open Sys2Proof.Safety

variable {s t : State}

/-! ### What the rows do, by the parts of the state they reach -/

/-- The rows that write a control register, a class or macro code memory. -/
def writesControl : Instr → Bool
  | .bindChannel _ _ | .setMacroUploadAddress _ | .sendMacroCodeData _ => true
  | .setMacroBindingIndex _ | .bindMacro _ | .setMmeShadowRamControl _ => true
  | _ => false

/-- The row of a producer's push. -/
def isEntryRow : Instr → Bool
  | .queueEntry _ _ _ => true
  | _ => false

/-- `P` is kept by the effects that rows of every kind have. -/
structure RowClosed (P : State → Prop) : Prop where
  raise : ∀ {s} k i, P s → P (s.raise k i)
  emit : ∀ {s} e, P s → P (s.emit e)
  /-- the DmaState and the position in the pusher step -/
  word : ∀ {s t}, P s → t = { s with
    method := t.method, subChannel := t.subChannel, methodCount := t.methodCount, nonIncrementing := t.nonIncrementing
    incrementOnce := t.incrementOnce, lengthPending := t.lengthPending, phase := t.phase } → P t
  /-- the interpreter but for its carry, and the execution context -/
  interp : ∀ {s t}, P s → t = { s with
    gprs := t.gprs, pc := t.pc, pipeOp := t.pipeOp, methAddr := t.methAddr, methIncr := t.methIncr
    sinkSc := t.sinkSc, mode := t.mode, slotId := t.slotId } → P t
  setSlot : ∀ {s} i c, P s → P (s.setSlot i c)
  setSub : ∀ {s} sc c, c.cls = (s.sub sc).cls → P s → P (s.setSub sc c)
  fifo : ∀ {s} f, P s → P { s with fifoRegs := f }

/-- `P` does not see the carry. -/
def CarryClosed (P : State → Prop) : Prop := ∀ u c, P u → P { u with carry := c }

/-- `P` does not see the control registers, the classes and macro code memory. -/
def ControlClosed (P : State → Prop) : Prop := ∀ s t, P s → t = { s with
  subs := t.subs, uploadAddr := t.uploadAddr, bindIndex := t.bindIndex, shadowMode := t.shadowMode
  macroMem := t.macroMem } → P t

/-- `P` is kept by a push: an append to the queue, what belongs to the producers, and the prefetch's event and draws. -/
def EntryClosed (P : State → Prop) : Prop := ∀ s t, P s → s.queue <+: t.queue → s.trace <+: t.trace →
  t = { s with queue := t.queue, producers := t.producers, trace := t.trace, draws := t.draws } → P t

/-- Everything the push of an entry changes (40_command_buffer.md R130 to R132). -/
theorem execQueueEntry_frame {np : Bool} {n : BitVec 21} {a : BitVec 38} (ht : execQueueEntry np n a s = .next t) :
    (∃ b, t.queue = s.queue ++ [b]) ∧ s.trace <+: t.trace ∧
      t = { s with queue := t.queue, producers := t.producers, trace := t.trace, draws := t.draws } := by
  obtain ⟨hframe, htrace⟩ := prefetch_frame np (entryBuffer np n a) s
  have hq : (prefetch np (entryBuffer np n a) s).2.queue = s.queue := by rw [hframe]
  cases ht
  cases np
  · exact ⟨⟨_, congrArg (· ++ _) hq⟩, htrace, by simp only [State.enqueue]; rw [hframe]; rfl⟩
  · exact ⟨⟨_, congrArg (· ++ _) hq⟩, htrace, by simp only [State.enqueue, clearBarrier]; rw [hframe]; rfl⟩

namespace RowClosed

variable {P : State → Prop} (hP : RowClosed P)
include hP

theorem endCall (h : P s) : P (endCall s) := by
  cases ha : s.phase.after with
  | dataWord => rw [endCall_dataWord ha]; exact hP.word h rfl
  | immediate => rw [endCall_immediate ha]; exact hP.word h rfl

theorem endStep (h : P s) (stop : Bool) : P (endStep stop s) := by
  cases hp : s.phase with
  | pusher => simpa [Machine.endStep, hp] using h
  | call c k => simpa [Machine.endStep, hp] using h
  | run k => rw [endStep_run hp]; cases stop; exacts [h, hP.word h rfl]
  | last k => rw [endStep_last hp]; exact hP.endCall (hP.emit _ h)

/-- A register write stores into a sub-channel without changing its class, or faults. -/
theorem regWrite (h : P s) (sc : SubCh) (m v : Word) (o : Origin) : Both P (regWrite sc m v o s) := by
  rintro t (ht | ht)
  · obtain ⟨-, r, hr, rfl⟩ := regWrite_ok ht
    exact hP.emit _ (hP.setSub _ _ (shadowWrite_cases hr).1 h)
  · rcases regWrite_error ht with ⟨-, rfl⟩ | ⟨-, -, rfl⟩ <;> exact hP.raise _ _ h

theorem fifoWrite (h : P s) (m v : Word) : P (fifoWrite m v s) := hP.emit _ (hP.fifo _ h)

/-- What these effects keep, the effects of macro words keep. -/
theorem macroClosed : MacroClosed P where
  raise _ k i h := hP.raise k i h
  setGpr s d v h := by
    unfold State.setGpr
    split
    exacts [h, hP.interp h rfl]
  fetchParam s h := by
    rcases fetchParam_cases s with ⟨-, he⟩ | ⟨v, rest, -, he⟩ <;> rw [he]
    exacts [hP.emit _ h, hP.setSlot _ _ h]
  setMethAddr _ _ h := hP.interp h rfl
  send _ t _ h hw := hP.interp (hP.regWrite h _ _ _ _ t (.inl hw)) rfl
  jump _ _ h := hP.interp h rfl
  jumpNoDelay _ _ _ h := hP.interp h rfl
  endStep _ b h := hP.endStep h b

theorem startMacro (hc : CarryClosed P) (h : P s) (start arg : Word) (i : SlotIx) (sc : SubCh) :
    P (startMacro start arg i sc s) := by
  have he : P (enterMacro start arg i sc s) := hP.interp (hc s false h) rfl
  by_cases hs : start.toNat < Config.macroMemWords
  · rw [startMacro_of_lt hs]
    have hr : P { enterMacro start arg i sc s with phase := .run s.phase.after } := hP.word he rfl
    exact hP.interp hr rfl
  · rw [startMacro_of_ge hs]
    exact hP.raise _ _ he

theorem endMacroMethod (hc : CarryClosed P) (h : P s) (i : SlotIx) (sc : SubCh) (n : Word) :
    P (endMacroMethod i sc n s) := by
  unfold Machine.endMacroMethod trigger
  split
  · split
    · exact hP.startMacro hc (hP.setSlot _ _ h) _ _ _ _
    · exact hP.endCall (hP.emit _ h)
  · exact hP.endCall h

/-- Every row keeps `P`: where `P` sees the carry, the control registers or a push, every row that does not reach
them. -/
theorem exec {i : Instr} (h : P s) (hcarry : mayChangeCarry i = true → CarryClosed P)
    (hcontrol : writesControl i = true → ControlClosed P) (hentry : isEntryRow i = true → EntryClosed P)
    (ht : Machine.exec i s = .next t) : P t := by
  by_cases hi : isMacroRow i = true
  · exact hP.macroClosed.exec hi h hcarry ht
  cases i <;> first | exact absurd rfl hi | skip
  case inc => cases ht; exact hP.word h rfl
  case noninc => cases ht; exact hP.word h rfl
  case imm => cases ht; exact hP.word h rfl
  case oneinc => cases ht; exact hP.word h rfl
  case reservedMode0 => cases ht; exact h
  case reservedMode2 => cases ht; exact h
  case reservedMode6 => cases ht; exact h
  case reservedMode7 => cases ht; exact h
  case data => cases ht; exact hP.word h rfl
  case length => cases ht; exact hP.word h rfl
  case bindChannel => cases ht; exact hP.endCall (hP.emit _ (hcontrol rfl _ _ h rfl))
  case waitForIdle => cases ht; exact hP.endCall (hP.fifoWrite h _ _)
  case setMacroUploadAddress => cases ht; exact hP.endCall (hcontrol rfl _ _ (hP.fifoWrite h _ _) rfl)
  case sendMacroCodeData =>
    cases ht; split
    exacts [hP.endCall (hcontrol rfl _ _ (hP.fifoWrite h _ _) rfl), hP.raise _ _ (hP.fifoWrite h _ _)]
  case setMacroBindingIndex => cases ht; exact hP.endCall (hcontrol rfl _ _ (hP.fifoWrite h _ _) rfl)
  case bindMacro =>
    cases ht; split
    exacts [hP.endCall (hcontrol rfl _ _ (hP.setSlot _ _ (hP.fifoWrite h _ _)) rfl), hP.raise _ _ (hP.fifoWrite h _ _)]
  case setMmeShadowRamControl => cases ht; exact hP.endCall (hcontrol rfl _ _ (hP.fifoWrite h _ _) rfl)
  case fifoOther => cases ht; exact hP.endCall (hP.fifoWrite h _ _)
  case registerMethod sc m v =>
    simp only [Machine.exec, execRegisterMethod] at ht
    have hw := hP.regWrite h sc m v .pusher
    split at ht
    · next u hu => cases ht; exact hP.endCall (hw u (.inl hu))
    · next u hu => cases ht; exact hw _ (.inr hu)
  case macroStart =>
    cases ht; split
    exacts [hP.endMacroMethod (hcarry rfl) (hP.setSlot _ _ h) _ _ _, hP.raise _ _ h]
  case macroArgument =>
    cases ht; split
    exacts [hP.endMacroMethod (hcarry rfl) (hP.setSlot _ _ h) _ _ _, hP.raise _ _ h]
  case queueEntry =>
    obtain ⟨⟨b, hq⟩, htrace, hframe⟩ := execQueueEntry_frame ht
    exact hentry rfl _ _ h ⟨[b], hq.symm⟩ htrace hframe

end RowClosed

/-! ### The trace -/

theorem rowClosed_trace (s : State) : RowClosed fun t => s.trace <+: t.trace where
  raise _ _ h := h
  emit _ h := h.trans (List.prefix_append _ _)
  word h ht := by rw [ht]; exact h
  interp h ht := by rw [ht]; exact h
  setSlot _ _ h := h
  setSub _ _ _ h := h
  fifo _ h := h

/-- Every instruction only appends to the trace. -/
theorem exec_trace_prefix {i : Instr} (ht : exec i s = .next t) : s.trace <+: t.trace :=
  (rowClosed_trace s).exec List.prefix_rfl (fun _ _ _ h => h) (fun _ _ _ h ht => by rw [ht]; exact h)
    (fun _ _ _ h _ htr _ => h.trans htr) ht

/-- A move only appends to the trace. -/
def FetchExtends (s : State) : Fetched → Prop := FetchKeeps (fun t => s.trace <+: t.trace) fun _ _ => True

theorem nextBuffer_extends (s : State) : FetchExtends s (nextBuffer s) := by
  unfold nextBuffer
  split
  · trivial
  · next b q hq => exact (fetchBuffer_frame b { s with queue := q, pos := 0 }).2

theorem agentFetch_extends (s : State) : FetchExtends s (agentFetch s) :=
  agentFetch_keeps
    (fun _ => pusherFetch_keeps (nextBuffer_extends s) fun _ _ _ _ => ⟨List.prefix_rfl, trivial⟩)
    (fun _ _ _ => ⟨List.prefix_rfl, trivial⟩)
    (macroFetch_keeps (fun _ _ => ⟨List.prefix_rfl, trivial⟩) List.prefix_rfl)

theorem hostCall_trace (n : Nat) (p : Producer) (s : State) : (hostCall n p s).trace = s.trace := by
  unfold hostCall
  split <;> rfl

theorem hostFetch_extends (n : Nat) (s : State) : FetchExtends s (hostFetch n s) :=
  hostFetch_keeps List.prefix_rfl (fun _ _ => ⟨List.prefix_rfl, trivial⟩)
    fun p => by rw [hostCall_trace]

theorem stepClosed_trace (s : State) : StepClosed (fun t => s.trace <+: t.trace) fun _ _ => True where
  turns _ _ h := h
  agent u h := (agentFetch_extends u).mono fun _ => h.trans
  host n u h := (hostFetch_extends n u).mono fun _ => h.trans
  exec _ _ _ h _ ht := h.trans (exec_trace_prefix ht)

/-- Settles O60: every agent's move and every instruction only append to the trace. -/
theorem traceOnlyGrows : Obligations.TraceOnlyGrows :=
  fun s _ ht => (stepClosed_trace s).step List.prefix_rfl ht

/-! ### The queue -/

theorem rowClosed_queue (s : State) : RowClosed fun t => t.queue = s.queue where
  raise _ _ h := h
  emit _ h := h
  word h ht := by rw [ht]; exact h
  interp h ht := by rw [ht]; exact h
  setSlot _ _ h := h
  setSub _ _ _ h := h
  fifo _ h := h

theorem exec_queue_of_not_entry {i : Instr} (hi : isEntryRow i = false) (ht : exec i s = .next t) :
    t.queue = s.queue :=
  (rowClosed_queue s).exec rfl (fun _ _ _ h => h) (fun _ _ _ h ht => by rw [ht]; exact h)
    (fun he => by simp [hi] at he) ht

/-- Settles O59: the push of an entry appends its buffer, and every other row keeps the queue. -/
theorem onlyEntryPushesChangeTheQueue : Obligations.OnlyEntryPushesChangeTheQueue := by
  intro i s t ht hq
  by_cases hi : isEntryRow i = true
  · cases i <;> first | exact absurd hi Bool.false_ne_true | skip
    next np n a =>
    obtain ⟨⟨b, hb⟩, -, -⟩ := execQueueEntry_frame ht
    exact ⟨np, n, a, b, rfl, hb⟩
  · exact absurd (exec_queue_of_not_entry (by simpa using hi) ht) hq

/-! ### The carry -/

theorem rowClosed_carry (s : State) : RowClosed fun t => t.carry = s.carry where
  raise _ _ h := h
  emit _ h := h
  word h ht := by rw [ht]; exact h
  interp h ht := by rw [ht]; exact h
  setSlot _ _ h := h
  setSub _ _ _ h := h
  fifo _ h := h

/-- Settles O58: every row but the four operations and the macro methods keeps the carry. -/
theorem carryChangesOnlyByTheFourOperations : Obligations.CarryChangesOnlyByTheFourOperations := by
  intro i s t ht hne
  by_contra hi
  exact hne ((rowClosed_carry s).exec rfl (fun hc => absurd hc hi) (fun _ _ _ h ht => by rw [ht]; exact h)
    (fun _ _ _ h _ _ ht => by rw [ht]; exact h) ht)

/-! ### Control registers, classes and code memory -/

/-- `t` has the control registers, the classes and the code memory of `s`. -/
structure SameControl (s t : State) : Prop where
  uploadAddr : t.uploadAddr = s.uploadAddr
  bindIndex : t.bindIndex = s.bindIndex
  shadowMode : t.shadowMode = s.shadowMode
  cls : ∀ sc, (t.sub sc).cls = (s.sub sc).cls
  macroMem : t.macroMem = s.macroMem

theorem SameControl.refl (s : State) : SameControl s s := ⟨rfl, rfl, rfl, fun _ => rfl, rfl⟩

theorem rowClosed_sameControl (s : State) : RowClosed (SameControl s) where
  raise _ _ h := { h with }
  emit _ h := { h with }
  word h ht := by rw [ht]; exact { h with }
  interp h ht := by rw [ht]; exact { h with }
  setSlot _ _ h := { h with }
  setSub sc c hc h := { h with
    cls := fun sc' => by
      rw [State.sub_setSub]
      split
      · next hs => rw [hc, ← hs, h.cls]
      · exact h.cls sc' }
  fifo _ h := { h with }

theorem exec_sameControl {i : Instr} (hi : writesControl i = false) (ht : exec i s = .next t) : SameControl s t :=
  (rowClosed_sameControl s).exec (.refl s) (fun _ _ _ h => { h with }) (fun hc => by simp [hi] at hc)
    (fun _ _ _ h _ _ ht => by rw [ht]; exact { h with }) ht

/-- What an instruction may change of the control registers, the classes and code memory: only what is its own. -/
def ChangesOwnControl (i : Instr) (s t : State) : Prop :=
  (t.uploadAddr ≠ s.uploadAddr → ∃ v, i = .setMacroUploadAddress v ∨ i = .sendMacroCodeData v) ∧
  (t.bindIndex ≠ s.bindIndex → ∃ v, i = .setMacroBindingIndex v ∨ i = .bindMacro v) ∧
  (t.shadowMode ≠ s.shadowMode → ∃ v, i = .setMmeShadowRamControl v) ∧
  (∀ sc, (t.sub sc).cls ≠ (s.sub sc).cls → ∃ v, i = .bindChannel sc v) ∧
  (t.macroMem ≠ s.macroMem → ∃ v, i = .sendMacroCodeData v)

theorem SameControl.changesOwnControl (h : SameControl s t) (i : Instr) : ChangesOwnControl i s t :=
  ⟨absurd h.uploadAddr, absurd h.bindIndex, absurd h.shadowMode, fun sc => absurd (h.cls sc), absurd h.macroMem⟩

theorem endCall_sameControl (s : State) : SameControl s (endCall s) := (rowClosed_sameControl s).endCall (.refl s)

/-- A bind changes the class of its own sub-channel. -/
theorem execBindChannel_changesOwnControl {sc : SubCh} {v : Word} (ht : execBindChannel sc v s = .next t) :
    ChangesOwnControl (.bindChannel sc v) s t := by
  cases ht
  have k := endCall_sameControl ((s.setSub sc { s.sub sc with cls := v }).emit (.bind sc v))
  refine ⟨absurd k.uploadAddr, absurd k.bindIndex, absurd k.shadowMode, fun sc' hne => ?_, absurd k.macroMem⟩
  by_cases hs : sc' = sc
  · exact ⟨v, by rw [hs]⟩
  · exact absurd ((k.cls sc').trans (by rw [State.sub_emit, State.sub_setSub, if_neg hs])) hne

/-- The control methods of the FIFO channel change their own register, and the upload code memory. -/
theorem exec_changesOwnControl {i : Instr} (ht : exec i s = .next t) : ChangesOwnControl i s t := by
  by_cases hi : writesControl i = true
  swap
  · exact (exec_sameControl (by simpa using hi) ht).changesOwnControl i
  cases i <;> first | exact absurd hi Bool.false_ne_true | skip
  case bindChannel => exact execBindChannel_changesOwnControl ht
  case setMacroUploadAddress v =>
    cases ht
    have k := endCall_sameControl { fifoWrite 0x45 v s with uploadAddr := v }
    exact ⟨fun _ => ⟨v, .inl rfl⟩, absurd k.bindIndex, absurd k.shadowMode, fun sc => absurd (k.cls sc),
      absurd k.macroMem⟩
  case sendMacroCodeData v =>
    cases ht
    split
    · have k := endCall_sameControl (upload v (fifoWrite 0x46 v s))
      exact ⟨fun _ => ⟨v, .inr rfl⟩, absurd k.bindIndex, absurd k.shadowMode, fun sc => absurd (k.cls sc),
        fun _ => ⟨v, rfl⟩⟩
    · exact SameControl.changesOwnControl { SameControl.refl s with } _
  case setMacroBindingIndex v =>
    cases ht
    have k := endCall_sameControl { fifoWrite 0x47 v s with bindIndex := v }
    exact ⟨absurd k.uploadAddr, fun _ => ⟨v, .inl rfl⟩, absurd k.shadowMode, fun sc => absurd (k.cls sc),
      absurd k.macroMem⟩
  case bindMacro v =>
    cases ht
    split
    · have k := endCall_sameControl (bindSlot v (fifoWrite 0x48 v s))
      exact ⟨absurd k.uploadAddr, fun _ => ⟨v, .inr rfl⟩, absurd k.shadowMode, fun sc => absurd (k.cls sc),
        absurd k.macroMem⟩
    · exact SameControl.changesOwnControl { SameControl.refl s with } _
  case setMmeShadowRamControl v =>
    cases ht
    have k := endCall_sameControl { fifoWrite 0x49 v s with shadowMode := v }
    exact ⟨absurd k.uploadAddr, absurd k.bindIndex, fun _ => ⟨v, rfl⟩, fun sc => absurd (k.cls sc),
      absurd k.macroMem⟩

/-- Settles O57: the six control methods each change their own, and every other row changes none. -/
theorem controlRegistersChangeOnlyByTheirMethods : Obligations.ControlRegistersChangeOnlyByTheirMethods :=
  fun _ _ _ ht => exec_changesOwnControl ht

end Sys2Proof.Machine

/-! PROOF. The fault record: a recorded fault stops the processing agent, and a producer's turn after it changes only the
queue and what belongs to the producers (10_state.md R51, 60_exceptions.md R301). -/

namespace Sys2Proof.Machine

variable {s t : State}

/-- `t` is `s` but for an append to the queue and what belongs to the producers. -/
def ProducerFrame (s t : State) : Prop :=
  s.queue <+: t.queue ∧
    t = { s with
      queue := t.queue, gpuMem := t.gpuMem, producers := t.producers, pushing := t.pushing, turns := t.turns }

/-- After a fault a push appends its buffer unfetched (log 13). -/
theorem execQueueEntry_of_fault (hf : s.fault ≠ none) {np : Bool} {n : BitVec 21} {a : BitVec 38}
    (ht : execQueueEntry np n a s = .next t) : ProducerFrame s t := by
  simp only [execQueueEntry, prefetch_of_fault hf] at ht
  cases ht
  cases np <;> exact ⟨List.prefix_append _ _, rfl⟩

theorem hostCall_frame (n : Nat) (p : Producer) (s : State) : ProducerFrame s (hostCall n p s) := by
  unfold hostCall
  split
  · exact ⟨List.prefix_rfl, rfl⟩
  · exact ⟨List.prefix_rfl, rfl⟩
  · exact ⟨List.prefix_append _ _, rfl⟩
  · exact ⟨List.prefix_rfl, rfl⟩

/-- After a fault the outcome of a producer's move changes only what is the producers' and the queue's end. -/
theorem runFetched_hostFetch_of_fault (hf : s.fault ≠ none) {u : State} (n : Nat)
    (ht : runFetched u (hostFetch n s) = .next t) : ProducerFrame s t := by
  unfold hostFetch at ht
  split at ht
  · cases ht; exact ⟨List.prefix_rfl, rfl⟩
  split at ht
  · next e es _ =>
    obtain ⟨hq, hframe⟩ := execQueueEntry_of_fault (by exact hf) ht
    exact ⟨hq, hframe⟩
  · cases ht; exact hostCall_frame n _ s

/-- With a fault recorded and no producer's turn prescribed, the step is the agent's stop. -/
theorem step_of_fault {f : FaultRecord} (hf : s.fault = some f) (hn : ∀ n ts, s.turns ≠ .producer n :: ts) :
    step s = .fault (.stopped f.kind f.info) := by
  have ha (ts : List Turn) : agentFetch { s with turns := ts } = .stopped f.kind f.info := agentFetch_of_fault hf
  unfold step
  rw [nextFetch_outside (.inr (by simp [hf]))]
  unfold turnFetch
  split
  · rw [freeFetch_of_not_idle (by simp [agentFetch_of_fault hf]), agentFetch_of_fault hf]; rfl
  · next ts _ => rw [ha ts]; rfl
  · next n ts hts => exact absurd hts (hn n ts)

/-- With a fault recorded and a producer's turn prescribed, the step is that producer's move. -/
theorem step_producer_of_fault (hf : s.fault ≠ none) {n : Nat} {ts : List Turn} (hts : s.turns = .producer n :: ts) :
    step s = runFetched s (hostFetch n { s with turns := ts }) := by
  unfold step
  rw [nextFetch_outside (.inr hf)]
  unfold turnFetch
  rw [hts]

/-- Settles O54: after a fault only a producer's prescribed turn answers a next state, in the producers' frame. -/
theorem faultIsTerminal : Obligations.FaultIsTerminal := by
  refine ⟨rfl, fun s f hf => ⟨step_of_fault hf, fun t ht => ?_⟩⟩
  have hne : s.fault ≠ none := by simp [hf]
  by_cases hn : ∀ n ts, s.turns ≠ .producer n :: ts
  · rw [step_of_fault hf hn] at ht; cases ht
  · obtain ⟨n, ts, hts⟩ : ∃ n ts, s.turns = .producer n :: ts := by simpa using hn
    rw [step_producer_of_fault hne hts] at ht
    obtain ⟨hq, hframe⟩ := runFetched_hostFetch_of_fault (s := { s with turns := ts }) hne n ht
    exact ⟨hq, hframe⟩

end Sys2Proof.Machine

/-! PROOF. The register file's reads and writes, and the state after reset (10_state.md R32, R52). -/

namespace Sys2Proof.Machine

open Sys2Proof.Safety

/-- Settles O13: register 0 is never stored, every other register is its own entry of the file. -/
theorem registerZeroReadsZeroAndDiscardsWrites : Obligations.RegisterZeroReadsZeroAndDiscardsWrites := by
  refine fun s d r v => ⟨s.gpr_zero_eq, s.setGpr_zero_eq v, s.gpr_setGpr_ite d r v, ?_⟩
  unfold State.setGpr
  split <;> rfl

/-- A sub-channel after reset: no class, and the open contents of its register file and shadow RAM. -/
theorem sub_resetWith (p : Params) (sc : SubCh) :
    (State.resetWith p).sub sc =
      { cls := 0, regs := p.initRegs[sc.toNat]'(sc.isLt), shadow := p.initShadow[sc.toNat]'(sc.isLt) } := by
  simp [State.sub, State.resetWith]

theorem slot_resetWith (p : Params) (i : SlotIx) : (State.resetWith p).slot i = Slot.empty := by
  simp [State.slot, State.resetWith]

/-- Settles O53: every field as the reset assigns it, the sub-channels and slots through their accessors. -/
theorem resetLeavesTheStatedValues : Obligations.ResetLeavesTheStatedValues := by
  rintro p _ rfl
  refine ⟨rfl, rfl, rfl, rfl, rfl, rfl, rfl, rfl, rfl, fun sc => ?_, fun _ => rfl, rfl, rfl, rfl, fun _ => rfl,
    slot_resetWith p, rfl, rfl⟩
  simp only [State.reg, State.shadow, sub_resetWith, and_self, implies_true]

/-- Settles O52: the memories are the canonical parameters or empty, and nothing is in progress. -/
theorem resetHasTheInvariant : Obligations.ResetHasTheInvariant := fun p hp =>
  { regs := fun sc => by rw [sub_resetWith]; exact hp.regs sc.toFin
    shadow := fun sc => by rw [sub_resetWith]; exact hp.shadow sc.toFin
    fifo := Memory.wordsWf_nil _
    code := hp.code
    gpu := List.Pairwise.nil
    zero := rfl
    noLength := rfl
    incr := Nat.zero_le _
    unbound := fun i _ => slot_resetWith p i
    queued := nofun
    active := nofun
    dma := Nat.zero_le _
    counted := fun h => absurd rfl h.1
    mode := fun ⟨_, h⟩ => by rcases h with h | h <;> cases h }

end Sys2Proof.Machine

/-! PROOF. Reads of mapped GPU memory (20_memory.md R62). -/

namespace Sys2Proof.Machine.Memory

/-- A read of one word more is the word at `a` and a read from `a + 4`. -/
theorem readWords_succ (m : GpuMem) (draws a n : Nat) :
    readWords m draws a (n + 1) =
      ((readWord m draws a).1 :: (readWords m (readWord m draws a).2 (a + 4) n).1,
        (readWords m (readWord m draws a).2 (a + 4) n).2) := rfl

/-- A read from mapped memory assembles word `k` from the bytes at offset `4 * k` and draws nothing. -/
theorem readWords_mapped {m : GpuMem} {a n : Nat} {f : Nat → Byte} (draws : Nat)
    (h : ∀ k, k < 4 * n → lookup m (a + k) = some (f k)) :
    readWords m draws a n =
      ((List.range n).map fun k => leWord (f (4 * k)) (f (4 * k + 1)) (f (4 * k + 2)) (f (4 * k + 3)), draws) := by
  induction n generalizing a f with
  | zero => rfl
  | succ n ih =>
    have first : readWord m draws a = (leWord (f 0) (f 1) (f 2) (f 3), draws) :=
      readWord_mapped (h 0 (by omega)) (h 1 (by omega)) (h 2 (by omega)) (h 3 (by omega)) draws
    have rest := ih (a := a + 4) (f := fun k => f (k + 4)) fun k hk => by
      rw [Nat.add_assoc, Nat.add_comm 4]; exact h (k + 4) (by omega)
    rw [readWords_succ, first, rest, List.range_succ_eq_map]
    simp [Nat.mul_succ]

/-- Settles O50: the read of mapped bytes, by induction on the number of words in `readWords_mapped`. -/
theorem fetchedWordsAreLittleEndian : Obligations.FetchedWordsAreLittleEndian :=
  fun _ draws _ _ _ h => readWords_mapped draws h

end Sys2Proof.Machine.Memory

/-! PROOF. The rows that name one macro word: each stands for an instruction of the decode procedure of 30_encoding.md
R111 (`core`), and its meaning is that instruction's (R113, 42_mme_alu.md R210, 43_mme_assign.md R250). -/

namespace Sys2Proof.Decode

variable (op : AluOp) (asg : Asg) (x : Bool) (d : Reg)

theorem core_aluInstr : core (aluInstr op asg x d) = aluInstr op asg x d := by
  rcases op with ⟨k, a, b⟩ | _ | _ | _ | _ | _
  · cases k <;> rfl
  all_goals rfl

theorem core_suffixInstr : core (suffixInstr op asg x d) = aluInstr op asg x d := by cases asg <;> rfl

/-- The pseudo-instruction that names an ADDI word expands to that word. -/
theorem core_addiName (a : Reg) (imm : BitVec 18) : core (addiName asg x d a imm) = .addi asg x d a imm := by
  unfold addiName
  split
  case h_6 => rfl
  all_goals split_ifs
  all_goals simp_all [core]

/-- Naming an instruction does not change what it stands for. -/
theorem core_rowName (i : Instr) : core (rowName i) = core i := by
  unfold rowName
  split
  · split
    · next h => obtain ⟨rfl, rfl, -⟩ := h; exact core_suffixInstr _ _ _ _
    · rfl
  · exact core_addiName _ _ _ _ _
  · split
    · next h => obtain ⟨rfl, rfl, -⟩ := h; rfl
    · rfl
  · split
    · next h => obtain ⟨rfl, rfl, -⟩ := h; rfl
    · rfl
  · rfl

end Sys2Proof.Decode

namespace Sys2Proof.Machine

open Sys2Proof.Safety

/-! ### Immediate sums with zero -/

@[simp] theorem sumImm_zero_right (v : Word) : Operands.sumImm v 0 = v := BitVec.add_zero v

@[simp] theorem sumImm_zero_left (imm : BitVec 18) : Operands.sumImm 0 imm = Operands.immWord imm :=
  BitVec.zero_add _

/-! ### What the rows mean -/

/-- An operation row is its ALU stage followed by its assignment. -/
theorem exec_aluInstr (op : AluOp) (asg : Asg) (x : Bool) (d : Reg) (s : State) :
    exec (Decode.aluInstr op asg x d) s = .next (afterAlu (aluStage op s) x (assignStage asg d)) := by
  rcases op with ⟨k, a, b⟩ | _ | _ | _ | _ | ⟨a, imm⟩
  case read =>
    simp only [Decode.aluInstr, exec, execRead, aluStage]
    cases aluRead a imm s <;> rfl
  case reg => cases k <;> rfl
  all_goals rfl

/-- An assignment-suffix row is the same. -/
theorem exec_suffixInstr (op : AluOp) (asg : Asg) (x : Bool) (d : Reg) (s : State) :
    exec (Decode.suffixInstr op asg x d) s = .next (afterAlu (aluStage op s) x (assignStage asg d)) := by
  cases asg <;> rfl

theorem exec_suffixInstr_eq_exec_aluInstr (op : AluOp) (asg : Asg) (x : Bool) (d : Reg) (s : State) :
    exec (Decode.suffixInstr op asg x d) s = exec (Decode.aluInstr op asg x d) s :=
  (exec_suffixInstr op asg x d s).trans (exec_aluInstr op asg x d s).symm

theorem exec_addi (asg : Asg) (x : Bool) (d a : Reg) (imm : BitVec 18) (s : State) :
    exec (.addi asg x d a imm) s = .next (assignAndEnd asg x d (Operands.sumImm (s.gpr a) imm) s) := rfl

/-- Every row has the effect of the instruction it stands for. -/
theorem exec_core (i : Instr) (s : State) : exec i s = exec (Decode.core i) s := by
  cases i
  case load op x d => exact exec_suffixInstr_eq_exec_aluInstr op .load x d s
  case move op x d => exact exec_suffixInstr_eq_exec_aluInstr op .move x d s
  case movsm op x d => exact exec_suffixInstr_eq_exec_aluInstr op .movsm x d s
  case ldsend op x d => exact exec_suffixInstr_eq_exec_aluInstr op .ldsend x d s
  case mvsend op x d => exact exec_suffixInstr_eq_exec_aluInstr op .mvsend x d s
  case ldsm op x d => exact exec_suffixInstr_eq_exec_aluInstr op .ldsm x d s
  case mvsmldsend op x d => exact exec_suffixInstr_eq_exec_aluInstr op .mvsmldsend x d s
  case mvsmsendhi op x d => exact exec_suffixInstr_eq_exec_aluInstr op .mvsmsendhi x d s
  case mov d a => rw [Decode.core, exec_addi, sumImm_zero_right]; rfl
  case li d imm => rw [Decode.core, exec_addi, s.gpr_zero_eq, sumImm_zero_left]; rfl
  case maddr imm => rw [Decode.core, exec_addi, s.gpr_zero_eq, sumImm_zero_left]; rfl
  case send a => rw [Decode.core, exec_addi, sumImm_zero_right]; rfl
  all_goals rfl

/-- The row that names an instruction has its effect. -/
theorem exec_rowName (i : Instr) (s : State) : exec (Decode.rowName i) s = exec i s := by
  rw [exec_core (Decode.rowName i), Decode.core_rowName, ← exec_core]

/-- Settles O4: `exec_core` for the rows, `exec_rowName` for the decoder's choice among them. -/
theorem namedRowsRunAsTheirExpansion : Obligations.NamedRowsRunAsTheirExpansion := fun s =>
  ⟨fun i => exec_core i s, fun w => exec_rowName (Decode.decodeMacroCore w) s⟩

/-- Settles O34: the meanings of the seven rows with their shared operations in the terms of the claims. -/
theorem pseudoInstructionsHaveTheirEffects : Obligations.PseudoInstructionsHaveTheirEffects := by
  intro s d a v
  refine ⟨?nop, ?exit, ?mov, ?li, ?parm, ?maddr, fun hw => ?send⟩
  case nop | exit | mov | li => rw [← endStep_eq_stepped]; rfl
  case parm => simp only [exec, execParm, fetchParam_eq, endStep_eq_stepped]
  case maddr => rw [← endStep_eq_stepped, ← setMethAddr_eq_addressed]; rfl
  case send => simp only [exec, execSend, sendValue_of_writable hw, concludeStep, endStep_eq_stepped]

end Sys2Proof.Machine

/-! PROOF. The decoder and the encoder are inverse to each other on the well-formed instructions (30_encoding.md R111,
R113): the decode procedure of R111 on the rows it gives (`coreWf`), then the row that names the word, then the other
five kinds of object. -/

namespace Sys2Proof.Decode

open Sys2Proof.Instr Sys2Proof.Safety

/-! ### Reserved rows by their fields -/

/-- A word with a sub-operation and a selector, every other field 0 (30_encoding.md R101). -/
def rowBits (k : BitVec 5) (op : BitVec 3) : Word := 0#10 ++ k ++ 0#14 ++ op

theorem getLsbD_rowBits (k : BitVec 5) (op : BitVec 3) (i : Nat) :
    (rowBits k op).getLsbD i =
      if i < 3 then op.getLsbD i else if i < 17 then false else k.getLsbD (i - 17) := by
  show (0#10 ++ k ++ 0#14 ++ op : BitVec (10 + 5 + 14 + 3)).getLsbD i = _
  have hsub : i - 3 - 14 = i - 17 := by omega
  have hmid : i - 3 < 14 ↔ i < 17 := by omega
  simp only [BitVec.getLsbD_append, BitVec.getLsbD_zero, hsub, hmid]
  by_cases hk : i - 17 < 5
  · rw [if_pos hk]
  · rw [if_neg hk, BitVec.getLsbD_of_ge k _ (by omega)]

theorem aluOpF_rowBits (k : BitVec 5) (op : BitVec 3) : aluOpF (rowBits k op) = k := by
  ext i hi
  simp [aluOpF, getLsbD_rowBits, hi]
  omega

theorem opF_rowBits (k : BitVec 5) (op : BitVec 3) : opF (rowBits k op) = op := by
  ext i hi
  simp [opF, getLsbD_rowBits, hi]

theorem and_rowBits (w : Word) (mask : BitVec 5) : w &&& rowBits mask 7 = rowBits (aluOpF w &&& mask) (opF w) := by
  apply BitVec.eq_of_getLsbD_eq
  intro i hi
  simp only [BitVec.getLsbD_and, getLsbD_rowBits, aluOpF, opF, BitVec.getLsbD_extractLsb']
  split_ifs with h3 h17
  · interval_cases i <;> simp
  · simp
  · by_cases hk : i - 17 < 5
    · simp [hk, show 17 + (i - 17) = i by omega]
    · simp [hk, BitVec.getLsbD_of_ge mask (i - 17) (by omega)]

/-- A row that fixes the selector and, of the sub-operation, the bits of `mask`. -/
theorem rowMatches_rowBits (mask k : BitVec 5) (op : BitVec 3) (w : Word) :
    rowMatches (rowBits mask 7) (rowBits k op) w = true ↔ opF w = op ∧ aluOpF w &&& mask = k := by
  rw [rowMatches, beq_iff_eq, and_rowBits]
  constructor
  · intro h
    have hk := congrArg aluOpF h
    have hop := congrArg opF h
    rw [aluOpF_rowBits, aluOpF_rowBits] at hk
    rw [opF_rowBits, opF_rowBits] at hop
    exact ⟨hop, hk⟩
  · rintro ⟨rfl, rfl⟩; rfl

section
variable (w : Word)

theorem wf_reservedAluop4To7 :
    (Instr.reservedAluop4To7 w).wf = true ↔ opF w = 0 ∧ 4 ≤ (aluOpF w).toNat ∧ (aluOpF w).toNat < 8 := by
  have hk : ∀ k : BitVec 5, k &&& 28 = 4 ↔ 4 ≤ k.toNat ∧ k.toNat < 8 := by decide
  rw [← hk]; exact rowMatches_rowBits 28 4 0 w

theorem wf_reservedAluop13 : (Instr.reservedAluop13 w).wf = true ↔ opF w = 0 ∧ (aluOpF w).toNat = 13 := by
  have hk : ∀ k : BitVec 5, k &&& 31 = 13 ↔ k.toNat = 13 := by decide
  rw [← hk]; exact rowMatches_rowBits 31 13 0 w

theorem wf_reservedAluop14To15 :
    (Instr.reservedAluop14To15 w).wf = true ↔ opF w = 0 ∧ 14 ≤ (aluOpF w).toNat ∧ (aluOpF w).toNat < 16 := by
  have hk : ∀ k : BitVec 5, k &&& 30 = 14 ↔ 14 ≤ k.toNat ∧ k.toNat < 16 := by decide
  rw [← hk]; exact rowMatches_rowBits 30 14 0 w

theorem wf_reservedAluop16To31 :
    (Instr.reservedAluop16To31 w).wf = true ↔ opF w = 0 ∧ 16 ≤ (aluOpF w).toNat := by
  have hk : ∀ k : BitVec 5, k &&& 16 = 16 ↔ 16 ≤ k.toNat := by decide
  rw [← hk]; exact rowMatches_rowBits 16 16 0 w

theorem wf_reservedOp6 : (Instr.reservedOp6 w).wf = true ↔ opF w = 6 := by
  have hk : aluOpF w &&& 0 = 0 := BitVec.and_zero
  exact (rowMatches_rowBits 0 0 6 w).trans (and_iff_left hk)

end

/-! ### The decode procedure of R111 -/

/-- The instructions that the decode procedure gives: the operation and branch rows at every operand, and the reserved
rows with a word of theirs. -/
def coreWf : Instr → Bool
  | .add _ _ _ _ _ | .addc _ _ _ _ _ | .sub _ _ _ _ _ | .subb _ _ _ _ _ => true
  | .xor _ _ _ _ _ | .or _ _ _ _ _ | .and _ _ _ _ _ | .andn _ _ _ _ _ | .nand _ _ _ _ _ => true
  | .reservedAluop4To7 w => (Instr.reservedAluop4To7 w).wf
  | .reservedAluop13 w => (Instr.reservedAluop13 w).wf
  | .reservedAluop14To15 w => (Instr.reservedAluop14To15 w).wf
  | .reservedAluop16To31 w => (Instr.reservedAluop16To31 w).wf
  | .addi _ _ _ _ _ | .bfi _ _ _ _ _ _ _ _ | .bfeli _ _ _ _ _ _ _ | .bfelr _ _ _ _ _ _ _ => true
  | .read _ _ _ _ _ => true
  | .reservedOp6 w => (Instr.reservedOp6 w).wf
  | .bz _ _ _ | .bnz _ _ _ | .bzNd _ _ _ | .bnzNd _ _ _ => true
  | _ => false

section
variable {w : Word}

/-- The cases `h_5` to `h_8` and `h_14` to `h_17` are the reserved sub-operations 4 to 7, 13, 14, 15 and 16 to 31. -/
theorem coreWf_decodeReg (h : opF w = 0) : coreWf (decodeReg w) = true := by
  have hlt : (aluOpF w).toNat < 32 := (aluOpF w).isLt
  unfold decodeReg
  split
  case h_5 | h_6 | h_7 | h_8 => exact (wf_reservedAluop4To7 w).mpr ⟨h, by omega, by omega⟩
  case h_14 hk => exact (wf_reservedAluop13 w).mpr ⟨h, hk⟩
  case h_15 | h_16 => exact (wf_reservedAluop14To15 w).mpr ⟨h, by omega, by omega⟩
  case h_17 => exact (wf_reservedAluop16To31 w).mpr ⟨h, by simp only [imp_false] at *; omega⟩
  all_goals rfl

theorem coreWf_decodeBranch (w : Word) : coreWf (decodeBranch w) = true := by
  unfold decodeBranch; split <;> rfl

theorem coreWf_decodeMacroCore (w : Word) : coreWf (decodeMacroCore w) = true := by
  unfold decodeMacroCore
  split
  case h_1 h => exact coreWf_decodeReg (BitVec.eq_of_toNat_eq h)
  case h_7 h => exact (wf_reservedOp6 w).mpr (BitVec.eq_of_toNat_eq h)
  case h_8 => exact coreWf_decodeBranch w
  all_goals rfl

theorem decodeMacroCore_of_reg (h : opF w = 0) : decodeMacroCore w = decodeReg w := by
  simp [decodeMacroCore, h]

theorem decodeReg_reservedAluop4To7 (hk : 4 ≤ (aluOpF w).toNat ∧ (aluOpF w).toNat < 8) :
    decodeReg w = .reservedAluop4To7 w := by
  have hk : (aluOpF w).toNat = 4 ∨ (aluOpF w).toNat = 5 ∨ (aluOpF w).toNat = 6 ∨ (aluOpF w).toNat = 7 := by omega
  rcases hk with hk | hk | hk | hk <;> simp only [decodeReg, hk]

theorem decodeReg_reservedAluop13 (hk : (aluOpF w).toNat = 13) : decodeReg w = .reservedAluop13 w := by
  simp only [decodeReg, hk]

theorem decodeReg_reservedAluop14To15 (hk : 14 ≤ (aluOpF w).toNat ∧ (aluOpF w).toNat < 16) :
    decodeReg w = .reservedAluop14To15 w := by
  have hk : (aluOpF w).toNat = 14 ∨ (aluOpF w).toNat = 15 := by omega
  rcases hk with hk | hk <;> simp only [decodeReg, hk]

theorem decodeReg_reservedAluop16To31 (hk : 16 ≤ (aluOpF w).toNat) : decodeReg w = .reservedAluop16To31 w := by
  unfold decodeReg
  split
  case h_17 => rfl
  all_goals omega

end

theorem decodeMacroCore_regWord (k : RegOp) (asg : Asg) (x : Bool) (d a b : Reg) :
    decodeMacroCore (regWord (regOpCode k) asg x d a b) = regInstr k asg x d a b := by
  rw [decodeMacroCore_of_reg (opF_regWord ..)]
  cases k <;>
    simp [decodeReg, regInstr, regOpCode, aluOpF_regWord, asgF_regWord, exitF_regWord, dstF_regWord, srcAF_regWord,
      srcBF_regWord]

/-- The decode procedure gives back every instruction that it can give. -/
theorem decodeMacroCore_encodeMacro {c : Instr} (h : coreWf c = true) : decodeMacroCore (encodeMacro c) = c := by
  cases c <;> first | exact absurd h Bool.false_ne_true | skip
  case add => exact decodeMacroCore_regWord .add ..
  case addc => exact decodeMacroCore_regWord .addc ..
  case sub => exact decodeMacroCore_regWord .sub ..
  case subb => exact decodeMacroCore_regWord .subb ..
  case xor => exact decodeMacroCore_regWord .xor ..
  case or => exact decodeMacroCore_regWord .or ..
  case and => exact decodeMacroCore_regWord .and ..
  case andn => exact decodeMacroCore_regWord .andn ..
  case nand => exact decodeMacroCore_regWord .nand ..
  case reservedAluop4To7 w =>
    obtain ⟨hop, hk⟩ := (wf_reservedAluop4To7 w).mp h
    exact (decodeMacroCore_of_reg hop).trans (decodeReg_reservedAluop4To7 hk)
  case reservedAluop13 w =>
    obtain ⟨hop, hk⟩ := (wf_reservedAluop13 w).mp h
    exact (decodeMacroCore_of_reg hop).trans (decodeReg_reservedAluop13 hk)
  case reservedAluop14To15 w =>
    obtain ⟨hop, hk⟩ := (wf_reservedAluop14To15 w).mp h
    exact (decodeMacroCore_of_reg hop).trans (decodeReg_reservedAluop14To15 hk)
  case reservedAluop16To31 w =>
    obtain ⟨hop, hk⟩ := (wf_reservedAluop16To31 w).mp h
    exact (decodeMacroCore_of_reg hop).trans (decodeReg_reservedAluop16To31 hk)
  case reservedOp6 w => simp [encodeMacro, decodeMacroCore, (wf_reservedOp6 w).mp h]
  case addi | read =>
    simp [encodeMacro, decodeMacroCore, opF_immWord, asgF_immWord, exitF_immWord, dstF_immWord, srcAF_immWord,
      immF_immWord]
  case bfi | bfeli | bfelr =>
    simp [encodeMacro, decodeMacroCore, opF_bitfieldWord, asgF_bitfieldWord, exitF_bitfieldWord, dstF_bitfieldWord,
      srcAF_bitfieldWord, srcBF_bitfieldWord, srcBitF_bitfieldWord, sizeF_bitfieldWord, dstBitF_bitfieldWord]
  case bz | bnz | bzNd | bnzNd =>
    simp [encodeMacro, decodeMacroCore, decodeBranch, opF_branchWord, noDelayF_branchWord, nzF_branchWord,
      exitF_branchWord, srcAF_branchWord, immF_branchWord]

/-! ### The row that names the word -/

theorem coreWf_aluInstr (op : AluOp) (asg : Asg) (x : Bool) (d : Reg) : coreWf (aluInstr op asg x d) = true := by
  rcases op with ⟨k, a, b⟩ | _ | _ | _ | _ | _
  · cases k <;> rfl
  all_goals rfl

/-- A macro row stands for an instruction that the decode procedure gives. -/
theorem coreWf_core {i : Instr} (hi : isMacroRow i = true) (h : i.wf = true) : coreWf (core i) = true := by
  cases i <;> first | exact absurd hi Bool.false_ne_true | exact coreWf_aluInstr .. | exact h | rfl

/-! #### ADD of r0 and r0, and the assignment-suffix rows -/

theorem wf_add (asg : Asg) (x : Bool) (d a b : Reg) :
    (Instr.add asg x d a b).wf = true ↔ ¬(a = 0 ∧ b = 0 ∧ ¬(asg = .load ∧ x = false ∧ d = 0)) := by
  simp [wf]; tauto

theorem wf_suffixInstr (op : AluOp) (asg : Asg) (x : Bool) (d : Reg) :
    (suffixInstr op asg x d).wf = true ↔ op = .reg .add 0 0 ∧ ¬(asg = .load ∧ x = false ∧ d = 0) := by
  cases asg <;> simp [suffixInstr, wf, bareSuffix]
  cases x <;> simp

theorem rowName_aluInstr {op : AluOp} {asg : Asg} {x : Bool} {d : Reg} (h : (suffixInstr op asg x d).wf = true) :
    rowName (aluInstr op asg x d) = suffixInstr op asg x d := by
  obtain ⟨rfl, hn⟩ := (wf_suffixInstr op asg x d).mp h
  exact if_pos ⟨rfl, rfl, hn⟩

/-! #### ADDI and its pseudo-instructions -/

theorem addiName_of_not_pseudo {asg : Asg} {x : Bool} {d a : Reg} {v : BitVec 18}
    (h : addiIsPseudo asg x d a v = false) : addiName asg x d a v = .addi asg x d a v := by
  unfold addiIsPseudo at h
  unfold addiName
  split at h
  all_goals simp_all

theorem wf_addiName (asg : Asg) (x : Bool) (d a : Reg) (v : BitVec 18) : (addiName asg x d a v).wf = true := by
  unfold addiName
  split
  case h_6 => cases asg <;> cases x <;> simp_all [wf, addiIsPseudo]
  all_goals split_ifs
  all_goals simp_all [wf, addiIsPseudo]
  all_goals tauto

/-! #### Branches on r0 and J -/

theorem wf_bz (x : Bool) (a : Reg) (v : BitVec 18) :
    (Instr.bz x a v).wf = true ↔ ¬(x = false ∧ a = 0 ∧ v ≠ 0) := by
  cases x <;> simp [wf]
  tauto

theorem wf_bzNd (x : Bool) (a : Reg) (v : BitVec 18) :
    (Instr.bzNd x a v).wf = true ↔ ¬(x = false ∧ a = 0 ∧ v ≠ 0) := wf_bz x a v

/-! #### Every macro row -/

/-- A well-formed macro row is the one that names the instruction it stands for. -/
theorem rowName_core {i : Instr} (hi : isMacroRow i = true) (h : i.wf = true) : rowName (core i) = i := by
  cases i <;> first | exact absurd hi Bool.false_ne_true | skip
  case add asg x d a b => exact if_neg ((wf_add asg x d a b).mp h)
  case addi asg x d a v => exact addiName_of_not_pseudo (by simpa [wf] using h)
  case bz x a v => exact if_neg ((wf_bz x a v).mp h)
  case bzNd x a v => exact if_neg ((wf_bzNd x a v).mp h)
  case load op x d => exact rowName_aluInstr (asg := .load) h
  case move op x d => exact rowName_aluInstr (asg := .move) h
  case movsm op x d => exact rowName_aluInstr (asg := .movsm) h
  case ldsend op x d => exact rowName_aluInstr (asg := .ldsend) h
  case mvsend op x d => exact rowName_aluInstr (asg := .mvsend) h
  case ldsm op x d => exact rowName_aluInstr (asg := .ldsm) h
  case mvsmldsend op x d => exact rowName_aluInstr (asg := .mvsmldsend) h
  case mvsmsendhi op x d => exact rowName_aluInstr (asg := .mvsmsendhi) h
  case mov | li | parm => simp_all [wf, core, rowName, addiName, imp_iff_not_or]
  case j | jNd => simp_all [wf, core, rowName]
  all_goals rfl

/-- The row that names an instruction of the decode procedure is well-formed. -/
theorem wf_rowName {c : Instr} (h : coreWf c = true) : (rowName c).wf = true := by
  cases c
  case add asg x d a b =>
    simp only [rowName]
    split_ifs with hn
    · obtain ⟨-, -, hbare⟩ := hn
      exact (wf_suffixInstr _ _ _ _).mpr ⟨rfl, hbare⟩
    · exact (wf_add asg x d a b).mpr hn
  case addi asg x d a v => exact wf_addiName asg x d a v
  case bz x a v =>
    simp only [rowName]
    split_ifs with hn
    · obtain ⟨-, -, hv⟩ := hn
      exact bne_iff_ne.mpr hv
    · exact (wf_bz x a v).mpr hn
  case bzNd x a v =>
    simp only [rowName]
    split_ifs with hn
    · obtain ⟨-, -, hv⟩ := hn
      exact bne_iff_ne.mpr hv
    · exact (wf_bzNd x a v).mpr hn
  all_goals first | exact absurd h Bool.false_ne_true | exact h

/-! ### The other kinds of object -/

theorem wf_decodeHeader (w : Word) : (decodeHeader w).wf = true := by unfold decodeHeader; split <;> rfl

theorem decodeEntry_entryWord (np : Bool) (n : BitVec 21) (a : BitVec 38) :
    decodeEntry (entryWord np n a) = .queueEntry np n a := by
  simp only [decodeEntry, noPrefetch_entryWord, count_entryWord, address_entryWord]

theorem decodeFifoMethod_unnamed {m : Word} (h : m.toNat < 0x44 ∨ 0x49 < m.toNat) (v : Word) :
    decodeFifoMethod m v = .fifoOther m v := by
  unfold decodeFifoMethod
  split
  case h_7 => rfl
  all_goals omega

theorem wf_decodeFifoMethod {m : Word} (h0 : 0 < m.toNat) (h : m.toNat < 0x60) (v : Word) :
    (decodeFifoMethod m v).wf = true := by
  by_cases hm : m.toNat < 0x44 ∨ 0x49 < m.toNat
  · rw [decodeFifoMethod_unnamed hm]
    exact decide_eq_true ⟨h0, h, hm⟩
  · have hn : m.toNat = 0x44 ∨ m.toNat = 0x45 ∨ m.toNat = 0x46 ∨ m.toNat = 0x47 ∨ m.toNat = 0x48 ∨
        m.toNat = 0x49 := by omega
    rcases hn with hn | hn | hn | hn | hn | hn <;> simp only [decodeFifoMethod, hn] <;> rfl

/-! #### Method calls, by the range of the method number -/

section
variable {c : MethodCall}

theorem method_ne_zero (h : 0 < c.method.toNat) : c.method ≠ 0 := fun h' => by simp [h'] at h

theorem decodeCall_zero (h : c.method = 0) : decodeCall c = .bindChannel c.subChannel c.argument := if_pos h

theorem decodeCall_fifo (h0 : 0 < c.method.toNat) (h : c.method.toNat < 0x60) :
    decodeCall c = decodeFifoMethod c.method c.argument :=
  (if_neg (method_ne_zero h0)).trans (if_pos h)

theorem decodeCall_register (h0 : 0x60 ≤ c.method.toNat) (h : c.method.toNat < 0xE00) :
    decodeCall c = .registerMethod c.subChannel c.method c.argument :=
  (if_neg (method_ne_zero (by omega))).trans ((if_neg (Nat.not_lt.mpr h0)).trans (if_pos h))

theorem decodeCall_macro (h : 0xE00 ≤ c.method.toNat) :
    decodeCall c =
      if c.method.getLsbD 0 then .macroArgument c.subChannel c.method c.argument c.remainingCount
      else .macroStart c.subChannel c.method c.argument c.remainingCount :=
  (if_neg (method_ne_zero (by omega))).trans
    ((if_neg (Nat.not_lt.mpr (by omega : 0x60 ≤ c.method.toNat))).trans (if_neg (Nat.not_lt.mpr h)))

theorem wf_decodeCall (c : MethodCall) : (decodeCall c).wf = true := by
  by_cases h0 : c.method = 0
  · rw [decodeCall_zero h0]; rfl
  have hpos : 0 < c.method.toNat := Nat.pos_of_ne_zero fun h => h0 (BitVec.eq_of_toNat_eq h)
  by_cases hf : c.method.toNat < 0x60
  · rw [decodeCall_fifo hpos hf]
    exact wf_decodeFifoMethod hpos hf c.argument
  by_cases hr : c.method.toNat < 0xE00
  · rw [decodeCall_register (Nat.le_of_not_lt hf) hr]
    exact decide_eq_true ⟨Nat.le_of_not_lt hf, hr⟩
  have hm := Nat.le_of_not_lt hr
  rw [decodeCall_macro hm]
  split_ifs with hb
  · exact Bool.and_eq_true_iff.mpr ⟨decide_eq_true hm, hb⟩
  · exact Bool.and_eq_true_iff.mpr ⟨decide_eq_true hm, by simpa using hb⟩

end

/-! ### Every object -/

theorem encode_of_isMacroRow {i : Instr} (hi : isMacroRow i = true) : encode i = .mme (encodeMacro (core i)) := by
  cases i <;> first | rfl | exact absurd hi Bool.false_ne_true

/-- A macro row goes through the instruction it stands for, every other row decodes from its own fields. -/
theorem decode_encode {i : Instr} (h : i.wf = true) : decode (encode i) = i := by
  by_cases hi : isMacroRow i = true
  · rw [encode_of_isMacroRow hi]
    exact (congrArg rowName (decodeMacroCore_encodeMacro (coreWf_core hi h))).trans (rowName_core hi h)
  cases i <;> first | exact absurd rfl hi | skip
  case inc | noninc | imm | oneinc =>
    change decodeHeader (headerWord _ _ _ _) = _
    simp [decodeHeader, mode_headerWord, count_headerWord, subChannel_headerWord, method_headerWord]
  case length n => exact congrArg Instr.length (BitVec.extractLsb'_append_eq_right)
  case fifoOther m v =>
    obtain ⟨h0, hlt, hm⟩ := of_decide_eq_true h
    exact (decodeCall_fifo h0 hlt).trans (decodeFifoMethod_unnamed hm v)
  case registerMethod sc m v =>
    obtain ⟨h0, hlt⟩ := of_decide_eq_true h
    exact decodeCall_register h0 hlt
  case macroStart sc m v n =>
    obtain ⟨hm, hb⟩ := Bool.and_eq_true_iff.mp h
    have hm : 0xE00 ≤ m.toNat := of_decide_eq_true hm
    exact (decodeCall_macro hm).trans (if_neg (by simpa using hb))
  case macroArgument sc m v n =>
    obtain ⟨hm, hb⟩ := Bool.and_eq_true_iff.mp h
    have hm : 0xE00 ≤ m.toNat := of_decide_eq_true hm
    exact (decodeCall_macro hm).trans (if_pos hb)
  case queueEntry np n a => exact decodeEntry_entryWord np n a
  all_goals rfl

/-- Every object decodes to a well-formed instruction, by the kind of the object. -/
theorem wf_decode (c : Code) : (decode c).wf = true := by
  cases c with
  | mme w => exact wf_rowName (coreWf_decodeMacroCore w)
  | header w => exact wf_decodeHeader w
  | data w => rfl
  | length w => rfl
  | call c => exact wf_decodeCall c
  | entry e => rfl

/-- Settles O1: every well-formed row decodes back, `decode_encode`. -/
theorem decodingAnEncodedInstructionGivesItBack : Obligations.DecodingAnEncodedInstructionGivesItBack :=
  fun _ h => decode_encode h

/-- Settles O2: what the decoder gives on each kind of object, `wf_decode`. -/
theorem decoderGivesOnlyWellFormedInstructions : Obligations.DecoderGivesOnlyWellFormedInstructions := wf_decode

end Sys2Proof.Decode

/-! PROOF. Whose move a step is and what the move finds: the pusher's next word or next buffer, a producer's next entry
or call (40_command_buffer.md R130 to R137, R148; log 2, log 11 to 13). -/

namespace Sys2Proof.Machine

open Sys2Proof.Safety

variable {s : State}

/-! ### The pusher's move -/

theorem classify_eq (w : Word) (s : State) :
    classify w s = if s.lengthPending then .length w else if s.methodCount = 0 then .header w else .data w := by
  simp only [classify, ne_eq, ite_not]

theorem agentFetch_pusher (hf : s.fault = none) (hp : s.phase = .pusher) : agentFetch s = pusherFetch s := by
  rw [agentFetch_of_no_fault hf, hp]

theorem agentFetch_call (hf : s.fault = none) {c : MethodCall} {k : After} (hp : s.phase = .call c k) :
    agentFetch s = .run (.call c) s := by
  rw [agentFetch_of_no_fault hf, hp]

/-- The pusher's next word is `w` (40_command_buffer.md R137). -/
structure NextWord (s : State) (b : CommandBuffer) (ws : List Word) (w : Word) : Prop where
  cur : s.cur = some b
  words : b.words = some ws
  left : s.pos < b.count
  word : ws[s.pos]? = some w

theorem pusherFetch_of_nextWord {b : CommandBuffer} {ws : List Word} {w : Word} (h : NextWord s b ws w) :
    pusherFetch s = .run (classify w s) { s with pos := s.pos + 1 } := by
  simp only [pusherFetch, h.cur, if_pos h.left, h.words, Option.bind_some, h.word]

/-- The active buffer, if there is one, has no word left. -/
abbrev Exhausted (s : State) : Prop := ∀ c, s.cur = some c → c.count ≤ s.pos

theorem pusherFetch_of_exhausted (h : Exhausted s) : pusherFetch s = nextBuffer s := by
  unfold pusherFetch
  split
  · rfl
  · next b hb => exact if_neg (Nat.not_lt.mpr (h b hb))

theorem nextBuffer_nil (h : s.queue = []) : nextBuffer s = .idle := by
  simp only [nextBuffer, h]

theorem nextBuffer_resident {b : CommandBuffer} {q : List CommandBuffer} (hq : s.queue = b :: q) (hw : b.words ≠ none) :
    nextBuffer s = .moved { s with queue := q, cur := some b, pos := 0 } := by
  simp only [nextBuffer, hq, fetchBuffer_resident hw]

theorem nextBuffer_absent {b : CommandBuffer} {q : List CommandBuffer} (hq : s.queue = b :: q) (hw : b.words = none) :
    nextBuffer s = .moved
      { s with
        queue := q
        cur := some { b with words := some (Memory.readWords s.gpuMem s.draws b.address.toNat b.count).1 }
        pos := 0
        trace := s.trace ++ [.memRead b.address (4 * b.count)]
        draws := (Memory.readWords s.gpuMem s.draws b.address.toNat b.count).2 } := by
  simp only [nextBuffer, hq, fetchBuffer_absent hw]
  rfl

theorem agentFetch_idle (hf : s.fault = none) (hp : s.phase = .pusher) (hx : Exhausted s) (hq : s.queue = []) :
    agentFetch s = .idle := by
  rw [agentFetch_pusher hf hp, pusherFetch_of_exhausted hx, nextBuffer_nil hq]

/-- At a boundary of pusher steps the agent's step is the pusher's move. -/
theorem step_of_pusherFetch {f : Fetched} (h : AgentMoves s) (hp : s.phase = .pusher)
    (hf : pusherFetch { s with turns := s.turns.tail } = f) (hi : f ≠ .idle) : step s = runFetched s f := by
  have ha : agentFetch { s with turns := s.turns.tail } = f :=
    (agentFetch_pusher (s := { s with turns := s.turns.tail }) h.1 hp).trans hf
  rw [step_of_agentMoves h hp (by rwa [ha]), ha]

/-- A step of the pusher with a word left runs that word (40_command_buffer.md R137, R139). -/
theorem step_of_nextWord {b : CommandBuffer} {ws : List Word} {w : Word} (h : AgentMoves s) (hp : s.phase = .pusher)
    (hw : NextWord s b ws w) :
    step s = exec (Decode.decode (classify w s)) { s with pos := s.pos + 1, turns := s.turns.tail } :=
  step_of_pusherFetch h hp (pusherFetch_of_nextWord (s := { s with turns := s.turns.tail }) { hw with }) nofun

/-- A step of the pusher with no word left is what the next queued buffer gives. -/
theorem step_of_exhausted {t : State} (h : AgentMoves s) (hp : s.phase = .pusher) (hx : Exhausted s)
    (hn : nextBuffer { s with turns := s.turns.tail } = .moved t) : step s = .next t :=
  step_of_pusherFetch h hp ((pusherFetch_of_exhausted (s := { s with turns := s.turns.tail }) hx).trans hn) nofun

/-- Settles O7: the step runs the class that `classify` gives the next word. -/
theorem pusherStepConsumesOneWord : Obligations.PusherStepConsumesOneWord := by
  intro s b ws w i h hp hc hw hlt hget hi _
  rw [step_of_nextWord h hp ⟨hc, hw, hlt, hget⟩, classify_eq, hi]

/-- Settles O8: the activated buffer is resident, or read now. -/
theorem pusherStepActivatesTheNextBuffer : Obligations.PusherStepActivatesTheNextBuffer := fun s _ _ h hp hx hq =>
  ⟨fun hw => step_of_exhausted h hp hx (nextBuffer_resident (s := { s with turns := s.turns.tail }) hq hw),
    fun hw => step_of_exhausted h hp hx (nextBuffer_absent (s := { s with turns := s.turns.tail }) hq hw)⟩

/-- A step with a waiting call runs the call, whatever turns are prescribed (41_dispatch.md R170). -/
theorem step_of_call {c : MethodCall} {k : After} (hf : s.fault = none) (hp : s.phase = .call c k) :
    step s = exec (Decode.decode (.call c)) s := by
  rw [step, nextFetch_inside hf (by rw [hp]; nofun), agentFetch_call hf hp, runFetched]

/-! ### The producers' moves -/

theorem hostFetch_entry {n : Nat} {p : Producer} {e : BitVec 64} {es : List (BitVec 64)}
    (hp : s.producers[n]? = some p) (he : p.entries = e :: es) :
    hostFetch n s =
      .run (.entry e) { s with producers := s.producers.set n { p with entries := es }, pushing := n } := by
  simp only [hostFetch, hp, he]

theorem hostFetch_call {n : Nat} {p : Producer} (hp : s.producers[n]? = some p) (he : p.entries = []) :
    hostFetch n s = .moved (hostCall n p s) := by
  simp only [hostFetch, hp, he]

theorem hostFetch_ne_idle (n : Nat) (s : State) : hostFetch n s ≠ .idle := by
  unfold hostFetch
  split
  · nofun
  · split <;> nofun

/-- A producer's prescribed turn, at a boundary of pusher steps or after a fault, is that producer's move. -/
theorem step_of_producer_turn {n : Nat} {ts : List Turn} (h : s.phase = .pusher ∨ s.fault ≠ none)
    (hts : s.turns = .producer n :: ts) : step s = runFetched s (hostFetch n { s with turns := ts }) := by
  simp only [step, nextFetch_outside h, turnFetch, hts]

/-- Settles O10: the producer's move runs the first entry of its call. -/
theorem producerStepPushesItsNextEntry : Obligations.ProducerStepPushesItsNextEntry := by
  intro s n p e es ts i h hts hp he hi _
  rw [step_of_producer_turn h hts, hostFetch_entry (s := { s with turns := ts }) hp he, ← hi]
  rfl

/-- Settles O11: the producer's move makes the first of its calls, by the kind of the call. -/
theorem producerStepMakesItsNextCall : Obligations.ProducerStepMakesItsNextCall := by
  rintro s _ n p c cs ts h hts hp he hc rfl
  rw [step_of_producer_turn h hts, hostFetch_call (s := { s with turns := ts }) hp he]
  simp only [runFetched, hostCall, hc]
  cases c with
  | pushEntries es => rfl
  | pushHostCommandBuffer ws => rfl
  | setMemory a b => rfl

/-! ### An idle processing agent -/

theorem busy_iff (p : Producer) : p.busy = true ↔ p.entries ≠ [] ∨ p.calls ≠ [] := by
  simp only [Producer.busy, Bool.not_eq_true', Bool.and_eq_false_iff, List.isEmpty_eq_false_iff]

theorem busy_eq_false_iff (p : Producer) : p.busy = false ↔ p.entries = [] ∧ p.calls = [] := by
  simp only [Producer.busy, Bool.not_eq_false', Bool.and_eq_true, List.isEmpty_iff]

theorem firstBusy_eq_none {ps : List Producer} (h : ∀ p ∈ ps, p.busy = false) (n : Nat) : firstBusy ps n = none := by
  induction ps generalizing n with
  | nil => rfl
  | cons p ps ih =>
    obtain ⟨hp, hps⟩ := List.forall_mem_cons.mp h
    simp only [firstBusy, hp, Bool.false_eq_true, if_false, ih hps]

/-- Counting from `n`, the first busy producer is the one at `k` where it is busy and those before it are not. -/
theorem firstBusy_eq_some {ps : List Producer} {k : Nat} {p : Producer} (hp : ps[k]? = some p) (hb : p.busy = true)
    (hbefore : ∀ m q, m < k → ps[m]? = some q → q.busy = false) (n : Nat) : firstBusy ps n = some (n + k) := by
  induction ps generalizing k n with
  | nil => simp at hp
  | cons q ps ih =>
    cases k with
    | zero =>
      obtain rfl : q = p := by simpa using hp
      simp only [firstBusy, hb, if_true, Nat.add_zero]
    | succ k =>
      have hq : q.busy = false := hbefore 0 q k.succ_pos rfl
      have hrest := ih (by simpa using hp) (fun m r hm hr => hbefore (m + 1) r (by omega) (by simpa using hr)) (n + 1)
      simp only [firstBusy, hq, Bool.false_eq_true, if_false, hrest]
      congr 1
      omega

/-- Where the agent is idle and no turn is prescribed, the first busy producer moves, if there is one. -/
theorem step_of_idle (hp : s.phase = .pusher) (ht : s.turns = []) (hi : agentFetch s = .idle) :
    step s = runFetched s ((firstBusy s.producers 0).elim .idle fun n => hostFetch n s) := by
  simp only [step, nextFetch_outside (.inl hp), turnFetch, ht, freeFetch, hi]
  cases firstBusy s.producers 0 <;> rfl

/-- Only an idle move's outcome depends on the state before it. -/
theorem runFetched_congr {f : Fetched} (h : f ≠ .idle) (s t : State) : runFetched s f = runFetched t f := by
  cases f with
  | idle => exact absurd rfl h
  | run c u => rfl
  | moved u => rfl
  | stopped k i => rfl
  | noWord => rfl

/-- Settles O12: the agent is idle, and `firstBusy` finds the producer that moves. -/
theorem idleAgentLeavesTheStepToTheProducers : Obligations.IdleAgentLeavesTheStepToTheProducers := by
  intro s hf hp hx hq
  have hi : agentFetch s = .idle := agentFetch_idle hf hp hx hq
  refine ⟨fun ht hdone => ?_, fun n p ht hn hb hbefore => ?_, fun ts ht => ?_⟩
  · rw [step_of_idle hp ht hi, firstBusy_eq_none fun p hmem => (busy_eq_false_iff p).mpr (hdone p hmem)]
    rfl
  · have hfirst : firstBusy s.producers 0 = some n := by
      simpa using firstBusy_eq_some hn ((busy_iff p).mpr hb)
        (fun m q hm hq => (busy_eq_false_iff q).mpr (hbefore m q hm hq)) 0
    have hs : { s with turns := [] } = s := by rw [← ht]
    have hturn := step_of_producer_turn (s := { s with turns := [.producer n] }) (.inl hp) rfl
    rw [step_of_idle hp ht hi, hfirst, hturn]
    simp only [hs]
    exact runFetched_congr (hostFetch_ne_idle n s) s _
  · have hi' : agentFetch { s with turns := ts } = .idle := agentFetch_idle hf hp hx hq
    simp only [step, nextFetch_outside (.inl hp), turnFetch, ht, hi', runFetched]

end Sys2Proof.Machine

/-! PROOF. What the command words do to the DmaState (40_command_buffer.md R140 to R146), and the push of one GPFIFO
entry (R130 to R132, R135). -/

namespace Sys2Proof.Machine

open Sys2Proof.Safety

/-! ### Headers, data words, length words -/

/-- Settles O35: each count header is a `loadHeader` with its two flags. -/
theorem countHeadersLoadTheDmaState : Obligations.CountHeadersLoadTheDmaState := by
  rintro s _ m sc n rfl
  simp only [BitVec.ofNat_toNat]
  exact ⟨rfl, rfl, rfl⟩

/-- Settles O36: the header's fields reach the call that `makeCall` leaves in the phase. -/
theorem immediateHeaderMakesItsCall : Obligations.ImmediateHeaderMakesItsCall := by
  intro s m sc v
  simp only [BitVec.ofNat_toNat]
  rfl

/-- Settles O38: a data word is a `makeCall`, a length word a load of the count. -/
theorem dataAndLengthWords : Obligations.DataAndLengthWords := by
  intro s w n
  simp only [BitVec.ofNat_toNat]
  exact ⟨rfl, rfl⟩

/-- The mode of a header, its bits 31:29, as a number (30_encoding.md R93). -/
theorem toNat_headerMode (w : Word) : (w.extractLsb' 29 3).toNat = w.toNat / 2 ^ 29 := by
  rw [BitVec.extractLsb'_toNat, Nat.shiftRight_eq_div_pow]
  omega

/-- A header of a reserved mode runs to the state it finds (40_command_buffer.md R145). -/
theorem exec_decodeHeader_reserved {w : Word} (h : w.toNat / 2 ^ 29 ∈ [0, 2, 6, 7]) (s : State) :
    exec (Decode.decodeHeader w) s = .next s := by
  simp only [List.mem_cons, List.not_mem_nil, or_false] at h
  rcases h with h | h | h | h <;> rw [Decode.decodeHeader, toNat_headerMode, h] <;> rfl

/-- Settles O37: the four rows, and the step that runs a header word decoded to one of them. -/
theorem reservedHeadersChangeNothing : Obligations.ReservedHeadersChangeNothing := by
  refine ⟨fun s => ⟨rfl, rfl, rfl, rfl⟩, fun s b ws w h hp hc hw hlt hget hlen hcount hmode => ?_⟩
  rw [step_of_nextWord h hp ⟨hc, hw, hlt, hget⟩, classify_eq, hlen, if_neg Bool.false_ne_true, if_pos hcount]
  exact exec_decodeHeader_reserved hmode _

/-! ### The push of one entry -/

section
variable {s : State} {p : Producer} (hp : s.producers[s.pushing]? = some p)
include hp

theorem beforeBarrier_eq : beforeBarrier s = p.beforeBarrier := by
  simp only [beforeBarrier, hp]

theorem clearBarrier_eq :
    clearBarrier s = { s with producers := s.producers.set s.pushing { p with beforeBarrier := false } } := by
  simp only [clearBarrier, List.modify_eq_set_getElem?, hp, Option.map_eq_map, Option.map_some, Option.getD_some]

/-- An entry before the barrier is read at its push, if no fault is recorded (40_command_buffer.md R132). -/
theorem prefetch_of_beforeBarrier (hb : p.beforeBarrier = true) (hf : s.fault = none) (b : CommandBuffer) :
    prefetch false b s = fetchBuffer b s :=
  if_pos (by simp [beforeBarrier_eq hp, hb, hf])

/-- An entry behind the barrier, or pushed after a fault, is not (40_command_buffer.md R132, 60_exceptions.md R301). -/
theorem prefetch_of_barrier_or_fault (h : p.beforeBarrier = false ∨ s.fault ≠ none) (b : CommandBuffer) :
    prefetch false b s = (b, s) :=
  if_neg (by rcases h with h | h <;> simp [beforeBarrier_eq hp, h])

end

theorem prefetch_noPrefetch (b : CommandBuffer) (s : State) : prefetch true b s = (b, s) := if_neg (by simp)

/-- An entry's address: bits 39:2 over two zeros (30_encoding.md R90). -/
theorem entryAddress_eq (a : BitVec 38) : (a ++ 0#2).setWidth 64 = BitVec.ofNat 64 (4 * a.toNat) := by
  apply BitVec.eq_of_toNat_eq
  simp only [BitVec.toNat_setWidth, BitVec.toNat_append, BitVec.toNat_ofNat, Nat.shiftLeft_eq, Nat.zero_mod, Nat.or_zero,
    Nat.mul_comm]

theorem entryBuffer_eq (np : Bool) (n : BitVec 21) (a : BitVec 38) :
    entryBuffer np n a =
      { kind := if np then .noPrefetch else .prefetchable, address := BitVec.ofNat 64 (4 * a.toNat), count := n.toNat
        words := none } := by
  rw [entryBuffer, entryAddress_eq]

/-- The push of an entry that may be prefetched. -/
theorem exec_queueEntry_prefetchable (n : BitVec 21) (a : BitVec 38) (s : State) :
    exec (.queueEntry false n a) s = .next
      ((prefetch false (entryBuffer false n a) s).2.enqueue (prefetch false (entryBuffer false n a) s).1) := rfl

/-- The push of a no-prefetch entry. -/
theorem exec_queueEntry_noPrefetch (n : BitVec 21) (a : BitVec 38) (s : State) :
    exec (.queueEntry true n a) s = .next ((clearBarrier s).enqueue (entryBuffer true n a)) := by
  simp only [exec, execQueueEntry, prefetch_noPrefetch, if_true]

/-- Settles O49: a prefetched entry, one that is not, and a no-prefetch entry. -/
theorem entryPushDecodesPrefetchesAndAppends : Obligations.EntryPushDecodesPrefetchesAndAppends := by
  rintro s p n a _ hp rfl
  refine ⟨fun ⟨hb, hf⟩ => ?_, fun h => ?_, ?_⟩
  · rw [exec_queueEntry_prefetchable, prefetch_of_beforeBarrier hp hb hf, entryBuffer_eq, fetchBuffer_absent rfl]
    rfl
  · rw [exec_queueEntry_prefetchable, prefetch_of_barrier_or_fault hp h, entryBuffer_eq]
    rfl
  · rw [exec_queueEntry_noPrefetch, clearBarrier_eq hp, entryBuffer_eq]
    rfl

end Sys2Proof.Machine

/-! PROOF. The data words of an INC or NONINC header sent to register methods, by induction over the words: what one word
does (two steps), and how what it leaves composes with what the words after it leave (40_command_buffer.md R141, R151;
41_dispatch.md R181 to R186). -/

namespace Sys2Proof.Machine

open Sys2Proof.Safety

variable {s t : State} {b : CommandBuffer} {all rest ws : List Word} {w : Word}

/-! ### What a stored write leaves to read -/

theorem sub_written (s : State) (sc : SubCh) (m v : Word) (o : Origin) (sc' : SubCh) :
    (written s sc m v o).sub sc' =
      if sc' = sc then
        { cls := (s.sub sc).cls
          regs := Memory.setWord (s.sub sc).regs m.toNat (storedValue s sc m v)
          shadow := if s.shadowMode.toNat ≤ 1 then Memory.setWord (s.sub sc).shadow m.toNat v else (s.sub sc).shadow }
      else s.sub sc' :=
  s.sub_setSub sc _ sc'

/-- A register after a stored write: the written one holds the stored value, every other one what it held. -/
theorem reg_written {sc : SubCh} (hr : Memory.rising (s.sub sc).regs) (m v : Word) (o : Origin) (sc' : SubCh) (k : Nat) :
    (written s sc m v o).reg sc' k = if sc' = sc ∧ m.toNat = k then storedValue s sc m v else s.reg sc' k := by
  simp only [State.reg, sub_written]
  by_cases h : sc' = sc
  · subst h
    simp only [if_true, Memory.wordAt_setWord hr, true_and]
  · simp only [h, if_false, false_and]

theorem rising_regs_written {sc : SubCh} (hr : Memory.rising (s.sub sc).regs) (m v : Word) (o : Origin) :
    Memory.rising ((written s sc m v o).sub sc).regs := by
  rw [sub_written, if_pos rfl]
  exact Memory.rising_setWord hr m.toNat _

/-- A stored write does not change what later writes store: Replay, which reads the shadow RAM, does not write it. -/
theorem storedValue_written (s : State) (sc : SubCh) (m v : Word) (o : Origin) (sc' : SubCh) (m' v' : Word) :
    storedValue (written s sc m v o) sc' m' v' = storedValue s sc' m' v' := by
  have hmode : (written s sc m v o).shadowMode = s.shadowMode := rfl
  simp only [storedValue, hmode]
  split_ifs with h
  · have hshadow : ((written s sc m v o).sub sc').shadow = (s.sub sc').shadow := by
      rw [sub_written]
      split_ifs with hsc h1
      · omega
      · rw [hsc]
      · rfl
    simp only [State.shadow, hshadow]
  · rfl

/-- A register method whose write is stored (41_dispatch.md R186). -/
theorem execRegisterMethod_of_writable {m : Word} (h : Writable s m) (sc : SubCh) (v : Word) :
    execRegisterMethod sc m v s = .next (wordDone (written s sc m v .pusher)) := by
  unfold execRegisterMethod
  rw [regWrite_of_writable h]
  exact congrArg Host.Outcome.next (endCall_eq_wordDone _)

/-! ### One data word -/

/-- The state in which the call of the data word `w` waits (40_command_buffer.md R141). -/
def called (s : State) (w : Word) : State :=
  makeCall w .dataWord { s with pos := s.pos + 1, turns := s.turns.tail }

/-- The state after a data word whose call is a register write that is stored. -/
def dataWritten (s : State) (w : Word) : State :=
  wordDone (written (called s w) s.subChannel s.method w .pusher)

/-- The method of the `i`-th data word from `s` on: constant for NONINC, rising for INC. -/
def methodAt (s : State) (i : Nat) : Word := if s.nonIncrementing then s.method else s.method + BitVec.ofNat 32 i

theorem methodAt_zero (s : State) : methodAt s 0 = s.method := by
  simp [methodAt]

theorem toNat_methodAt (hn : s.nonIncrementing = false) {i : Nat} (hi : s.method.toNat + i < 2 ^ 32) :
    (methodAt s i).toNat = s.method.toNat + i := by
  rw [methodAt, hn, if_neg Bool.false_ne_true, BitVec.toNat_add, BitVec.toNat_ofNat]
  omega

/-- The event of the `i`-th data word's write, for the word and its index `i`. -/
def writeEvent (s : State) (p : Word × Nat) : Event :=
  .regWrite s.subChannel (methodAt s p.2) (storedValue s s.subChannel (methodAt s p.2) p.1) .pusher

theorem dataWritten_pos (s : State) (w : Word) : (dataWritten s w).pos = s.pos + 1 := rfl

theorem dataWritten_method (s : State) (w : Word) :
    (dataWritten s w).method = if s.nonIncrementing then s.method else s.method + 1 := rfl

theorem dataWritten_nonIncrementing (h : s.incrementOnce = false) (w : Word) :
    (dataWritten s w).nonIncrementing = s.nonIncrementing := by
  change (s.nonIncrementing || s.incrementOnce) = s.nonIncrementing
  rw [h, Bool.or_false]

theorem dataWritten_trace (s : State) (w : Word) : (dataWritten s w).trace = s.trace ++ [writeEvent s (w, 0)] := by
  rw [writeEvent, methodAt_zero]
  rfl

theorem reg_dataWritten (hr : Memory.rising (s.sub s.subChannel).regs) (w : Word) (sc : SubCh) (k : Nat) :
    (dataWritten s w).reg sc k =
      if sc = s.subChannel ∧ s.method.toNat = k then storedValue s s.subChannel s.method w else s.reg sc k :=
  reg_written (s := called s w) hr s.method w .pusher sc k

theorem storedValue_dataWritten (s : State) (w : Word) (sc : SubCh) (m v : Word) :
    storedValue (dataWritten s w) sc m v = storedValue s sc m v :=
  storedValue_written (called s w) s.subChannel s.method w .pusher sc m v

theorem methodAt_dataWritten (h : s.incrementOnce = false) (w : Word) (i : Nat) :
    methodAt (dataWritten s w) i = methodAt s (i + 1) := by
  rw [methodAt, methodAt, dataWritten_nonIncrementing h, dataWritten_method]
  split_ifs
  · rfl
  · rw [BitVec.add_assoc, Nat.add_comm i 1, BitVec.ofNat_add]
    rfl

theorem writeEvent_dataWritten (h : s.incrementOnce = false) (w : Word) (p : Word × Nat) :
    writeEvent (dataWritten s w) p = writeEvent s (p.1, p.2 + 1) := by
  simp only [writeEvent, methodAt_dataWritten h, storedValue_dataWritten]
  rfl

/-- The words `ws` are the data words that the pusher consumes next, and all their calls are register writes that are
stored: the hypotheses of O39. -/
structure DataDue (s : State) (b : CommandBuffer) (all rest ws : List Word) : Prop where
  undisturbed : Undisturbed s
  phase : s.phase = .pusher
  noLength : s.lengthPending = false
  cur : s.cur = some b
  words : b.words = some all
  size : b.count = all.length
  next : all.drop s.pos = ws ++ rest
  count : s.methodCount.toNat = ws.length
  once : s.incrementOnce = false
  mode : s.shadowMode.toNat ≤ 3
  low : 0x60 ≤ s.method.toNat
  high : s.method.toNat + (if s.nonIncrementing then 1 else ws.length) ≤ 0xE00
  rising : Memory.rising (s.sub s.subChannel).regs

namespace DataDue

theorem nextWord (h : DataDue s b all rest (w :: ws)) : NextWord s b all w := by
  have hget : all[s.pos]? = some w := by
    rw [← Nat.add_zero s.pos, ← List.getElem?_drop, h.next]
    rfl
  exact ⟨h.cur, h.words, h.size ▸ (List.getElem?_eq_some_iff.mp hget).1, hget⟩

theorem method_lt (h : DataDue s b all rest (w :: ws)) : s.method.toNat < 0xE00 := by
  have hhigh := h.high
  rw [List.length_cons] at hhigh
  split at hhigh <;> omega

/-- No later word writes the first word's register, unless the method stays and there is one. -/
theorem methodAt_succ_ne (h : DataDue s b all rest (w :: ws))
    (hn : s.nonIncrementing = false ∨ 1 = (w :: ws).length) {j : Nat} (hj : j < ws.length) :
    (methodAt s (j + 1)).toNat ≠ (methodAt s 0).toNat := by
  have hhigh := h.high
  rw [List.length_cons] at hn hhigh
  have hn : s.nonIncrementing = false := hn.resolve_right (by omega)
  rw [hn, if_neg Bool.false_ne_true] at hhigh
  rw [toNat_methodAt hn (by omega), methodAt_zero]
  omega

/-- The data word makes its call. -/
theorem step_call (h : DataDue s b all rest (w :: ws)) : step s = .next (called s w) := by
  obtain ⟨hf, ht⟩ := h.undisturbed
  have hcount : s.methodCount ≠ 0 := fun h0 => by simpa [h0] using h.count
  have hclass : classify w s = .data w := by
    rw [classify_eq, h.noLength, if_neg Bool.false_ne_true, if_neg hcount]
  rw [step_of_nextWord ⟨hf, .inl (by rw [ht]; rfl)⟩ h.phase h.nextWord, hclass]
  rfl

/-- The call writes its register and ends the word. -/
theorem step_write (h : DataDue s b all rest (w :: ws)) : step (called s w) = .next (dataWritten s w) := by
  have hw : Writable (called s w) s.method := ⟨h.method_lt, h.mode⟩
  rw [step_of_call (s := called s w) h.undisturbed.1 rfl, Decode.decode, Decode.decodeCall_register h.low h.method_lt]
  exact execRegisterMethod_of_writable hw s.subChannel w

/-- The words after the first are due in the state it leaves. -/
theorem tail (h : DataDue s b all rest (w :: ws)) : DataDue (dataWritten s w) b all rest ws where
  undisturbed := ⟨h.undisturbed.1, congrArg List.tail h.undisturbed.2⟩
  phase := rfl
  noLength := h.noLength
  cur := h.cur
  words := h.words
  size := h.size
  next := by
    change all.drop (s.pos + 1) = ws ++ rest
    rw [← List.tail_drop, h.next, List.cons_append, List.tail_cons]
  count := by
    have hcount := h.count
    rw [List.length_cons] at hcount
    change (s.methodCount - 1).toNat = ws.length
    bv_omega
  once := h.once
  mode := h.mode
  low := by
    have hlow := h.low
    have hlt := h.method_lt
    rw [dataWritten_method]
    split_ifs <;> bv_omega
  high := by
    have hhigh := h.high
    have hlt := h.method_lt
    rw [dataWritten_method, dataWritten_nonIncrementing h.once]
    rw [List.length_cons] at hhigh
    split_ifs at hhigh ⊢ <;> bv_omega
  rising := rising_regs_written (s := called s w) h.rising s.method w .pusher

end DataDue

/-! ### All data words -/

/-- What the data words `ws`, sent from `s` on, leave in `t`: the conclusion of O39. -/
structure WordsWritten (s t : State) (ws : List Word) : Prop where
  phase : t.phase = .pusher
  count : t.methodCount = 0
  pos : t.pos = s.pos + ws.length
  method : t.method = methodAt s ws.length
  trace : t.trace = s.trace ++ ws.zipIdx.map (writeEvent s)
  stored : ∀ i w, ws[i]? = some w → (s.nonIncrementing = false ∨ i + 1 = ws.length) →
    t.reg s.subChannel (methodAt s i).toNat = storedValue s s.subChannel (methodAt s i) w
  kept : ∀ sc m, (sc ≠ s.subChannel ∨ ∀ i, i < ws.length → (methodAt s i).toNat ≠ m) → t.reg sc m = s.reg sc m

theorem wordsWritten_nil (h : DataDue s b all rest []) : WordsWritten s s [] where
  phase := h.phase
  count := BitVec.eq_of_toNat_eq h.count
  pos := rfl
  method := (methodAt_zero s).symm
  trace := by simp
  stored := by simp
  kept := fun _ _ _ => rfl

/-- The first word's write, then what the words after it leave. -/
theorem wordsWritten_cons (h : DataDue s b all rest (w :: ws)) (ht : WordsWritten (dataWritten s w) t ws) :
    WordsWritten s t (w :: ws) where
  phase := ht.phase
  count := ht.count
  pos := by
    rw [ht.pos, dataWritten_pos, List.length_cons]
    omega
  method := by rw [ht.method, methodAt_dataWritten h.once, List.length_cons]
  trace := by
    have htail : ws.zipIdx.map (writeEvent (dataWritten s w)) =
        (ws.zipIdx.map (Prod.map id (· + 1))).map (writeEvent s) := by
      rw [List.map_map]
      exact List.map_congr_left fun p _ => writeEvent_dataWritten h.once w p
    rw [ht.trace, dataWritten_trace, htail, List.zipIdx_cons', List.map_cons, List.append_assoc, List.singleton_append]
  stored := by
    intro i v hi hlast
    cases i with
    | zero =>
      obtain rfl : w = v := by simpa using hi
      have hlater (j : Nat) (hj : j < ws.length) : (methodAt (dataWritten s w) j).toNat ≠ (methodAt s 0).toNat := by
        rw [methodAt_dataWritten h.once]
        exact h.methodAt_succ_ne hlast hj
      rw [ht.kept s.subChannel _ (.inr hlater), reg_dataWritten h.rising, methodAt_zero, if_pos ⟨rfl, rfl⟩]
    | succ i =>
      have hlast' : (dataWritten s w).nonIncrementing = false ∨ i + 1 = ws.length := by
        rw [dataWritten_nonIncrementing h.once]
        exact hlast.imp_right Nat.succ.inj
      have hs := ht.stored i v (by simpa using hi) hlast'
      rwa [methodAt_dataWritten h.once, storedValue_dataWritten] at hs
  kept := by
    intro sc m hne
    have hlater : sc ≠ s.subChannel ∨ ∀ i, i < ws.length → (methodAt (dataWritten s w) i).toNat ≠ m := by
      refine hne.imp_right fun hne i hi => ?_
      rw [methodAt_dataWritten h.once]
      exact hne (i + 1) (Nat.succ_lt_succ hi)
    have hfirst : ¬(sc = s.subChannel ∧ s.method.toNat = m) := fun ⟨hsc, hm⟩ =>
      hne.elim (· hsc) fun hne => hne 0 (Nat.succ_pos _) (by rw [methodAt_zero, hm])
    rw [ht.kept sc m hlater, reg_dataWritten h.rising, if_neg hfirst]

/-- Two steps a word. -/
theorem run_dataWords (h : DataDue s b all rest ws) :
    ∃ t, Host.Core.run Sys2Proof.core (2 * ws.length) s = .next t ∧ WordsWritten s t ws := by
  induction ws generalizing s with
  | nil => exact ⟨s, rfl, wordsWritten_nil h⟩
  | cons w ws ih =>
    obtain ⟨t, hrun, ht⟩ := ih h.tail
    refine ⟨t, ?_, wordsWritten_cons h ht⟩
    rw [List.length_cons, Nat.mul_succ, run_succ h.step_call, run_succ h.step_write, hrun]

/-- Settles O39: the claim's target of word `i` is `methodAt s i`, and `run_dataWords` is the induction. -/
theorem dataWordsWriteTheirRegistersInOrder : Obligations.DataWordsWriteTheirRegistersInOrder := by
  intro ws s b all rest target hu hp hl hc hw hsize hnext hcount honce hmode hlow hhigh hrising htarget
  obtain rfl : target = methodAt s := funext htarget
  obtain ⟨t, hrun, ht⟩ := run_dataWords ⟨hu, hp, hl, hc, hw, hsize, hnext, hcount, honce, hmode, hlow, hhigh, hrising⟩
  exact ⟨t, hrun, ht.phase, ht.count, ht.pos, ht.method, ht.trace, ht.stored, ht.kept⟩

end Sys2Proof.Machine

/-! PROOF. What one macro word reaches (41_dispatch.md R192, 20_memory.md R74): the frame of every primitive effect, by
the induction over macro words, and the argument FIFO, which the one assignment of a word shortens at most once. -/

namespace Sys2Proof.Machine

open Sys2Proof.Safety

variable {s t u : State}

/-! ### What the terms of the claims leave unchanged -/

@[simp] theorem wordDone_subs (s : State) : (wordDone s).subs = s.subs := by unfold wordDone; split <;> rfl

@[simp] theorem wordDone_slots (s : State) : (wordDone s).slots = s.slots := by unfold wordDone; split <;> rfl

@[simp] theorem wordDone_trace (s : State) : (wordDone s).trace = s.trace := by unfold wordDone; split <;> rfl

@[simp] theorem stepped_slots (stop : Bool) (s : State) : (stepped stop s).slots = s.slots := by
  unfold stepped
  split
  · rfl
  · exact wordDone_slots _
  · rfl

@[simp] theorem sendEnd_slots (x : Bool) (v : Word) (s : State) : (sendEnd x v s).slots = s.slots := by
  unfold sendEnd
  split
  · exact stepped_slots x (sent s v)
  · rfl

@[simp] theorem addressed_slots (s : State) (v : Word) : (addressed s v).slots = s.slots := rfl

@[simp] theorem addressed_slotId (s : State) (v : Word) : (addressed s v).slotId = s.slotId := rfl

/-! ### The running slot's arguments -/

/-- Taking an argument drops the head of the running slot's FIFO; an empty FIFO stays empty. -/
theorem slot_argumentTaken (s : State) (j : SlotIx) :
    (argumentTaken s).slot j =
      if j = s.slotId then { s.slot s.slotId with argFifo := (s.slot s.slotId).argFifo.tail } else s.slot j := by
  unfold argumentTaken
  split
  · next h =>
    rw [h, List.tail_nil, ← h]
    split
    · next hj => rw [hj]; rfl
    · rfl
  · exact s.slot_setSlot s.slotId _ j

/-- No slot but the running one changes, and at most one argument of that is taken. -/
structure TakesAtMostOne (s t : State) : Prop where
  other : ∀ j, j ≠ s.slotId → t.slot j = s.slot j
  own : t.slot s.slotId = s.slot s.slotId ∨
    t.slot s.slotId = { s.slot s.slotId with argFifo := (s.slot s.slotId).argFifo.tail }

namespace TakesAtMostOne

theorem of_slots (h : t.slots = s.slots) : TakesAtMostOne s t :=
  ⟨fun j _ => State.slot_congr h j, .inl (State.slot_congr h s.slotId)⟩

theorem of_argumentTaken (h : t.slots = (argumentTaken s).slots) : TakesAtMostOne s t := by
  have hslot (j : SlotIx) := (State.slot_congr h j).trans (slot_argumentTaken s j)
  exact ⟨fun j hj => (hslot j).trans (if_neg hj), .inr ((hslot s.slotId).trans (if_pos rfl))⟩

theorem congr_left (hs : u.slots = s.slots) (hi : u.slotId = s.slotId) (h : TakesAtMostOne u t) :
    TakesAtMostOne s t := by
  obtain ⟨hother, hown⟩ := h
  simp only [State.slot_congr hs, hi] at hother hown
  exact ⟨hother, hown⟩

end TakesAtMostOne

/-- An assignment takes an argument in LOAD, LDSEND, LDSM and MVSMLDSEND, once each (43_mme_assign.md R255 to R262). -/
theorem assigned_takesAtMostOne (asg : Asg) (x : Bool) (d : Reg) (r : Word) (s : State) :
    TakesAtMostOne s (assigned asg x d r s) := by
  cases asg
  case move | movsm | mvsend | mvsmsendhi => exact .of_slots (by simp [assigned])
  case load | ldsend | ldsm => exact .of_argumentTaken (by simp [assigned])
  case mvsmldsend =>
    have ht : TakesAtMostOne (addressed (s.setGpr d r) r) (assigned .mvsmldsend x d r s) :=
      .of_argumentTaken (sendEnd_slots x _ _)
    exact ht.congr_left (by simp) (by simp)

/-- An ALU stage that answers changes at most the carry. -/
theorem aluStage_ok_frame {op : AluOp} {r : Word} (h : aluStage op s = .ok (r, u)) :
    u = { s with carry := u.carry } := by
  rcases op with ⟨k, a, b⟩ | _ | _ | _ | _ | ⟨a, imm⟩
  case reg => cases k <;> cases h <;> rfl
  case read =>
    simp only [aluStage] at h
    split at h <;> cases h
    rfl
  all_goals cases h; rfl

/-- An ALU stage that faults is READ's, outside the register file. -/
theorem aluStage_error_frame {op : AluOp} (h : aluStage op s = .error u) : u = { s with fault := u.fault } := by
  rcases op with ⟨k, a, b⟩ | _ | _ | _ | _ | ⟨a, imm⟩
  case reg => cases k <;> cases h
  case read =>
    simp only [aluStage, aluRead, regRead] at h
    split at h
    · cases h
    · next hu =>
      cases h
      split at hu <;> cases hu
      rfl
  all_goals cases h

theorem afterAlu_takesAtMostOne (op : AluOp) (asg : Asg) (x : Bool) (d : Reg) (s : State) :
    TakesAtMostOne s (afterAlu (aluStage op s) x (assignStage asg d)) := by
  unfold afterAlu
  split
  · next p hp =>
    have hf := aluStage_ok_frame hp
    have ha : TakesAtMostOne p.2 (concludeStep x (assignStage asg d p.1 p.2)) := by
      rw [← assignAndEnd, assignAndEnd_eq_assigned]
      exact assigned_takesAtMostOne asg x d p.1 p.2
    exact ha.congr_left (by rw [hf]) (by rw [hf])
  · next u hu => exact .of_slots (by rw [aluStage_error_frame hu])

theorem endStep_slots (stop : Bool) (s : State) : (endStep stop s).slots = s.slots := by
  rw [endStep_eq_stepped, stepped_slots]

theorem takeNoDelay_slots (imm : BitVec 18) (s : State) : (takeNoDelay imm s).slots = s.slots := by
  unfold takeNoDelay fetchMacro
  split
  · exact endStep_slots false _
  · next h =>
    split at h <;> cases h
    rfl

/-- Every macro row stands for an operation with its assignment, a reserved word or a branch (30_encoding.md R111). -/
theorem exec_takesAtMostOne {i : Instr} (hi : isMacroRow i = true) (ht : exec i s = .next t) : TakesAtMostOne s t := by
  have operation (op : AluOp) (asg : Asg) (x : Bool) (d : Reg) (hc : Decode.core i = Decode.aluInstr op asg x d) :
      TakesAtMostOne s t := by
    rw [exec_core, hc, exec_aluInstr] at ht
    cases ht
    exact afterAlu_takesAtMostOne op asg x d s
  cases i <;> first | exact absurd hi Bool.false_ne_true | skip
  case add asg x d a b => exact operation (.reg .add a b) asg x d rfl
  case addc asg x d a b => exact operation (.reg .addc a b) asg x d rfl
  case sub asg x d a b => exact operation (.reg .sub a b) asg x d rfl
  case subb asg x d a b => exact operation (.reg .subb a b) asg x d rfl
  case xor asg x d a b => exact operation (.reg .xor a b) asg x d rfl
  case or asg x d a b => exact operation (.reg .or a b) asg x d rfl
  case and asg x d a b => exact operation (.reg .and a b) asg x d rfl
  case andn asg x d a b => exact operation (.reg .andn a b) asg x d rfl
  case nand asg x d a b => exact operation (.reg .nand a b) asg x d rfl
  case addi asg x d a imm => exact operation (.addi a imm) asg x d rfl
  case bfi asg x d a b p n q => exact operation (.bfi a b p n q) asg x d rfl
  case bfeli asg x d a b n q => exact operation (.bfeli a b n q) asg x d rfl
  case bfelr asg x d a b p n => exact operation (.bfelr a b p n) asg x d rfl
  case read asg x d a imm => exact operation (.read a imm) asg x d rfl
  case load op x d => exact operation op .load x d rfl
  case move op x d => exact operation op .move x d rfl
  case movsm op x d => exact operation op .movsm x d rfl
  case ldsend op x d => exact operation op .ldsend x d rfl
  case mvsend op x d => exact operation op .mvsend x d rfl
  case ldsm op x d => exact operation op .ldsm x d rfl
  case mvsmldsend op x d => exact operation op .mvsmldsend x d rfl
  case mvsmsendhi op x d => exact operation op .mvsmsendhi x d rfl
  case nop => exact operation (.addi 0 0) .move false 0 rfl
  case exit => exact operation (.addi 0 0) .move true 0 rfl
  case mov d a => exact operation (.addi a 0) .move false d rfl
  case li d imm => exact operation (.addi 0 imm) .move false d rfl
  case parm d => exact operation (.addi 0 0) .load false d rfl
  case maddr imm => exact operation (.addi 0 imm) .movsm false 0 rfl
  case send a => exact operation (.addi a 0) .mvsend false 0 rfl
  case reservedAluop4To7 | reservedAluop13 | reservedAluop14To15 | reservedAluop16To31 | reservedOp6 =>
    cases ht; exact .of_slots rfl
  case bz | bnz => cases ht; split <;> exact .of_slots (endStep_slots _ _)
  case j => cases ht; exact .of_slots (endStep_slots _ _)
  case jNd => cases ht; exact .of_slots (takeNoDelay_slots _ _)
  case bzNd => cases ht; split; exacts [.of_slots (takeNoDelay_slots _ _), .of_slots (endStep_slots _ _)]
  case bnzNd => cases ht; split; exacts [.of_slots (endStep_slots _ _), .of_slots (takeNoDelay_slots _ _)]

/-! ### The frame of a macro word -/

/-- `s` with everything that a macro word may change taken from `t`. -/
def macroOver (s t : State) : State :=
  { s with
    method := t.method, methodCount := t.methodCount, nonIncrementing := t.nonIncrementing, subs := t.subs
    slots := t.slots, gprs := t.gprs, carry := t.carry, pc := t.pc, pipeOp := t.pipeOp, methAddr := t.methAddr
    methIncr := t.methIncr, trace := t.trace, fault := t.fault, phase := t.phase }

/-- `t` is `s` but for what a macro word may change; of the sub-channels that is the sink's, but for its class. -/
structure MacroFrame (s t : State) : Prop where
  frame : t = macroOver s t
  sub : ∀ sc, sc ≠ s.sinkSc → t.sub sc = s.sub sc
  cls : (t.sub s.sinkSc).cls = (s.sub s.sinkSc).cls

namespace MacroFrame

theorem of_subs (hf : t = macroOver s t) (hs : t.subs = s.subs) : MacroFrame s t :=
  ⟨hf, fun sc _ => State.sub_congr hs sc, congrArg SubChannel.cls (State.sub_congr hs s.sinkSc)⟩

theorem refl (s : State) : MacroFrame s s := of_subs rfl rfl

theorem trans (hu : MacroFrame s u) (ht : MacroFrame u t) : MacroFrame s t := by
  have hsink : u.sinkSc = s.sinkSc := by rw [hu.frame]; rfl
  have hframe : t = macroOver s t :=
    calc
      t = macroOver u t := ht.frame
      _ = macroOver (macroOver s u) t := congrArg (macroOver · t) hu.frame
      _ = macroOver s t := rfl
  refine ⟨hframe, fun sc hsc => ?_, ?_⟩
  · rw [ht.sub sc (hsink ▸ hsc), hu.sub sc hsc]
  · rw [← hsink, ht.cls, hsink, hu.cls]

/-- A register write of the sink stores a word there (41_dispatch.md R192). -/
theorem of_regWrite {m v : Word} {o : Origin} (ht : regWrite s.sinkSc m v o s = .ok t) : MacroFrame s t := by
  obtain ⟨-, r, hr, rfl⟩ := regWrite_ok ht
  obtain ⟨hcls, -⟩ := shadowWrite_cases hr
  refine ⟨rfl, fun sc hsc => ?_, ?_⟩
  · rw [State.sub_emit, State.sub_setSub, if_neg hsc]
  · rw [State.sub_emit, State.sub_setSub, if_pos rfl, hcls]

end MacroFrame

/-- Each primitive effect of a macro word is in its frame, so the word is. -/
theorem macroClosed_macroFrame (s : State) : MacroClosed (MacroFrame s) where
  raise u k i h := h.trans (.of_subs rfl rfl)
  setGpr u d v h := h.trans (.of_subs (by unfold State.setGpr; split <;> rfl) (by simp))
  fetchParam u h := by
    rcases fetchParam_cases u with ⟨-, he⟩ | ⟨v, rest, -, he⟩ <;> rw [he] <;> exact h.trans (.of_subs rfl rfl)
  setMethAddr u v h := h.trans (.of_subs rfl rfl)
  send u t v h hw := (h.trans (.of_regWrite hw)).trans (.of_subs rfl rfl)
  jump u p h := h.trans (.of_subs rfl rfl)
  jumpNoDelay u p w h := h.trans (.of_subs rfl rfl)
  endStep u b h := h.trans (.of_subs (by rw [endStep_frame]; rfl) (by rw [endStep_frame]))

theorem exec_macroFrame {i : Instr} (hi : isMacroRow i = true) (ht : exec i s = .next t) : MacroFrame s t :=
  (macroClosed_macroFrame s).exec hi (.refl s) (fun _ _ _ h => h.trans (.of_subs rfl rfl)) ht

/-- Settles O56: the frame of the word's effects, and the one argument it may take. -/
theorem macroInstructionsReachOnlyTheirSinkAndSlot : Obligations.MacroInstructionsReachOnlyTheirSinkAndSlot := by
  intro i s t hi ht
  obtain ⟨hframe, hsub, hcls⟩ := exec_macroFrame hi ht
  obtain ⟨hother, hown⟩ := exec_takesAtMostOne hi ht
  exact ⟨hframe, hsub, hcls, hother, hown⟩

end Sys2Proof.Machine

/-! PROOF. The method rows: which calls reach them and what they do (41_dispatch.md R170 to R191). -/

namespace Sys2Proof.Machine

open Sys2Proof.Safety

variable {s : State}

/-- Settles O9: a waiting call's step runs the row that the call decodes to. -/
theorem callStepRunsTheRoutedMethod : Obligations.CallStepRunsTheRoutedMethod :=
  fun _ _ _ _ hf hp hd _ => hd ▸ step_of_call hf hp

/-- A method that ends its call completes the pusher step (40_command_buffer.md R141, R143). -/
theorem next_endCall (s : State) :
    (.next (endCall s) : Host.Outcome State Fault Refusal) = .next (wordDone s) := by rw [endCall_eq_wordDone]

/-! ### Bind channel and the FIFO channel -/

/-- Settles O40: method 0 decodes to the bind, whose one store and event end the call. -/
theorem bindChannelSetsTheClass : Obligations.BindChannelSetsTheClass :=
  fun _ _ _ _ => ⟨Decode.decodeCall_zero rfl, next_endCall _⟩

/-- A call of a method from 1 to 0x5F is a FIFO-channel write (41_dispatch.md R173). -/
theorem decode_call_fifo {m : Word} (h0 : 0 < m.toNat) (h : m.toNat < 0x60) (v : Word) (sc : SubCh) (n : Word) :
    Decode.decode (.call { method := m, argument := v, subChannel := sc, remainingCount := n }) =
      Decode.decodeFifoMethod m v :=
  Decode.decodeCall_fifo h0 h

/-- Settles O41: the six rows by the method's number, each the FIFO-channel write and its own control register. -/
theorem fifoChannelWritesStoreAndSet : Obligations.FifoChannelWritesStoreAndSet := by
  intro s sc m v n c f hc hf
  obtain rfl : f = fun k => fifoWrite k v s := funext hf
  have named {k : Word} (h0 : 0 < k.toNat) (hk : k.toNat < 0x60) : Decode.decode (c k) = Decode.decodeFifoMethod k v :=
    (congrArg Decode.decode (hc k)).trans (decode_call_fifo h0 hk v sc n)
  refine ⟨⟨named (by decide) (by decide), next_endCall _⟩, ⟨named (by decide) (by decide), next_endCall _⟩,
    ⟨named (by decide) (by decide), next_endCall _⟩, ⟨named (by decide) (by decide), next_endCall _⟩,
    fun h0 h60 hm => ?_, next_endCall _⟩
  rw [named h0 h60, Decode.decodeFifoMethod_unnamed hm]

/-- A code upload to an address in macro code memory. -/
theorem execSendMacroCodeData_of_lt (h : s.uploadAddr.toNat < Config.macroMemWords) (v : Word) :
    execSendMacroCodeData v s = .next (wordDone (upload v (fifoWrite 0x46 v s))) := by
  rw [execSendMacroCodeData, if_pos h, endCall_eq_wordDone]

/-- A code upload outside macro code memory. -/
theorem execSendMacroCodeData_of_ge (h : Config.macroMemWords ≤ s.uploadAddr.toNat) (v : Word) :
    execSendMacroCodeData v s = .next ((fifoWrite 0x46 v s).raise .uploadRange s.uploadAddr.toNat) := by
  rw [execSendMacroCodeData, if_neg (Nat.not_lt.mpr h)]

/-- Macro code memory after an upload: the word at `uploadAddr` is the uploaded one, every other as it was. -/
theorem code_upload (hm : Memory.rising s.macroMem) (v : Word) (a : Nat) :
    (upload v s).code a = if a = s.uploadAddr.toNat then v else s.code a := by
  simp only [State.code, upload, Memory.wordAt_setWord hm, eq_comm]

/-- Settles O42: inside macro code memory the upload is `code_upload`, outside it the fault after the FIFO write. -/
theorem codeUploadStoresOneWord : Obligations.CodeUploadStoresOneWord := fun s sc v n hm =>
  ⟨decode_call_fifo (by decide) (by decide) v sc n,
    fun h => ⟨(upload v s).macroMem, code_upload hm v, execSendMacroCodeData_of_lt h v⟩,
    fun h => execSendMacroCodeData_of_ge h v⟩

/-- The slot that an index up to 127 names. -/
theorem setSlot_setWidth {k : Word} (h : k.toNat < 128) (s : State) (c : Slot) :
    s.setSlot (k.setWidth 7) c = { s with slots := s.slots.set k.toNat c h } := by
  have hk : (k.setWidth 7).toNat = k.toNat := by rw [BitVec.toNat_setWidth, Nat.mod_eq_of_lt h]
  simp only [State.setSlot, hk]

/-- A bind with an index up to 127. -/
theorem execBindMacro_of_lt (h : s.bindIndex.toNat < Config.numMacroSlots) (v : Word) :
    execBindMacro v s = .next (wordDone (bindSlot v (fifoWrite 0x48 v s))) := by
  rw [execBindMacro, if_pos h, endCall_eq_wordDone]

/-- A bind with an index above 127. -/
theorem execBindMacro_of_ge (h : Config.numMacroSlots ≤ s.bindIndex.toNat) (v : Word) :
    execBindMacro v s = .next ((fifoWrite 0x48 v s).raise .bindIndexRange s.bindIndex.toNat) := by
  rw [execBindMacro, if_neg (Nat.not_lt.mpr h)]

/-- Settles O43: with an index up to 127 the bind replaces that slot, above it the fault follows the FIFO write. -/
theorem bindMacroRecreatesTheSlot : Obligations.BindMacroRecreatesTheSlot := by
  rintro s f sc v n rfl
  refine ⟨decode_call_fifo (by decide) (by decide) v sc n, fun h => ?_, fun h => execBindMacro_of_ge h v⟩
  refine (execBindMacro_of_lt h v).trans ?_
  rw [bindSlot, setSlot_setWidth (k := (fifoWrite 0x48 v s).bindIndex) h]
  rfl

/-! ### Register methods -/

/-- A register method under a reserved shadow mode: the range check passes, the mode check faults (60_exceptions.md
R305). -/
theorem execRegisterMethod_of_reserved {m : Word} (hm : m.toNat < Config.regFileWords) (hs : 3 < s.shadowMode.toNat)
    (sc : SubCh) (v : Word) :
    execRegisterMethod sc m v s =
      .next { s with fault := some { kind := .shadowModeReserved, info := s.shadowMode.toNat } } := by
  have hw : ¬Writable s m := fun hw => Nat.not_lt.mpr hw.2 hs
  rw [execRegisterMethod, regWrite_of_not_writable hw, writeFault, if_pos hm]

/-- Settles O44: the call decodes by its range, and the write is stored up to mode 3 and faults above it. -/
theorem registerMethodWritesItsRegister : Obligations.RegisterMethodWritesItsRegister := fun _ sc _ v _ hlow hhigh =>
  ⟨Decode.decodeCall_register hlow hhigh, fun hs => execRegisterMethod_of_writable ⟨hhigh, hs⟩ sc v,
    fun hs => execRegisterMethod_of_reserved hhigh hs sc v⟩

/-- A shadow copy after a stored write: modes 0 and 1 record the written word, the others nothing. -/
theorem shadow_written {sc : SubCh} (hr : Memory.rising (s.sub sc).shadow) (m v : Word) (o : Origin) (sc' : SubCh)
    (k : Nat) :
    (written s sc m v o).shadow sc' k =
      if sc' = sc ∧ m.toNat = k ∧ s.shadowMode.toNat ≤ 1 then v else s.shadow sc' k := by
  simp only [State.shadow, sub_written]
  by_cases hsc : sc' = sc
  · subst hsc
    by_cases hmode : s.shadowMode.toNat ≤ 1
    · simp only [hmode, if_true, Memory.wordAt_setWord hr, true_and, and_true]
    · simp only [hmode, if_true, if_false, and_false]
  · simp only [hsc, if_false, false_and]

theorem reg_wordDone (s : State) (sc : SubCh) (k : Nat) : (wordDone s).reg sc k = s.reg sc k := by
  rw [State.reg, State.sub_congr (wordDone_subs s), State.reg]

theorem shadow_wordDone (s : State) (sc : SubCh) (k : Nat) : (wordDone s).shadow sc k = s.shadow sc k := by
  rw [State.shadow, State.sub_congr (wordDone_subs s), State.shadow]

/-- Settles O45: what `reg_written` and `shadow_written` read, with the modes by name. -/
theorem storedWriteReadsBackInEveryMode : Obligations.StoredWriteReadsBackInEveryMode := by
  intro s sc sc' m v stored k hregs hshadow _ hhigh hmode hstored
  have hreplay : s.shadowMode.toNat = 3 ↔ s.shadowMode = 3 := BitVec.toNat_inj (y := 3)
  have htrack : s.shadowMode.toNat ≤ 1 ↔ s.shadowMode = 0 ∨ s.shadowMode = 1 := by bv_omega
  obtain rfl : stored = storedValue s sc m v := by simp only [hstored, storedValue, hreplay]
  refine ⟨_, execRegisterMethod_of_writable ⟨hhigh, hmode⟩ sc v, ?reg, ?shadow, ?trace⟩
  case reg => rw [reg_wordDone, reg_written hregs]; simp only [eq_comm]
  case shadow => rw [shadow_wordDone, shadow_written hshadow]; simp only [htrack, eq_comm]
  case trace => rw [wordDone_trace]; rfl

/-! ### Macro methods -/

section
variable {i : SlotIx} {m : Word} (hi : i = BitVec.ofNat 7 (m.toNat / 2)) (sc : SubCh) (v n : Word)
include hi

/-- An odd macro method by the slot of its number (41_dispatch.md R187, R188). -/
theorem execMacroArgument_bound (hb : (s.slot i).bound = true) :
    execMacroArgument sc m v n s =
      .next (endMacroMethod i sc n (s.setSlot i { s.slot i with argFifo := (s.slot i).argFifo ++ [v] })) := by
  rw [execMacroArgument, slotOf_eq, ← hi, if_pos hb]

/-- An even macro method by the slot of its number (41_dispatch.md R187, R189). -/
theorem execMacroStart_bound (hb : (s.slot i).bound = true) :
    execMacroStart sc m v n s =
      .next (endMacroMethod i sc n (s.setSlot i { s.slot i with pendingArgument := v, executionPending := true })) := by
  rw [execMacroStart, slotOf_eq, ← hi, if_pos hb]

theorem execMacroArgument_unbound (hb : (s.slot i).bound = false) :
    execMacroArgument sc m v n s = .next (s.raise .slotUnbound i.toNat) := by
  rw [execMacroArgument, slotOf_eq, ← hi, if_neg (by rw [hb]; exact Bool.false_ne_true)]

theorem execMacroStart_unbound (hb : (s.slot i).bound = false) :
    execMacroStart sc m v n s = .next (s.raise .slotUnbound i.toNat) := by
  rw [execMacroStart, slotOf_eq, ← hi, if_neg (by rw [hb]; exact Bool.false_ne_true)]

end

/-- A call that is not the last of its group ends. -/
theorem endMacroMethod_of_not_last {n : Word} (h : 1 < n.toNat) (i : SlotIx) (sc : SubCh) (s : State) :
    endMacroMethod i sc n s = wordDone s := by
  rw [endMacroMethod, Operands.isLastCall, decide_eq_false (Nat.not_le.mpr h), if_neg Bool.false_ne_true,
    endCall_eq_wordDone]

/-- The last call of its group triggers its slot (41_dispatch.md R187, R190). -/
theorem endMacroMethod_of_last {n : Word} (h : n.toNat ≤ 1) (i : SlotIx) (sc : SubCh) (s : State) :
    endMacroMethod i sc n s = triggered s i sc := by
  rw [endMacroMethod, Operands.isLastCall, decide_eq_true h, if_pos rfl, trigger_eq_triggered]

/-- The trigger of a slot made pending starts at the slot's start position (44_mme_sequencer.md R280, R291). -/
theorem triggered_setSlot_pending (s : State) (i : SlotIx) (sc : SubCh) {c : Slot} (hc : c.executionPending = true) :
    triggered (s.setSlot i c) i sc =
      if c.startPosition.toNat < 262144 then started (s.setSlot i c) i sc else startFaulted (s.setSlot i c) i sc := by
  have hslot : (s.setSlot i c).slot i = c := (s.slot_setSlot i c i).trans (if_pos rfl)
  rw [triggered, hslot, if_pos hc]

/-- Settles O46: the push, then the end of the call by the count that is left. -/
theorem macroArgumentAppendsAndTriggersOnTheLastCall : Obligations.MacroArgumentAppendsAndTriggersOnTheLastCall := by
  rintro s f i sc m v n hi hb rfl
  refine ⟨fun hn => ?_, fun hn => ?_⟩ <;> refine (execMacroArgument_bound hi sc v n hb).trans ?_
  · rw [endMacroMethod_of_not_last hn]; rfl
  · rw [endMacroMethod_of_last hn]; rfl

/-- Settles O47: the slot is made pending, so its trigger starts it or its first fetch faults. -/
theorem macroStartMakesPendingAndTriggersOnTheLastCall :
    Obligations.MacroStartMakesPendingAndTriggersOnTheLastCall := by
  rintro s f i sc m v n hi hb rfl
  refine ⟨fun hn => ?_, fun hn hp => ?_, fun hn hp => ?_⟩ <;> refine (execMacroStart_bound hi sc v n hb).trans ?_
  · rw [endMacroMethod_of_not_last hn]; rfl
  · rw [endMacroMethod_of_last hn, triggered_setSlot_pending s i sc rfl, if_pos hp]; rfl
  · rw [endMacroMethod_of_last hn, triggered_setSlot_pending s i sc rfl, if_neg (Nat.not_lt.mpr hp)]; rfl

/-- Settles O48: neither macro method does more than fault where its slot was never bound. -/
theorem macroMethodToAnUnboundSlotFaults : Obligations.MacroMethodToAnUnboundSlotFaults := by
  rintro s t i sc m v n hi hb rfl
  exact ⟨execMacroArgument_unbound hi sc v n hb, execMacroStart_unbound hi sc v n hb⟩

end Sys2Proof.Machine

/-! PROOF. The ALU's operations (42_mme_alu.md R210 to R227): the results in the terms of the claims, what the ALU stage
of each operation answers, and the row that runs it. -/

namespace Sys2Proof.Machine.Flags

/-! ### Sums -/

theorem toNat_carryWord (c : Bool) : (carryWord c).toNat = c.toNat := by cases c <;> rfl

theorem toNat_low (v : BitVec 64) : (low v).toNat = v.toNat % 2 ^ 32 := by simp [low]

/-- ADD is ADDC with a clear carry. -/
theorem addcWide_false (a b : Word) : addcWide a b false = addWide a b := BitVec.add_zero _

/-- The 64-bit intermediate never wraps (42_mme_alu.md R213). -/
theorem toNat_addcWide (a b : Word) (c : Bool) : (addcWide a b c).toNat = a.toNat + b.toNat + c.toNat := by
  have hc : c.toNat ≤ 1 := c.toNat_le
  rw [addcWide, BitVec.toNat_add, BitVec.toNat_add, toNat_carryWord, BitVec.toNat_setWidth, BitVec.toNat_setWidth]
  omega

theorem low_addcWide (a b : Word) (c : Bool) :
    low (addcWide a b c) = BitVec.ofNat 32 (a.toNat + b.toNat + c.toNat) := by
  apply BitVec.eq_of_toNat_eq
  rw [toNat_low, toNat_addcWide, BitVec.toNat_ofNat]

theorem carryOfSum_addcWide (a b : Word) (c : Bool) :
    carryOfSum (addcWide a b c) = decide (2 ^ 32 ≤ a.toNat + b.toNat + c.toNat) := by
  rw [carryOfSum, toNat_addcWide]; rfl

/-! ### Differences -/

/-- SUB is SUBB with a set carry, which is no borrow in. -/
theorem subbWide_true (a b : Word) : subbWide a b true = subWide a b := BitVec.sub_zero _

/-- The 64-bit intermediate wraps exactly where there is a borrow (42_mme_alu.md R215). -/
theorem toNat_subbWide (a b : Word) (c : Bool) :
    (subbWide a b c).toNat =
      if b.toNat + (1 - c.toNat) ≤ a.toNat then a.toNat - (b.toNat + (1 - c.toNat))
      else 2 ^ 64 + a.toNat - (b.toNat + (1 - c.toNat)) := by
  have hc : (!c).toNat = 1 - c.toNat := by cases c <;> rfl
  rw [subbWide, BitVec.toNat_sub, BitVec.toNat_sub, toNat_carryWord, hc, BitVec.toNat_setWidth, BitVec.toNat_setWidth]
  split_ifs <;> omega

theorem low_subbWide (a b : Word) (c : Bool) :
    low (subbWide a b c) = BitVec.ofInt 32 (a.toNat - b.toNat - (1 - c.toNat)) := by
  apply BitVec.eq_of_toNat_eq
  have hc : c.toNat ≤ 1 := c.toNat_le
  rw [toNat_low, toNat_subbWide, BitVec.toNat_ofInt]
  split_ifs <;> omega

theorem carryOfDifference_subbWide (a b : Word) (c : Bool) :
    carryOfDifference (subbWide a b c) = decide (b.toNat + (1 - c.toNat) ≤ a.toNat) := by
  rw [carryOfDifference, toNat_subbWide]
  apply decide_eq_decide.mpr
  split_ifs <;> omega

/-! ### A result and its carry, together -/

/-- A sum below 2^33 is its low word and its carry out. -/
theorem toNat_ofNat_add_carry {n : Nat} (hn : n < 2 ^ 33) :
    (BitVec.ofNat 32 n).toNat + (decide (2 ^ 32 ≤ n)).toNat * 2 ^ 32 = n := by
  rw [BitVec.toNat_ofNat]
  by_cases h : 2 ^ 32 ≤ n
  · rw [decide_eq_true h, Bool.toNat_true]; omega
  · rw [decide_eq_false h, Bool.toNat_false]; omega

/-- A difference from -2^32 to 2^32 - 1 is its low word less the borrow that a clear carry shows. -/
theorem toNat_ofInt_sub_borrow {m n : Nat} {z : Int} (hm : m < 2 ^ 32) (hn : n ≤ 2 ^ 32) (hz : z = m - n) :
    ((BitVec.ofInt 32 z).toNat : Int) - (1 - (decide (n ≤ m)).toNat) * 2 ^ 32 = z := by
  rw [BitVec.toNat_ofInt]
  by_cases h : n ≤ m
  · rw [decide_eq_true h, Bool.toNat_true]; omega
  · rw [decide_eq_false h, Bool.toNat_false]; omega

end Sys2Proof.Machine.Flags

namespace Sys2Proof.Machine.Operands

/-! ### Immediate sums -/

/-- Adding the sign-extended immediate is adding its signed value (30_encoding.md R107). -/
theorem sumImm_eq (a : Word) (imm : BitVec 18) : sumImm a imm = BitVec.ofInt 32 (a.toNat + imm.toInt) := by
  rw [BitVec.ofInt_add, BitVec.ofInt_natCast, BitVec.ofNat_toNat, BitVec.setWidth_eq]; rfl

/-! ### Bit fields -/

theorem getLsbD_fieldMask (size : BitVec 5) (n : Nat) : (fieldMask size).getLsbD n = decide (n < size.toNat) := by
  have hle : 1 ≤ 2 ^ size.toNat := Nat.one_le_two_pow
  have hlt : 2 ^ size.toNat < 2 ^ 32 := Nat.pow_lt_pow_right (by omega) size.isLt
  have hmask : (fieldMask size).toNat = 2 ^ size.toNat - 1 := by
    simp [fieldMask, Nat.shiftLeft_eq]
    omega
  rw [← BitVec.testBit_toNat, hmask, Nat.testBit_two_pow_sub_one]

/-- Where the mask of a field lies. -/
theorem getLsbD_fieldMask_shiftLeft (size : BitVec 5) (j : Nat) {n : Nat} (hn : n < 32) :
    (fieldMask size <<< j).getLsbD n = decide (j ≤ n ∧ n < j + size.toNat) := by
  rw [BitVec.getLsbD_shiftLeft, getLsbD_fieldMask]
  by_cases hj : j ≤ n
  · have hsize : n - j < size.toNat ↔ n < j + size.toNat := by omega
    simp [hn, hj, hsize]
  · simp [hj]

/-- `size` bits of `b` from bit `i` on, moved to bit `j` and cut at bit 31. -/
theorem getLsbD_field (b : Word) (size : BitVec 5) (i j : Nat) {n : Nat} (hn : n < 32) :
    (((b >>> i) &&& fieldMask size) <<< j).getLsbD n =
      (decide (j ≤ n ∧ n < j + size.toNat) && b.getLsbD (n - j + i)) := by
  rw [BitVec.shiftLeft_and_distrib, BitVec.getLsbD_and, getLsbD_fieldMask_shiftLeft size j hn]
  by_cases h : j ≤ n ∧ n < j + size.toNat
  · simp [h, hn, Nat.add_comm]
  · simp [h]

theorem getLsbD_bfiWord (a b : Word) (srcBit size dstBit : BitVec 5) {n : Nat} (hn : n < 32) :
    (bfiWord a b srcBit size dstBit).getLsbD n =
      if dstBit.toNat ≤ n ∧ n < dstBit.toNat + size.toNat then b.getLsbD (n - dstBit.toNat + srcBit.toNat)
      else a.getLsbD n := by
  rw [bfiWord, BitVec.getLsbD_or, BitVec.getLsbD_and, BitVec.getLsbD_not, getLsbD_field b size _ _ hn,
    getLsbD_fieldMask_shiftLeft size _ hn]
  by_cases h : dstBit.toNat ≤ n ∧ n < dstBit.toNat + size.toNat
  · simp [h]
  · simp [h, hn]

end Sys2Proof.Machine.Operands

namespace Sys2Proof.Decode

/-! ### The fields that make a word reserved -/

theorem toNat_opF (w : Word) : (opF w).toNat = w.toNat % 8 := by simp [opF]

theorem toNat_aluOpF (w : Word) : (aluOpF w).toNat = w.toNat / 2 ^ 17 % 32 := by
  simp [aluOpF, Nat.shiftRight_eq_div_pow]

theorem decodeMacroCore_reservedOp6 {w : Word} (h : (opF w).toNat = 6) : decodeMacroCore w = .reservedOp6 w := by
  simp only [decodeMacroCore, h]

end Sys2Proof.Decode

namespace Sys2Proof.Machine

open Sys2Proof.Safety

/-! ### What the ALU stages answer -/

section
variable (a b : Reg) (s : State)

theorem aluStage_addc :
    aluStage (.reg .addc a b) s = .ok (BitVec.ofNat 32 ((s.gpr a).toNat + (s.gpr b).toNat + s.carry.toNat),
      { s with carry := decide (2 ^ 32 ≤ (s.gpr a).toNat + (s.gpr b).toNat + s.carry.toNat) }) := by
  rw [aluStage, aluAddc, Flags.low_addcWide, Flags.carryOfSum_addcWide]

theorem aluStage_add :
    aluStage (.reg .add a b) s = .ok (BitVec.ofNat 32 ((s.gpr a).toNat + (s.gpr b).toNat),
      { s with carry := decide (2 ^ 32 ≤ (s.gpr a).toNat + (s.gpr b).toNat) }) := by
  rw [aluStage, aluAdd, ← Flags.addcWide_false, Flags.low_addcWide, Flags.carryOfSum_addcWide, Bool.toNat_false,
    Nat.add_zero]

theorem aluStage_subb :
    aluStage (.reg .subb a b) s =
      .ok (BitVec.ofInt 32 ((s.gpr a).toNat - (s.gpr b).toNat - (1 - s.carry.toNat)),
        { s with carry := decide ((s.gpr b).toNat + (1 - s.carry.toNat) ≤ (s.gpr a).toNat) }) := by
  rw [aluStage, aluSubb, Flags.low_subbWide, Flags.carryOfDifference_subbWide]

theorem aluStage_sub :
    aluStage (.reg .sub a b) s = .ok (BitVec.ofInt 32 ((s.gpr a).toNat - (s.gpr b).toNat),
      { s with carry := decide ((s.gpr b).toNat ≤ (s.gpr a).toNat) }) := by
  rw [aluStage, aluSub, ← Flags.subbWide_true, Flags.low_subbWide, Flags.carryOfDifference_subbWide, Bool.toNat_true]
  simp

theorem aluStage_addi (imm : BitVec 18) :
    aluStage (.addi a imm) s = .ok (BitVec.ofInt 32 ((s.gpr a).toNat + imm.toInt), s) := by
  rw [aluStage, Operands.sumImm_eq]

variable {a s} {imm : BitVec 18} {m : Word} (hm : m = BitVec.ofInt 32 ((s.gpr a).toNat + imm.toInt))
include hm

theorem aluStage_read_of_lt (h : m.toNat < Config.regFileWords) :
    aluStage (.read a imm) s = .ok (s.reg s.sinkSc m.toNat, s) := by
  rw [aluStage, aluRead, Operands.sumImm_eq, ← hm, regRead_of_lt h]

theorem aluStage_read_of_ge (h : Config.regFileWords ≤ m.toNat) :
    aluStage (.read a imm) s = .error (s.raise .regReadRange m.toNat) := by
  rw [aluStage, aluRead, Operands.sumImm_eq, ← hm, regRead_of_ge (Nat.not_lt.mpr h)]

end

/-! ### The row of an ALU stage -/

section
variable {op : AluOp} {s t : State} (asg : Asg) (x : Bool) (d : Reg)

/-- An ALU stage that answers is followed by the assignment (42_mme_alu.md R210). -/
theorem exec_aluInstr_of_ok {r : Word} (h : aluStage op s = .ok (r, t)) :
    exec (Decode.aluInstr op asg x d) s = .next (assigned asg x d r t) := by
  rw [exec_aluInstr, h, ← assignAndEnd_eq_assigned]; rfl

/-- An ALU stage that faults ends the step. -/
theorem exec_aluInstr_of_error (h : aluStage op s = .error t) : exec (Decode.aluInstr op asg x d) s = .next t := by
  rw [exec_aluInstr, h]; rfl

end

/-- Settles O14: the two sums, each with its carry out. -/
theorem addAndAddcGiveSumAndCarry : Obligations.AddAndAddcGiveSumAndCarry := fun s asg x d a b =>
  ⟨exec_aluInstr_of_ok asg x d (aluStage_add a b s), exec_aluInstr_of_ok asg x d (aluStage_addc a b s)⟩

/-- Settles O15: the two differences, each with its not-borrow. -/
theorem subAndSubbGiveDifferenceAndCarry : Obligations.SubAndSubbGiveDifferenceAndCarry := fun s asg x d a b =>
  ⟨exec_aluInstr_of_ok asg x d (aluStage_sub a b s), exec_aluInstr_of_ok asg x d (aluStage_subb a b s)⟩

/-- Settles O18: the five stages leave the state as it is. -/
theorem bitwiseOperationsGiveTheirResult : Obligations.BitwiseOperationsGiveTheirResult := by
  intro s asg x d a b
  have row (k : RegOp) {r : Word} (h : aluStage (.reg k a b) s = .ok (r, s)) :
      exec (Decode.regInstr k asg x d a b) s = .next (assigned asg x d r s) := exec_aluInstr_of_ok asg x d h
  exact ⟨row .xor rfl, row .or rfl, row .and rfl, row .andn rfl, row .nand rfl⟩

/-- Settles O19: the signed sum, with no flag. -/
theorem addiAddsTheSignedImmediate : Obligations.AddiAddsTheSignedImmediate := fun s asg x d a v =>
  exec_aluInstr_of_ok asg x d (aluStage_addi a s v)

/-- Settles O20: the result is `bfiWord`, whose bits `getLsbD_bfiWord` reads. -/
theorem bfiReplacesExactlyItsField : Obligations.BfiReplacesExactlyItsField :=
  fun s asg x d a b srcBit size dstBit =>
    ⟨Operands.bfiWord (s.gpr a) (s.gpr b) srcBit size dstBit,
      fun _ hn => Operands.getLsbD_bfiWord (s.gpr a) (s.gpr b) srcBit size dstBit hn,
      exec_aluInstr_of_ok (op := .bfi a b srcBit size dstBit) asg x d rfl⟩

/-- Settles O21: both forms move one field, by an immediate and by the register's amount the one way or the other. -/
theorem bfeliAndBfelrExtractTheirField : Obligations.BfeliAndBfelrExtractTheirField :=
  fun s asg x d a b srcBit size dstBit =>
    ⟨⟨Operands.bfeliWord (s.gpr a) (s.gpr b) size dstBit,
        fun _ hn => Operands.getLsbD_field (s.gpr b) size (Operands.shiftOf (s.gpr a)) dstBit.toNat hn,
        exec_aluInstr_of_ok (op := .bfeli a b size dstBit) asg x d rfl⟩,
      ⟨Operands.bfelrWord (s.gpr a) (s.gpr b) srcBit size,
        fun _ hn => Operands.getLsbD_field (s.gpr b) size srcBit.toNat (Operands.shiftOf (s.gpr a)) hn,
        exec_aluInstr_of_ok (op := .bfelr a b srcBit size) asg x d rfl⟩⟩

/-- Settles O22: the read answers inside the register file and faults outside it. -/
theorem readTakesTheSinkRegisterOrFaults : Obligations.ReadTakesTheSinkRegisterOrFaults :=
  fun _ asg x d _ _ _ hm =>
    ⟨fun h => exec_aluInstr_of_ok asg x d (aluStage_read_of_lt hm h),
      fun h => exec_aluInstr_of_error asg x d (aluStage_read_of_ge hm h)⟩

/-! ### Two operations as one of 64 bits -/

@[simp] theorem stepped_gprs (stop : Bool) (s : State) : (stepped stop s).gprs = s.gprs := by
  rw [← endStep_eq_stepped, endStep_frame]

@[simp] theorem stepped_carry (stop : Bool) (s : State) : (stepped stop s).carry = s.carry := by
  rw [← endStep_eq_stepped, endStep_frame]

/-- What a MOVE row leaves in the registers and the carry (43_mme_assign.md R256). -/
theorem registers_of_exec_move {op : AluOp} {x : Bool} {d : Reg} {r : Word} {c : Bool} {s t : State} (hd : d ≠ 0)
    (hop : aluStage op s = .ok (r, { s with carry := c })) (ht : exec (Decode.aluInstr op .move x d) s = .next t) :
    t.gpr d = r ∧ t.carry = c ∧ ∀ e, e ≠ d → t.gpr e = s.gpr e := by
  obtain rfl := Host.Outcome.next.inj ((exec_aluInstr_of_ok .move x d hop).symm.trans ht)
  have hgpr (e : Reg) : (assigned .move x d r { s with carry := c }).gpr e =
      if e = 0 then 0 else if e = d then r else s.gpr e :=
    (State.gpr_congr (stepped_gprs x _) e).trans (State.gpr_setGpr_ite _ d e r)
  refine ⟨?_, ?_, fun e he => ?_⟩
  · rw [hgpr, if_neg hd, if_pos rfl]
  · rw [assigned, stepped_carry, State.setGpr_carry]
  · rw [hgpr, if_neg he]
    split
    · next h0 => rw [h0, s.gpr_zero_eq]
    · rfl

/-- Settles O16: the carry of the low sum enters the high one, so the two sums with their carries add up. -/
theorem addThenAddcIsSixtyFourBitAddition : Obligations.AddThenAddcIsSixtyFourBitAddition := by
  intro s t u k d e al ah bl bh hd he hde hah hbh _ ht hu
  obtain ⟨hlow, hcarry, hkept⟩ := registers_of_exec_move hd (aluStage_add al bl s) ht
  obtain ⟨hhigh, hout, hkept'⟩ := registers_of_exec_move he (aluStage_addc ah bh t) hu
  rw [hkept ah hah.symm, hkept bh hbh.symm] at hhigh hout
  have hc : t.carry.toNat ≤ 1 := t.carry.toNat_le
  have hlowSum := Flags.toNat_ofNat_add_carry (n := (s.gpr al).toNat + (s.gpr bl).toNat) (by omega)
  have hhighSum := Flags.toNat_ofNat_add_carry
    (n := (s.gpr ah).toNat + (s.gpr bh).toNat + t.carry.toNat) (by omega)
  rw [← hlow, ← hcarry] at hlowSum
  rw [← hhigh, ← hout] at hhighSum
  rw [hkept' d hde]
  omega

/-- Settles O17: the borrow of the low difference enters the high one, so the two differences with their borrows add
up. -/
theorem subThenSubbIsSixtyFourBitSubtraction : Obligations.SubThenSubbIsSixtyFourBitSubtraction := by
  intro s t u k d e al ah bl bh hd he hde hah hbh _ ht hu
  obtain ⟨hlow, hcarry, hkept⟩ := registers_of_exec_move hd (aluStage_sub al bl s) ht
  obtain ⟨hhigh, hout, hkept'⟩ := registers_of_exec_move he (aluStage_subb ah bh t) hu
  rw [hkept ah hah.symm, hkept bh hbh.symm] at hhigh hout
  have hc : t.carry.toNat ≤ 1 := t.carry.toNat_le
  have hlowDiff := Flags.toNat_ofInt_sub_borrow
    (m := (s.gpr al).toNat) (n := (s.gpr bl).toNat) (by omega) (by omega) rfl
  have hhighDiff := Flags.toNat_ofInt_sub_borrow (m := (s.gpr ah).toNat) (n := (s.gpr bh).toNat + (1 - t.carry.toNat))
    (z := (s.gpr ah).toNat - (s.gpr bh).toNat - (1 - t.carry.toNat)) (by omega) (by omega) (by omega)
  rw [← hlow, ← hcarry] at hlowDiff
  rw [← hhigh, ← hout] at hhighDiff
  rw [hkept' d hde]
  omega

/-! ### Reserved operations -/

theorem exec_decode_mme (w : Word) (s : State) :
    exec (Decode.decode (.mme w)) s = exec (Decode.decodeMacroCore w) s :=
  exec_rowName (Decode.decodeMacroCore w) s

/-- Every word with a reserved selector or sub-operation is one of the five reserved rows (30_encoding.md R111). -/
theorem exec_decode_reserved {w : Word} (s : State)
    (h : (Decode.opF w).toNat = 6 ∨ (Decode.opF w).toNat = 0 ∧
      (4 ≤ (Decode.aluOpF w).toNat ∧ (Decode.aluOpF w).toNat ≤ 7 ∨ 13 ≤ (Decode.aluOpF w).toNat)) :
    exec (Decode.decode (.mme w)) s = .next (s.raise .aluReserved w.toNat) := by
  rw [exec_decode_mme]
  rcases h with hop | ⟨hop, hk⟩
  · rw [Decode.decodeMacroCore_reservedOp6 hop]; rfl
  · rw [Decode.decodeMacroCore_of_reg (BitVec.eq_of_toNat_eq hop)]
    obtain hk | hk | hk | hk : (4 ≤ (Decode.aluOpF w).toNat ∧ (Decode.aluOpF w).toNat < 8) ∨
        (Decode.aluOpF w).toNat = 13 ∨ (14 ≤ (Decode.aluOpF w).toNat ∧ (Decode.aluOpF w).toNat < 16) ∨
        16 ≤ (Decode.aluOpF w).toNat := by omega
    · rw [Decode.decodeReg_reservedAluop4To7 hk]; rfl
    · rw [Decode.decodeReg_reservedAluop13 hk]; rfl
    · rw [Decode.decodeReg_reservedAluop14To15 hk]; rfl
    · rw [Decode.decodeReg_reservedAluop16To31 hk]; rfl

/-- Settles O23: the five rows raise the fault, and a reserved word is one of them. -/
theorem reservedOperationsFaultWithTheirWord : Obligations.ReservedOperationsFaultWithTheirWord := by
  rintro s w k t rfl rfl
  refine ⟨⟨rfl, rfl, rfl, rfl, rfl⟩, fun h => ?_⟩
  rw [← Decode.toNat_opF, ← Decode.toNat_aluOpF] at h
  exact exec_decode_reserved s h

end Sys2Proof.Machine

/-! PROOF. The assignment suffixes (43_mme_assign.md R252 to R262): each row is its case of `assigned`, and a send is
stored or faults by what stood before the stage, the shadow mode and the index. -/

namespace Sys2Proof.Machine

open Sys2Proof.Safety

/-! ### What decides whether a send is stored -/

@[simp] theorem argumentTaken_methAddr (s : State) : (argumentTaken s).methAddr = s.methAddr := by
  unfold argumentTaken; split <;> rfl

@[simp] theorem argumentTaken_shadowMode (s : State) : (argumentTaken s).shadowMode = s.shadowMode := by
  unfold argumentTaken; split <;> rfl

@[simp] theorem addressed_methAddr (s : State) (v : Word) :
    (addressed s v).methAddr = BitVec.ofNat 32 (v.toNat % 4096) := rfl

@[simp] theorem addressed_shadowMode (s : State) (v : Word) : (addressed s v).shadowMode = s.shadowMode := rfl

/-- `u` is about to send to index `m`, under the shadow mode of `s`. -/
structure SendsTo (s : State) (m : Word) (u : State) : Prop where
  addr : u.methAddr = m
  mode : u.shadowMode = s.shadowMode

namespace SendsTo

variable {s u : State} {m : Word}

theorem sendEnd_of_writable (hu : SendsTo s m u) (h : Writable s m) (x : Bool) (v : Word) :
    sendEnd x v u = stepped x (sent u v) := by
  obtain ⟨rfl, hmode⟩ := hu
  exact if_pos (by rwa [Writable, hmode])

theorem sendEnd_of_not_writable (hu : SendsTo s m u) (h : ¬Writable s m) (x : Bool) (v : Word) :
    sendEnd x v u = { u with fault := some (writeFault s m) } := by
  obtain ⟨rfl, hmode⟩ := hu
  have hfault : writeFault u u.methAddr = writeFault s u.methAddr := by rw [writeFault, writeFault, hmode]
  rw [sendEnd, if_neg (by rwa [Writable, hmode]), hfault]

end SendsTo

section
variable (s : State) (d : Reg) (r v : Word)

/-- MVSEND sends to the method address it finds (43_mme_assign.md R259). -/
theorem sendsTo_setGpr : SendsTo s s.methAddr (s.setGpr d v) := ⟨by simp, by simp⟩

/-- LDSEND takes its argument before it sends (43_mme_assign.md R258). -/
theorem sendsTo_argumentTaken_setGpr : SendsTo s s.methAddr ((argumentTaken s).setGpr d v) := ⟨by simp, by simp⟩

/-- MVSMSENDHI sends to the address packed in its result (43_mme_assign.md R262). -/
theorem sendsTo_addressed : SendsTo s (BitVec.ofNat 32 (r.toNat % 4096)) (addressed (s.setGpr d r) r) :=
  ⟨by simp, by simp⟩

/-- MVSMLDSEND takes its argument after it has set the address (43_mme_assign.md R261). -/
theorem sendsTo_argumentTaken_addressed :
    SendsTo s (BitVec.ofNat 32 (r.toNat % 4096)) (argumentTaken (addressed (s.setGpr d r) r)) := ⟨by simp, by simp⟩

end

/-! ### The suffix rows -/

section
variable {op : AluOp} {s t : State} {r : Word} (asg : Asg) {x : Bool} {d : Reg}

/-- A suffix row whose ALU stage answers is its assignment (43_mme_assign.md R250). -/
theorem exec_suffixInstr_of_ok (h : aluStage op s = .ok (r, t)) :
    exec (Decode.suffixInstr op asg x d) s = .next (assigned asg x d r t) :=
  (exec_suffixInstr_eq_exec_aluInstr op asg x d s).trans (exec_aluInstr_of_ok asg x d h)

variable {u : State} {m v : Word}

/-- A row that ends with a send which is stored (43_mme_assign.md R254). -/
theorem exec_suffixInstr_of_writable (h : aluStage op s = .ok (r, t)) (ha : assigned asg x d r t = sendEnd x v u)
    (hu : SendsTo t m u) (hw : Writable t m) :
    exec (Decode.suffixInstr op asg x d) s = .next (stepped x (sent u v)) := by
  rw [exec_suffixInstr_of_ok asg h, ha, hu.sendEnd_of_writable hw]

/-- A row that ends with a send which faults: nothing follows the fault (60_exceptions.md R306). -/
theorem exec_suffixInstr_of_not_writable (h : aluStage op s = .ok (r, t))
    (ha : assigned asg x d r t = sendEnd x v u) (hu : SendsTo t m u) (hw : ¬Writable t m) :
    exec (Decode.suffixInstr op asg x d) s = .next { u with fault := some (writeFault t m) } := by
  rw [exec_suffixInstr_of_ok asg h, ha, hu.sendEnd_of_not_writable hw]

end

/-- Settles O24: the two rows that take an argument and send nothing. -/
theorem loadAndLdsmTakeTheNextArgument : Obligations.LoadAndLdsmTakeTheNextArgument := fun _ _ _ _ _ _ h =>
  ⟨exec_suffixInstr_of_ok .load h, exec_suffixInstr_of_ok .ldsm h⟩

/-- Settles O25: the two rows that keep the result and send nothing. -/
theorem moveAndMovsmKeepTheResult : Obligations.MoveAndMovsmKeepTheResult := fun _ _ _ _ _ _ h =>
  ⟨exec_suffixInstr_of_ok .move h, exec_suffixInstr_of_ok .movsm h⟩

/-- Settles O26: neither the register write nor the argument moves the method address. -/
theorem mvsendAndLdsendSendTheResult : Obligations.MvsendAndLdsendSendTheResult := fun _ _ d _ s' r h hw =>
  ⟨exec_suffixInstr_of_writable .mvsend h rfl (sendsTo_setGpr s' d r) hw,
    exec_suffixInstr_of_writable .ldsend h rfl (sendsTo_argumentTaken_setGpr s' d (argument s')) hw⟩

/-- Settles O27: both send to the address that `addressed` sets. -/
theorem mvsmldsendAndMvsmsendhiSendToTheNewAddress : Obligations.MvsmldsendAndMvsmsendhiSendToTheNewAddress :=
  fun _ _ d _ s' r h hw =>
    ⟨exec_suffixInstr_of_writable .mvsmldsend h rfl (sendsTo_argumentTaken_addressed s' d r) hw,
      exec_suffixInstr_of_writable .mvsmsendhi h rfl (sendsTo_addressed s' d r) hw⟩

/-- Settles O28: the fault is recorded in the state that was about to send. -/
theorem sendFaultsKeepEarlierEffects : Obligations.SendFaultsKeepEarlierEffects := by
  intro op x d s s' r h
  refine ⟨fun hw => ⟨?mvsend, ?ldsend⟩, fun hw => ⟨?mvsmldsend, ?mvsmsendhi⟩⟩
  case mvsend => exact exec_suffixInstr_of_not_writable .mvsend h rfl (sendsTo_setGpr s' d r) hw
  case ldsend =>
    exact exec_suffixInstr_of_not_writable .ldsend h rfl (sendsTo_argumentTaken_setGpr s' d (argument s')) hw
  case mvsmldsend =>
    exact exec_suffixInstr_of_not_writable .mvsmldsend h rfl (sendsTo_argumentTaken_addressed s' d r) hw
  case mvsmsendhi => exact exec_suffixInstr_of_not_writable .mvsmsendhi h rfl (sendsTo_addressed s' d r) hw

end Sys2Proof.Machine

/-! PROOF. The macro sequencer (44_mme_sequencer.md R281 to R291): the look-ahead of a step, the branch form as one
instruction with two flags, and the end of a step, which every macro word reaches unless it faults. -/

namespace Sys2Proof.Machine

open Sys2Proof.Safety

variable {s t u : State} {k : After}

/-! ### The look-ahead -/

/-- The move inside a macro, whatever turns are prescribed, is the look-ahead. -/
theorem nextFetch_macro (hf : s.fault = none) (hp : s.phase = .run k ∨ s.phase = .last k) :
    nextFetch s = macroFetch s := by
  rcases hp with hp | hp <;> rw [nextFetch_inside hf (by simp [hp]), agentFetch_of_no_fault hf, hp]

/-- Settles O5: the look-ahead succeeds, and the pipeline word is what the step runs. -/
theorem macroStepRunsThePipelineWord : Obligations.MacroStepRunsThePipelineWord := by
  rintro s k _ hf hp hc rfl -
  exact step_macro hf hp hc

/-- Settles O6: the look-ahead comes before anything else, and its fault is all that happens. -/
theorem lookAheadOutsideCodeMemoryFaults : Obligations.LookAheadOutsideCodeMemoryFaults := by
  intro s k hf hp hc
  rw [step, nextFetch_macro hf hp, macroFetch_of_not_mem (not_toNat_lt_of_not_inCode hc)]
  rfl

/-! ### The end of a step, by phase -/

theorem stepped_run (hp : s.phase = .run k) (stop : Bool) :
    stepped stop s = { s with phase := if stop then .last k else .run k } := by unfold stepped; rw [hp]

/-- A step that returns Continue leaves a running macro as it is (44_mme_sequencer.md R281). -/
theorem stepped_false_run (hp : s.phase = .run k) : stepped false s = s := by
  rw [stepped_run hp, if_neg Bool.false_ne_true, ← hp]

theorem stepped_last (hp : s.phase = .last k) (stop : Bool) :
    stepped stop s = wordDone { s with trace := s.trace ++ [.deferredDraws] } := by unfold stepped; rw [hp]

@[simp] theorem wordDone_phase (s : State) : (wordDone s).phase = .pusher := by unfold wordDone; split <;> rfl

/-- The end of a word depends on the phase only by what is left of the word. -/
theorem wordDone_congr (h : t = { s with phase := t.phase }) (ha : t.phase.after = s.phase.after) :
    wordDone t = wordDone s := by
  unfold wordDone
  rw [ha, h]

/-! ### The branch form -/

/-- A word of the branch form (30_encoding.md R104): `nd` for no delay slot, `nz` for branch if not zero. -/
def branchInstr (nd nz x : Bool) (a : Reg) (v : BitVec 18) : Instr :=
  match nd, nz with
  | false, false => .bz x a v
  | false, true => .bnz x a v
  | true, false => .bzNd x a v
  | true, true => .bnzNd x a v

theorem decodeBranch_eq_branchInstr (w : Word) :
    Decode.decodeBranch w =
      branchInstr (Decode.noDelayF w) (Decode.nzF w) (Decode.exitF w) (Decode.srcAF w) (Decode.immF w) := by
  unfold Decode.decodeBranch branchInstr
  cases Decode.noDelayF w <;> cases Decode.nzF w <;> rfl

/-- Where a taken branch goes, with the delay slot or without (44_mme_sequencer.md R286, R287). -/
def takeBranch (nd : Bool) (v : BitVec 18) (s : State) : State := if nd then takeNoDelay v s else takeDelayed v s

section
variable {nz : Bool} {a : Reg}

/-- BZ is not taken on a register that is not 0, BNZ on one that is (44_mme_sequencer.md R284, R285). -/
theorem exec_branchInstr_not_taken (h : s.gpr a = 0 ↔ nz = true) (nd x : Bool) (v : BitVec 18) :
    exec (branchInstr nd nz x a v) s = .next (stepped x s) := by
  rw [← endStep_eq_stepped]
  cases nz
  case false =>
    have ha : s.gpr a ≠ 0 := fun h0 => Bool.false_ne_true (h.mp h0)
    cases nd <;> exact congrArg Host.Outcome.next (if_neg ha)
  case true => cases nd <;> exact congrArg Host.Outcome.next (if_pos (h.mpr rfl))

theorem exec_branchInstr_taken (h : ¬(s.gpr a = 0 ↔ nz = true)) (nd x : Bool) (v : BitVec 18) :
    exec (branchInstr nd nz x a v) s = .next (takeBranch nd v s) := by
  cases nz
  case false =>
    have ha : s.gpr a = 0 := by_contra fun hne => h (iff_of_false hne Bool.false_ne_true)
    cases nd <;> exact congrArg Host.Outcome.next (if_pos ha)
  case true =>
    have ha : s.gpr a ≠ 0 := fun h0 => h (iff_of_true h0 rfl)
    cases nd <;> exact congrArg Host.Outcome.next (if_neg ha)

end

theorem takeDelayed_eq_stepped (v : BitVec 18) (s : State) :
    takeDelayed v s = stepped false { s with pc := s.pc - 2 + v.toInt } := endStep_eq_stepped false _

theorem takeNoDelay_of_inCode {v : BitVec 18} (h : InCode (s.pc - 2 + v.toInt)) :
    takeNoDelay v s = stepped false
      { s with pc := s.pc - 2 + v.toInt + 1, pipeOp := s.code (s.pc - 2 + v.toInt).toNat } := by
  unfold takeNoDelay branchTarget branchBase Operands.immOffset
  rw [fetchMacro_of_mem (toNat_lt_of_inCode h)]
  exact endStep_eq_stepped false _

theorem takeNoDelay_of_not_inCode {v : BitVec 18} (h : ¬InCode (s.pc - 2 + v.toInt)) :
    takeNoDelay v s =
      { s with
        pc := s.pc - 2 + v.toInt
        fault := some { kind := .macroFetchRange, info := s.pc - 2 + v.toInt } } := by
  unfold takeNoDelay branchTarget branchBase Operands.immOffset
  rw [fetchMacro_of_not_mem (not_toNat_lt_of_not_inCode h)]
  rfl

/-- BZ is taken on a register that is 0, BNZ on one that is not (44_mme_sequencer.md R284). -/
theorem exec_bz_bnz_taken (nd x : Bool) (a : Reg) (v : BitVec 18) :
    (s.gpr a = 0 → exec (branchInstr nd false x a v) s = .next (takeBranch nd v s)) ∧
      (s.gpr a ≠ 0 → exec (branchInstr nd true x a v) s = .next (takeBranch nd v s)) :=
  ⟨fun ha => exec_branchInstr_taken (fun h => Bool.false_ne_true (h.mp ha)) nd x v,
    fun ha => exec_branchInstr_taken (fun h => ha (h.mpr rfl)) nd x v⟩

/-- Settles O29: the delayed forms set `pc` and end their step. -/
theorem takenDelayedBranchesSetTheFetchPointer : Obligations.TakenDelayedBranchesSetTheFetchPointer := by
  rintro s _ x a v rfl
  rw [← takeDelayed_eq_stepped]
  obtain ⟨hbz, hbnz⟩ := exec_bz_bnz_taken (s := s) false x a v
  exact ⟨hbz, hbnz, rfl⟩

/-- Settles O30: the forms without a delay slot fetch their target, inside macro code memory and outside. -/
theorem takenNoDelayBranchesFetchTheirTarget : Obligations.TakenNoDelayBranchesFetchTheirTarget := by
  rintro s t x a v _ rfl ht
  obtain rfl : takeNoDelay v s = t := by
    rw [ht]
    split
    · next h => exact takeNoDelay_of_inCode h
    · next h => exact takeNoDelay_of_not_inCode h
  obtain ⟨hbz, hbnz⟩ := exec_bz_bnz_taken (s := s) true x a v
  exact ⟨hbz, hbnz, rfl⟩

/-- Settles O31: the four forms where their condition fails. -/
theorem untakenBranchesHonourTheirExitFlag : Obligations.UntakenBranchesHonourTheirExitFlag := by
  intro s x a v
  refine ⟨fun ha => ?_, fun ha => ?_⟩
  · have h : s.gpr a = 0 ↔ false = true := iff_of_false ha Bool.false_ne_true
    exact ⟨exec_branchInstr_not_taken h false x v, exec_branchInstr_not_taken h true x v⟩
  · have h : s.gpr a = 0 ↔ true = true := iff_of_true ha rfl
    exact ⟨exec_branchInstr_not_taken h false x v, exec_branchInstr_not_taken h true x v⟩

/-- A taken BZ or BNZ in the pipeline: the step leaves the word after it there and its target in `pc`. -/
theorem step_delayed_branch {nz x : Bool} {a : Reg} {v : BitVec 18} (hf : s.fault = none) (hp : s.phase = .run k)
    (hc : InCode s.pc) (hi : Decode.decodeMacroCore s.pipeOp = branchInstr false nz x a v)
    (ha : ¬(s.gpr a = 0 ↔ nz = true)) :
    step s = .next { s with pipeOp := s.code s.pc.toNat, pc := s.pc - 1 + v.toInt } := by
  have hbase : s.pc - 1 + v.toInt = s.pc + 1 - 2 + v.toInt := by omega
  rw [step_macro hf (.inl hp) hc, exec_decode_mme, hi, exec_branchInstr_taken (by exact ha), hbase]
  exact congrArg Host.Outcome.next ((takeDelayed_eq_stepped v _).trans (stepped_false_run (k := k) hp))

/-- Settles O32: the branch's step, then a step whose look-ahead fetches the target. -/
theorem delaySlotRunsBeforeTheTarget : Obligations.DelaySlotRunsBeforeTheTarget := by
  intro s k x a v hf hp hc hi ht
  refine ⟨?_, step_macro hf (.inl hp) ht⟩
  rcases hi with ⟨hi, ha⟩ | ⟨hi, ha⟩
  · exact step_delayed_branch (nz := false) hf hp hc hi fun h => Bool.false_ne_true (h.mp ha)
  · exact step_delayed_branch (nz := true) hf hp hc hi fun h => ha (h.mpr rfl)

/-! ### The rows that are no branch -/

/-- The instructions of 30_encoding.md R111 that are no branch, with their exit flag. -/
inductive NonBranch (x : Bool) : Instr → Prop where
  | operation (op : AluOp) (asg : Asg) (d : Reg) : NonBranch x (Decode.aluInstr op asg x d)
  | reserved {i : Instr} (w : Word) (h : ∀ s, exec i s = .next (s.raise .aluReserved w.toNat)) : NonBranch x i

theorem nonBranch_decodeReg (w : Word) : NonBranch (Decode.exitF w) (Decode.decodeReg w) := by
  unfold Decode.decodeReg
  split
  case h_1 => exact .operation (.reg .add _ _) _ _
  case h_2 => exact .operation (.reg .addc _ _) _ _
  case h_3 => exact .operation (.reg .sub _ _) _ _
  case h_4 => exact .operation (.reg .subb _ _) _ _
  case h_9 => exact .operation (.reg .xor _ _) _ _
  case h_10 => exact .operation (.reg .or _ _) _ _
  case h_11 => exact .operation (.reg .and _ _) _ _
  case h_12 => exact .operation (.reg .andn _ _) _ _
  case h_13 => exact .operation (.reg .nand _ _) _ _
  all_goals exact .reserved w fun _ => rfl

/-- Selector 7 is the branch form, and every other word keeps its exit flag in bit 7 (30_encoding.md R100, R111). -/
theorem decodeMacroCore_cases (w : Word) :
    NonBranch (Decode.exitF w) (Decode.decodeMacroCore w) ∨
      (Decode.opF w).toNat = 7 ∧ Decode.decodeMacroCore w = Decode.decodeBranch w := by
  have hlt : (Decode.opF w).toNat < 8 := (Decode.opF w).isLt
  unfold Decode.decodeMacroCore
  split
  case h_1 => exact .inl (nonBranch_decodeReg w)
  case h_2 => exact .inl (.operation (.addi _ _) _ _)
  case h_3 => exact .inl (.operation (.bfi _ _ _ _ _) _ _)
  case h_4 => exact .inl (.operation (.bfeli _ _ _ _) _ _)
  case h_5 => exact .inl (.operation (.bfelr _ _ _ _) _ _)
  case h_6 => exact .inl (.operation (.read _ _) _ _)
  case h_7 => exact .inl (.reserved w fun _ => rfl)
  case h_8 => exact .inr ⟨by simp only [imp_false] at *; omega, rfl⟩

/-- What a macro row stands for is a branch or not. -/
theorem core_cases {i : Instr} (hi : isMacroRow i = true) :
    (∃ x, NonBranch x (Decode.core i)) ∨ ∃ nd nz x a v, Decode.core i = branchInstr nd nz x a v := by
  cases i <;> first | exact absurd hi Bool.false_ne_true | skip
  case add asg x d a b => exact .inl ⟨x, .operation (.reg .add a b) asg d⟩
  case addc asg x d a b => exact .inl ⟨x, .operation (.reg .addc a b) asg d⟩
  case sub asg x d a b => exact .inl ⟨x, .operation (.reg .sub a b) asg d⟩
  case subb asg x d a b => exact .inl ⟨x, .operation (.reg .subb a b) asg d⟩
  case xor asg x d a b => exact .inl ⟨x, .operation (.reg .xor a b) asg d⟩
  case or asg x d a b => exact .inl ⟨x, .operation (.reg .or a b) asg d⟩
  case and asg x d a b => exact .inl ⟨x, .operation (.reg .and a b) asg d⟩
  case andn asg x d a b => exact .inl ⟨x, .operation (.reg .andn a b) asg d⟩
  case nand asg x d a b => exact .inl ⟨x, .operation (.reg .nand a b) asg d⟩
  case addi asg x d a v => exact .inl ⟨x, .operation (.addi a v) asg d⟩
  case bfi asg x d a b p n q => exact .inl ⟨x, .operation (.bfi a b p n q) asg d⟩
  case bfeli asg x d a b n q => exact .inl ⟨x, .operation (.bfeli a b n q) asg d⟩
  case bfelr asg x d a b p n => exact .inl ⟨x, .operation (.bfelr a b p n) asg d⟩
  case read asg x d a v => exact .inl ⟨x, .operation (.read a v) asg d⟩
  case load op x d | move op x d | movsm op x d | ldsend op x d | mvsend op x d | ldsm op x d | mvsmldsend op x d |
      mvsmsendhi op x d => exact .inl ⟨x, .operation op _ d⟩
  case nop => exact .inl ⟨false, .operation (.addi 0 0) .move 0⟩
  case exit => exact .inl ⟨true, .operation (.addi 0 0) .move 0⟩
  case mov d a => exact .inl ⟨false, .operation (.addi a 0) .move d⟩
  case li d v => exact .inl ⟨false, .operation (.addi 0 v) .move d⟩
  case parm d => exact .inl ⟨false, .operation (.addi 0 0) .load d⟩
  case maddr v => exact .inl ⟨false, .operation (.addi 0 v) .movsm 0⟩
  case send a => exact .inl ⟨false, .operation (.addi a 0) .mvsend 0⟩
  case reservedAluop4To7 w | reservedAluop13 w | reservedAluop14To15 w | reservedAluop16To31 w | reservedOp6 w =>
    exact .inl ⟨false, .reserved w fun _ => rfl⟩
  case bz x a v => exact .inr ⟨false, false, x, a, v, rfl⟩
  case bnz x a v => exact .inr ⟨false, true, x, a, v, rfl⟩
  case bzNd x a v => exact .inr ⟨true, false, x, a, v, rfl⟩
  case bnzNd x a v => exact .inr ⟨true, true, x, a, v, rfl⟩
  case j v => exact .inr ⟨false, false, false, 0, v, rfl⟩
  case jNd v => exact .inr ⟨true, false, false, 0, v, rfl⟩

/-! ### Every macro word that does not fault ends its step -/

/-- What a macro word does before the end of its step: it stays in its phase, leaves the look-ahead as it was, and only
appends to the trace. -/
structure InStep (s u : State) : Prop where
  phase : u.phase = s.phase
  pc : u.pc = s.pc
  pipeOp : u.pipeOp = s.pipeOp
  trace : s.trace <+: u.trace

theorem InStep.refl (s : State) : InStep s s := ⟨rfl, rfl, rfl, List.prefix_rfl⟩

namespace InStep

variable (h : InStep s u)
include h

theorem setGpr (d : Reg) (v : Word) : InStep s (u.setGpr d v) := by
  obtain ⟨hphase, hpc, hpipe, htrace⟩ := h
  exact ⟨by simpa using hphase, by simpa using hpc, by simpa using hpipe, by simpa using htrace⟩

theorem argumentTaken : InStep s (argumentTaken u) := by
  obtain ⟨hphase, hpc, hpipe, htrace⟩ := h
  unfold Safety.argumentTaken
  split
  · exact ⟨hphase, hpc, hpipe, htrace.trans (List.prefix_append _ _)⟩
  · exact ⟨hphase, hpc, hpipe, htrace⟩

theorem addressed (v : Word) : InStep s (addressed u v) := ⟨h.phase, h.pc, h.pipeOp, h.trace⟩

theorem sent (v : Word) : InStep s (sent u v) :=
  ⟨h.phase, h.pc, h.pipeOp, h.trace.trans (List.prefix_append _ _)⟩

end InStep

/-- The word executed in `s` faults, or its step ends with the exit flag `x`. -/
def EndsStep (x : Bool) (s t : State) : Prop := t.fault ≠ none ∨ ∃ u, InStep s u ∧ t = stepped x u

theorem InStep.endsStep (h : InStep s u) (x : Bool) : EndsStep x s (stepped x u) := .inr ⟨u, h, rfl⟩

theorem InStep.sendEnd (h : InStep s u) (x : Bool) (v : Word) : EndsStep x s (sendEnd x v u) := by
  unfold Safety.sendEnd
  split
  · exact (h.sent v).endsStep x
  · exact .inl (Option.some_ne_none _)

theorem InStep.assigned (h : InStep s u) (asg : Asg) (x : Bool) (d : Reg) (r : Word) :
    EndsStep x s (assigned asg x d r u) := by
  cases asg
  case load => exact (h.argumentTaken.setGpr d _).endsStep x
  case move => exact (h.setGpr d r).endsStep x
  case movsm => exact ((h.setGpr d r).addressed r).endsStep x
  case ldsend => exact (h.argumentTaken.setGpr d _).sendEnd x r
  case mvsend => exact (h.setGpr d r).sendEnd x r
  case ldsm => exact ((h.argumentTaken.setGpr d _).addressed r).endsStep x
  case mvsmldsend => exact ((h.setGpr d r).addressed r).argumentTaken.sendEnd x _
  case mvsmsendhi => exact ((h.setGpr d r).addressed r).sendEnd x _

/-- Of the ALU stages only READ's can fail, and it records its fault (42_mme_alu.md R226). -/
theorem fault_of_aluStage_error {op : AluOp} (h : aluStage op s = .error u) : u.fault ≠ none := by
  rcases op with ⟨k, a, b⟩ | _ | _ | _ | _ | ⟨a, imm⟩
  case reg => cases k <;> cases h
  case read =>
    by_cases hm : (BitVec.ofInt 32 ((s.gpr a).toNat + imm.toInt)).toNat < Config.regFileWords
    · rw [aluStage_read_of_lt rfl hm] at h; cases h
    · rw [aluStage_read_of_ge rfl (Nat.not_lt.mp hm)] at h; cases h; exact Option.some_ne_none _
  all_goals cases h

theorem NonBranch.endsStep {x : Bool} {i : Instr} (h : NonBranch x i) (ht : exec i s = .next t) : EndsStep x s t := by
  cases h with
  | operation op asg d =>
    cases hop : aluStage op s with
    | ok p =>
      rw [exec_aluInstr_of_ok asg x d hop] at ht
      cases ht
      have hp : InStep s p.2 := by rw [aluStage_ok_frame hop]; exact ⟨rfl, rfl, rfl, List.prefix_rfl⟩
      exact hp.assigned asg x d p.1
    | error u =>
      rw [exec_aluInstr_of_error asg x d hop] at ht
      cases ht
      exact .inl (fault_of_aluStage_error hop)
  | reserved w h =>
    rw [h] at ht
    cases ht
    exact .inl (Option.some_ne_none _)

/-- A taken branch ends its step after a jump. -/
theorem takeBranch_endsStep (nd : Bool) (v : BitVec 18) (s : State) :
    ∃ p w, EndsStep false { s with pc := p, pipeOp := w } (takeBranch nd v s) := by
  cases nd
  case false => exact ⟨_, s.pipeOp, .inr ⟨_, .refl _, takeDelayed_eq_stepped v s⟩⟩
  case true =>
    by_cases h : InCode (s.pc - 2 + v.toInt)
    · exact ⟨_, _, .inr ⟨_, .refl _, takeNoDelay_of_inCode h⟩⟩
    · refine ⟨s.pc, s.pipeOp, .inl ?_⟩
      rw [takeBranch, if_pos rfl, takeNoDelay_of_not_inCode h]
      exact Option.some_ne_none _

/-- Every macro row faults or ends its step, a taken branch after a jump. -/
theorem exec_endsStep {i : Instr} (hi : isMacroRow i = true) (ht : exec i s = .next t) :
    ∃ x p w, EndsStep x { s with pc := p, pipeOp := w } t := by
  rw [exec_core] at ht
  obtain ⟨x, h⟩ | ⟨nd, nz, x, a, v, h⟩ := core_cases hi
  · exact ⟨x, s.pc, s.pipeOp, h.endsStep ht⟩
  · rw [h] at ht
    by_cases ha : s.gpr a = 0 ↔ nz = true
    · rw [exec_branchInstr_not_taken ha] at ht
      cases ht
      exact ⟨x, s.pc, s.pipeOp, (InStep.refl s).endsStep x⟩
    · rw [exec_branchInstr_taken ha] at ht
      cases ht
      exact ⟨false, takeBranch_endsStep nd v s⟩

/-! ### The exit -/

/-- A word whose exit flag counts faults or returns Stop (44_mme_sequencer.md R283, R285). -/
theorem exec_endsStep_of_exitCounts {w : Word} (hx : ExitCounts s w)
    (ht : exec (Decode.decodeMacroCore w) s = .next t) : EndsStep true s t := by
  obtain ⟨hexit, hbranch⟩ := hx
  have hflag : Decode.exitF w = true := hexit
  obtain h | ⟨hop, h⟩ := decodeMacroCore_cases w
  · rw [hflag] at h
    exact h.endsStep ht
  · rw [Decode.toNat_opF] at hop
    have hnot : s.gpr (Decode.srcAF w) = 0 ↔ Decode.nzF w = true := hbranch hop
    rw [h, decodeBranch_eq_branchInstr, hflag, exec_branchInstr_not_taken hnot] at ht
    cases ht
    exact (InStep.refl s).endsStep true

/-- Stop in a running macro makes the next step the last one (44_mme_sequencer.md R281). -/
theorem EndsStep.of_run (h : EndsStep true s t) (hp : s.phase = .run k) (hf : t.fault = none) :
    t.phase = .last k ∧ t.pc = s.pc ∧ t.pipeOp = s.pipeOp := by
  obtain hfault | ⟨u, hu, rfl⟩ := h
  · exact absurd hf hfault
  · rw [stepped_run (hu.phase.trans hp)]
    exact ⟨rfl, hu.pc, hu.pipeOp⟩

/-- After the last step, whatever it returns, the execution is over (44_mme_sequencer.md R288, 41_dispatch.md R190). -/
theorem EndsStep.of_last {x : Bool} (h : EndsStep x s t) (hp : s.phase = .last k) (hf : t.fault = none) :
    t.phase = .pusher ∧ ∃ es, t.trace = s.trace ++ es ++ [.deferredDraws] := by
  obtain hfault | ⟨u, hu, rfl⟩ := h
  · exact absurd hf hfault
  · obtain ⟨es, hes⟩ := hu.trace
    rw [stepped_last (hu.phase.trans hp)]
    exact ⟨wordDone_phase _, es, by rw [wordDone_trace, hes]⟩

/-- The step of a word whose exit flag counts, and the step after it. -/
theorem step_of_exitCounts (hf : s.fault = none) (hp : s.phase = .run k) (hc : InCode s.pc)
    (hx : ExitCounts s s.pipeOp) (ht : step s = .next t) (hft : t.fault = none) :
    t.phase = .last k ∧ t.pc = s.pc + 1 ∧ t.pipeOp = s.code s.pc.toNat ∧
      (InCode (s.pc + 1) → step t = exec (Decode.decode (.mme (s.code s.pc.toNat)))
        { t with pipeOp := s.code (s.pc + 1).toNat, pc := s.pc + 2 }) := by
  rw [step_macro hf (.inl hp) hc] at ht
  have hcode (n : Nat) : t.code n = s.code n :=
    State.code_congr (congrArg State.macroMem (exec_macroFrame (isMacroRow_decodeMacro s.pipeOp) ht).frame) n
  rw [exec_decode_mme] at ht
  obtain ⟨hphase, hpc, hpipe⟩ := (exec_endsStep_of_exitCounts (by exact hx) ht).of_run hp hft
  refine ⟨hphase, hpc, hpipe, fun hc' => ?_⟩
  rw [step_macro hft (.inr hphase) (by rw [hpc]; exact hc'), hpipe, hpc, hcode, add_assoc]
  rfl

/-- EXIT in a running macro (30_encoding.md R113). -/
theorem step_exit (hf : s.fault = none) (hp : s.phase = .run k) (hc : InCode s.pc) (hw : s.pipeOp = 0x91) :
    step s = .next { s with pipeOp := s.code s.pc.toNat, pc := s.pc + 1, phase := .last k } := by
  have hd : Decode.decode (.mme 0x91) = .exit := by decide
  rw [step_macro hf (.inl hp) hc, hw, hd]
  exact congrArg Host.Outcome.next ((endStep_eq_stepped true _).trans (stepped_run (k := k) (by exact hp) true))

/-- NOP as a macro's last word. -/
theorem step_last_nop (hf : s.fault = none) (hp : s.phase = .last k) (hc : InCode s.pc) (hw : s.pipeOp = 0x11) :
    step s = .next (wordDone
      { s with pipeOp := s.code s.pc.toNat, pc := s.pc + 1, trace := s.trace ++ [.deferredDraws] }) := by
  have hd : Decode.decode (.mme 0x11) = .nop := by decide
  rw [step_macro hf (.inr hp) hc, hw, hd]
  exact congrArg Host.Outcome.next ((endStep_eq_stepped false _).trans (stepped_last (k := k) (by exact hp) false))

/-- EXIT and NOP from a running macro: the execution is over after the second step. -/
theorem run_exit_nop (hf : s.fault = none) (hp : s.phase = .run k) (hc : InCode s.pc) (hc' : InCode (s.pc + 1))
    (hexit : s.pipeOp = 0x91) (hnop : s.code s.pc.toNat = 0x11) :
    core.run 2 s = .next (wordDone
      { s with pipeOp := s.code (s.pc + 1).toNat, pc := s.pc + 2, trace := s.trace ++ [.deferredDraws] }) := by
  have hpc : s.pc + 2 = s.pc + 1 + 1 := by omega
  have hafter : (Phase.last k).after = s.phase.after := by rw [hp]; rfl
  have hfirst := step_exit hf hp hc hexit
  have hsecond := step_last_nop (s := { s with pipeOp := s.code s.pc.toNat, pc := s.pc + 1, phase := .last k })
    hf rfl hc' hnop
  rw [run_succ hfirst, run_succ hsecond, hpc]
  exact congrArg Host.Outcome.next (wordDone_congr rfl hafter)

/-- Settles O33: the exiting word's step, the end of any last word, and EXIT with NOP. -/
theorem exitRunsOneMoreWordThenEnds : Obligations.ExitRunsOneMoreWordThenEnds := by
  refine ⟨fun s t k hf hp hc hx ht hft => step_of_exitCounts hf hp hc hx ht hft, ?last,
    fun s k hf hp hc hc' hexit hnop => run_exit_nop hf hp hc hc' hexit hnop⟩
  case last =>
    intro s t k i hp hi ht hf
    obtain ⟨x, p, w, h⟩ := exec_endsStep hi ht
    exact h.of_last hp hf

end Sys2Proof.Machine

/-! PROOF. Every instruction answers a next state (60_exceptions.md R300, R301): the macro rows by what they stand for, a
register method by its write, every other row by its meaning, which is a next state as it stands. -/

namespace Sys2Proof.Machine

open Sys2Proof.Safety

/-- An operation answers what its stages leave, a READ that faults among them; a reserved word records its fault. -/
theorem NonBranch.answers {x : Bool} {i : Instr} (h : NonBranch x i) (s : State) : ∃ t, exec i s = .next t := by
  cases h with
  | operation op asg d => exact ⟨_, exec_aluInstr op asg x d s⟩
  | reserved w hw => exact ⟨_, hw s⟩

theorem exec_branchInstr_answers (nd nz x : Bool) (a : Reg) (v : BitVec 18) (s : State) :
    ∃ t, exec (branchInstr nd nz x a v) s = .next t := by
  by_cases h : s.gpr a = 0 ↔ nz = true
  · exact ⟨_, exec_branchInstr_not_taken h nd x v⟩
  · exact ⟨_, exec_branchInstr_taken h nd x v⟩

theorem exec_macroRow_answers {i : Instr} (hi : isMacroRow i = true) (s : State) : ∃ t, exec i s = .next t := by
  rw [exec_core]
  obtain ⟨x, h⟩ | ⟨nd, nz, x, a, v, h⟩ := core_cases hi
  · exact h.answers s
  · rw [h]
    exact exec_branchInstr_answers nd nz x a v s

/-- The write is stored and the call ends, or its fault is recorded (41_dispatch.md R186). -/
theorem exec_registerMethod_answers (sc : SubCh) (m v : Word) (s : State) :
    ∃ t, exec (.registerMethod sc m v) s = .next t := by
  simp only [exec, execRegisterMethod]
  cases regWrite sc m v .pusher s with
  | ok t => exact ⟨endCall t, rfl⟩
  | error t => exact ⟨t, rfl⟩

/-- Settles O55: the macro rows and the register methods by the lemmas above, every other row by its meaning. -/
theorem everyInstructionAnswersANextState : Obligations.EveryInstructionAnswersANextState := by
  intro i s
  by_cases hi : isMacroRow i = true
  · exact exec_macroRow_answers hi s
  cases i <;> first | exact absurd rfl hi | skip
  case registerMethod sc m v => exact exec_registerMethod_answers sc m v s
  case inc | noninc | imm | oneinc | reservedMode0 | reservedMode2 | reservedMode6 | reservedMode7 | data | length =>
    exact ⟨_, rfl⟩
  case bindChannel | waitForIdle | setMacroUploadAddress | sendMacroCodeData | setMacroBindingIndex | bindMacro |
      setMmeShadowRamControl | fifoOther | macroStart | macroArgument => exact ⟨_, rfl⟩
  case queueEntry => exact ⟨_, rfl⟩

end Sys2Proof.Machine

/-! PROOF. The words written out in the spec (95_test_vectors.md, 70_reset_and_hazards.md R334): each is the encoding of
the instruction it stands for, and the decoder is the encoder's inverse. -/

namespace Sys2Proof.Decode

theorem decode_of_encode_eq {i : Instr} {c : Code} (hw : i.wf = true) (hc : encode i = c) : decode c = i :=
  hc ▸ decode_encode hw

/-- Settles O3: encoding each instruction gives the written-out word, which `decode_of_encode_eq` turns around. -/
theorem writtenOutWordsDecode : Obligations.WrittenOutWordsDecode := by
  refine ⟨?_, ?_, ?_, ?_, ?_, ?_, ?_, ?_, ?_⟩ <;> exact decode_of_encode_eq (by decide) (by decide)

end Sys2Proof.Decode
